-- ==== Sys2Proof/Word.lean ====
section
/-! DEFINITION. The word types: 16-bit words (I, pc, instruction words, stack entries), bytes, and register numbers. -/

namespace Sys2Proof

/-- A 16-bit word: I, pc, a stack entry, an instruction word (00_scope.md R6). -/
abbrev Word := BitVec 16

/-- An 8-bit byte: a memory byte, a variable register, a timer (00_scope.md R6). -/
abbrev Byte := BitVec 8

/-- A 12-bit address field NNN (30_encoding.md R71). -/
abbrev Addr12 := BitVec 12

/-- A 4-bit field: the number of a variable register, or the row count N. Every value is a register (10_state.md R20). -/
abbrev Nibble := Fin 16

end Sys2Proof
end

