-- ==== Sys2Proof/Machine/Flags.lean ====
section
/-! DEFINITION. The flag computations: what VF receives, each on the operands before the instruction
(10_state.md R23, 43_alu.md R140). -/

namespace Sys2Proof.Machine

/-- 8XY4: the carry out of bit 7, the unmasked sum exceeds 255 (43_alu.md R147). -/
def carryFlag (a b : Byte) : Bool := decide (a.toNat + b.toNat > 255)

/-- 8XY5 and 8XY7: no borrow in `a - b`, that is `a ≥ b` (43_alu.md R148, R149). -/
def noBorrowFlag (a b : Byte) : Bool := decide (a.toNat ≥ b.toNat)

/-- 8XY6: the bit shifted out on the right, bit 0 (43_alu.md R150). -/
def shiftOutRight (b : Byte) : Bool := b.getLsbD 0

/-- 8XYE: the bit shifted out on the left, bit 7 (43_alu.md R151). -/
def shiftOutLeft (b : Byte) : Bool := b.getLsbD 7

/-- FX1E with `FX1E_SETS_VF = true`: the unbounded sum exceeds 0xFFF (44_index_memory.md R171). -/
def indexOverflowFlag (i : Word) (b : Byte) : Bool := decide (i.toNat + b.toNat > 0xFFF)

end Sys2Proof.Machine
end

