-- ==== Sys2Proof/Syntax.lean ====
section
/-! DEFINITION. The instructions, one constructor per row of spec/opcode_table.json. The operand fields are those of
30_encoding.md R71 and R73: X, Y, N as numbers below 16, NN as a byte, NNN as 12 bits. -/

namespace Sys2Proof

/-- The 34 instructions of the opcode map (30_encoding.md R79). `seReg` and `sneReg` keep the ignored nibble N, so that
an instruction determines its word (30_encoding.md R80). -/
inductive Instr where
  /-- 00E0, clear the display (41_display.md R100). -/
  | cls
  /-- 00EE, return (42_control_flow.md R120). -/
  | ret
  /-- 1NNN, jump (42_control_flow.md R121). -/
  | jp (nnn : Addr12)
  /-- 2NNN, call (42_control_flow.md R122). -/
  | call (nnn : Addr12)
  /-- 3XNN, skip if V[X] = NN (42_control_flow.md R123). -/
  | seImm (x : Nibble) (nn : Byte)
  /-- 4XNN, skip if V[X] ≠ NN (42_control_flow.md R124). -/
  | sneImm (x : Nibble) (nn : Byte)
  /-- 5XYN, skip if V[X] = V[Y]; N is ignored (42_control_flow.md R125). -/
  | seReg (x y ignored : Nibble)
  /-- 6XNN, load immediate (43_alu.md R141). -/
  | ldImm (x : Nibble) (nn : Byte)
  /-- 7XNN, add immediate (43_alu.md R142). -/
  | addImm (x : Nibble) (nn : Byte)
  /-- 8XY0, copy (43_alu.md R143). -/
  | ldReg (x y : Nibble)
  /-- 8XY1 (43_alu.md R144). -/
  | orReg (x y : Nibble)
  /-- 8XY2 (43_alu.md R145). -/
  | andReg (x y : Nibble)
  /-- 8XY3 (43_alu.md R146). -/
  | xorReg (x y : Nibble)
  /-- 8XY4, add with carry (43_alu.md R147). -/
  | addReg (x y : Nibble)
  /-- 8XY5, subtract (43_alu.md R148). -/
  | subReg (x y : Nibble)
  /-- 8XY6, shift right (43_alu.md R150). -/
  | shr (x y : Nibble)
  /-- 8XY7, subtract reversed (43_alu.md R149). -/
  | subn (x y : Nibble)
  /-- 8XYE, shift left (43_alu.md R151). -/
  | shl (x y : Nibble)
  /-- 9XYN, skip if V[X] ≠ V[Y]; N is ignored (42_control_flow.md R126). -/
  | sneReg (x y ignored : Nibble)
  /-- ANNN, load index (44_index_memory.md R170). -/
  | ldI (nnn : Addr12)
  /-- BNNN, jump with offset (42_control_flow.md R127). -/
  | jpV0 (nnn : Addr12)
  /-- CXNN, random (43_alu.md R152). -/
  | rnd (x : Nibble) (nn : Byte)
  /-- DXYN, draw sprite (41_display.md R101). -/
  | drw (x y n : Nibble)
  /-- EX9E, skip if key pressed (45_keys_timers.md R191). -/
  | skp (x : Nibble)
  /-- EXA1, skip if key not pressed (45_keys_timers.md R192). -/
  | sknp (x : Nibble)
  /-- FX07, read the delay timer (45_keys_timers.md R193). -/
  | ldVxDT (x : Nibble)
  /-- FX0A, wait for a key (45_keys_timers.md R196). -/
  | ldVxK (x : Nibble)
  /-- FX15, write the delay timer (45_keys_timers.md R194). -/
  | ldDTVx (x : Nibble)
  /-- FX18, write the sound timer (45_keys_timers.md R195). -/
  | ldSTVx (x : Nibble)
  /-- FX1E, add to index (44_index_memory.md R171). -/
  | addI (x : Nibble)
  /-- FX29, font lookup (44_index_memory.md R172). -/
  | ldF (x : Nibble)
  /-- FX33, BCD (44_index_memory.md R173). -/
  | ldB (x : Nibble)
  /-- FX55, register block store (44_index_memory.md R174). -/
  | ldMemVx (x : Nibble)
  /-- FX65, register block load (44_index_memory.md R175). -/
  | ldVxMem (x : Nibble)
  deriving DecidableEq, Repr

end Sys2Proof
end

