-- ==== Sys2Proof/Decode.lean ====
section
/-! DEFINITION. Decoding (30_encoding.md R70 to R82): the operand fields, the dispatch key by the leading-nibble masks,
the handler of a key, and after it the encoder, written from the patterns of the opcode map. -/

namespace Sys2Proof

/-- `X = w[11:8]` (30_encoding.md R71). -/
def fieldX (w : Word) : Nibble := (w.extractLsb' 8 4).toFin

/-- `Y = w[7:4]` (30_encoding.md R71). -/
def fieldY (w : Word) : Nibble := (w.extractLsb' 4 4).toFin

/-- `N = w[3:0]` (30_encoding.md R71). -/
def fieldN (w : Word) : Nibble := (w.extractLsb' 0 4).toFin

/-- `NN = w[7:0]` (30_encoding.md R71). -/
def fieldNN (w : Word) : Byte := w.extractLsb' 0 8

/-- `NNN = w[11:0]` (30_encoding.md R71). -/
def fieldNNN (w : Word) : Addr12 := w.extractLsb' 0 12

/-- `w[15:12]`, which selects the instruction class (30_encoding.md R71). -/
def leadingNibble (w : Word) : Nat := (w.extractLsb' 12 4).toNat

/-- The dispatch key: the word masked according to its leading nibble (30_encoding.md R75). -/
def decodeKey (w : Word) : Word :=
  match leadingNibble w with
  | 0x0 => w
  | 0x8 => w &&& 0xF00F#16
  | 0xE => w &&& 0xF0FF#16
  | 0xF => w &&& 0xF0FF#16
  | _ => w &&& 0xF000#16

/-- Why bytes are no instruction. -/
inductive DecodeReject where
  /-- Fewer than two bytes: an instruction is one 16-bit word (30_encoding.md R70). -/
  | truncated
  /-- The dispatch key has no handler in any configuration (30_encoding.md R81). -/
  | noHandler (key : Word)
  deriving DecidableEq, Repr

/-- The instruction a word stands for: its dispatch key selects the row of the opcode map, and the fields of the row's
format are read from the whole word (30_encoding.md R73, R75, R77, R79). -/
def decodeWord (w : Word) : Except DecodeReject Instr :=
  match (decodeKey w).toNat with
  | 0x00E0 => .ok .cls
  | 0x00EE => .ok .ret
  | 0x1000 => .ok (.jp (fieldNNN w))
  | 0x2000 => .ok (.call (fieldNNN w))
  | 0x3000 => .ok (.seImm (fieldX w) (fieldNN w))
  | 0x4000 => .ok (.sneImm (fieldX w) (fieldNN w))
  | 0x5000 => .ok (.seReg (fieldX w) (fieldY w) (fieldN w))
  | 0x6000 => .ok (.ldImm (fieldX w) (fieldNN w))
  | 0x7000 => .ok (.addImm (fieldX w) (fieldNN w))
  | 0x8000 => .ok (.ldReg (fieldX w) (fieldY w))
  | 0x8001 => .ok (.orReg (fieldX w) (fieldY w))
  | 0x8002 => .ok (.andReg (fieldX w) (fieldY w))
  | 0x8003 => .ok (.xorReg (fieldX w) (fieldY w))
  | 0x8004 => .ok (.addReg (fieldX w) (fieldY w))
  | 0x8005 => .ok (.subReg (fieldX w) (fieldY w))
  | 0x8006 => .ok (.shr (fieldX w) (fieldY w))
  | 0x8007 => .ok (.subn (fieldX w) (fieldY w))
  | 0x800E => .ok (.shl (fieldX w) (fieldY w))
  | 0x9000 => .ok (.sneReg (fieldX w) (fieldY w) (fieldN w))
  | 0xA000 => .ok (.ldI (fieldNNN w))
  | 0xB000 => .ok (.jpV0 (fieldNNN w))
  | 0xC000 => .ok (.rnd (fieldX w) (fieldNN w))
  | 0xD000 => .ok (.drw (fieldX w) (fieldY w) (fieldN w))
  | 0xE09E => .ok (.skp (fieldX w))
  | 0xE0A1 => .ok (.sknp (fieldX w))
  | 0xF007 => .ok (.ldVxDT (fieldX w))
  | 0xF00A => .ok (.ldVxK (fieldX w))
  | 0xF015 => .ok (.ldDTVx (fieldX w))
  | 0xF018 => .ok (.ldSTVx (fieldX w))
  | 0xF01E => .ok (.addI (fieldX w))
  | 0xF029 => .ok (.ldF (fieldX w))
  | 0xF033 => .ok (.ldB (fieldX w))
  | 0xF055 => .ok (.ldMemVx (fieldX w))
  | 0xF065 => .ok (.ldVxMem (fieldX w))
  | _ => .error (.noHandler (decodeKey w))

/-- A word from its two bytes, the high byte first (20_memory.md R56). -/
def wordOfBytes (hi lo : Byte) : Word := hi ++ lo

/-- The byte at the lower address of a stored word: the high byte (20_memory.md R56). -/
def highByte (w : Word) : Byte := w.extractLsb' 8 8

/-- The byte at the higher address of a stored word: the low byte (20_memory.md R56). -/
def lowByte (w : Word) : Byte := w.extractLsb' 0 8

/-- Decoding a byte stream: exactly two bytes make an instruction (30_encoding.md R70). The answer holds the rest. -/
def decodeBytes : List Byte → Except DecodeReject (Instr × List Byte)
  | hi :: lo :: rest =>
    match decodeWord (wordOfBytes hi lo) with
    | .ok i => .ok (i, rest)
    | .error e => .error e
  | _ => .error .truncated

/-- Format `NNN`: a leading nibble and a 12-bit address (30_encoding.md R73). -/
def wordNNN (op : BitVec 4) (nnn : Addr12) : Word := op ++ nnn

/-- Format `XNN`: a leading nibble, X and a byte (30_encoding.md R73). `XKK` has the same layout with a fixed byte. -/
def wordXNN (op : BitVec 4) (x : Nibble) (nn : Byte) : Word := op ++ BitVec.ofFin (w := 4) x ++ nn

/-- Format `XYN`: a leading nibble, X, Y and a last nibble (30_encoding.md R73). -/
def wordXYN (op : BitVec 4) (x y n : Nibble) : Word :=
  op ++ BitVec.ofFin (w := 4) x ++ BitVec.ofFin (w := 4) y ++ BitVec.ofFin (w := 4) n

/-- The word of an instruction, from the patterns of the opcode map (30_encoding.md R79). -/
def encode : Instr → Word
  | .cls => 0x00E0#16
  | .ret => 0x00EE#16
  | .jp nnn => wordNNN 0x1 nnn
  | .call nnn => wordNNN 0x2 nnn
  | .seImm x nn => wordXNN 0x3 x nn
  | .sneImm x nn => wordXNN 0x4 x nn
  | .seReg x y n => wordXYN 0x5 x y n
  | .ldImm x nn => wordXNN 0x6 x nn
  | .addImm x nn => wordXNN 0x7 x nn
  | .ldReg x y => wordXYN 0x8 x y 0x0
  | .orReg x y => wordXYN 0x8 x y 0x1
  | .andReg x y => wordXYN 0x8 x y 0x2
  | .xorReg x y => wordXYN 0x8 x y 0x3
  | .addReg x y => wordXYN 0x8 x y 0x4
  | .subReg x y => wordXYN 0x8 x y 0x5
  | .shr x y => wordXYN 0x8 x y 0x6
  | .subn x y => wordXYN 0x8 x y 0x7
  | .shl x y => wordXYN 0x8 x y 0xE
  | .sneReg x y n => wordXYN 0x9 x y n
  | .ldI nnn => wordNNN 0xA nnn
  | .jpV0 nnn => wordNNN 0xB nnn
  | .rnd x nn => wordXNN 0xC x nn
  | .drw x y n => wordXYN 0xD x y n
  | .skp x => wordXNN 0xE x 0x9E
  | .sknp x => wordXNN 0xE x 0xA1
  | .ldVxDT x => wordXNN 0xF x 0x07
  | .ldVxK x => wordXNN 0xF x 0x0A
  | .ldDTVx x => wordXNN 0xF x 0x15
  | .ldSTVx x => wordXNN 0xF x 0x18
  | .addI x => wordXNN 0xF x 0x1E
  | .ldF x => wordXNN 0xF x 0x29
  | .ldB x => wordXNN 0xF x 0x33
  | .ldMemVx x => wordXNN 0xF x 0x55
  | .ldVxMem x => wordXNN 0xF x 0x65

/-- The bytes of an instruction as memory holds them (20_memory.md R56). -/
def encodeBytes (i : Instr) : List Byte := [highByte (encode i), lowByte (encode i)]

/-- One row of the opcode map, as the table gives it: mask, match (the key) and whether the row is baseline
(30_encoding.md R79). -/
structure OpcodeRow where
  mask     : Word
  key      : Word
  baseline : Bool
  deriving DecidableEq, Repr

/-- The rows of the opcode map with leading nibbles 0 to 8 (30_encoding.md R79). -/
def opcodeMapLow : List OpcodeRow :=
  [⟨0xFFFF, 0x00E0, true⟩, ⟨0xFFFF, 0x00EE, true⟩, ⟨0xF000, 0x1000, true⟩, ⟨0xF000, 0x2000, true⟩] ++
  [⟨0xF000, 0x3000, false⟩, ⟨0xF000, 0x4000, false⟩, ⟨0xF000, 0x5000, false⟩, ⟨0xF000, 0x6000, true⟩] ++
  [⟨0xF000, 0x7000, true⟩, ⟨0xF00F, 0x8000, true⟩, ⟨0xF00F, 0x8001, true⟩, ⟨0xF00F, 0x8002, true⟩] ++
  [⟨0xF00F, 0x8003, true⟩, ⟨0xF00F, 0x8004, true⟩, ⟨0xF00F, 0x8005, true⟩, ⟨0xF00F, 0x8006, false⟩] ++
  [⟨0xF00F, 0x8007, true⟩, ⟨0xF00F, 0x800E, false⟩]

/-- The rows of the opcode map with leading nibbles 9 to F (30_encoding.md R79). -/
def opcodeMapHigh : List OpcodeRow :=
  [⟨0xF000, 0x9000, false⟩, ⟨0xF000, 0xA000, true⟩, ⟨0xF000, 0xB000, false⟩, ⟨0xF000, 0xC000, false⟩] ++
  [⟨0xF000, 0xD000, true⟩, ⟨0xF0FF, 0xE09E, true⟩, ⟨0xF0FF, 0xE0A1, true⟩, ⟨0xF0FF, 0xF007, true⟩] ++
  [⟨0xF0FF, 0xF00A, true⟩, ⟨0xF0FF, 0xF015, true⟩, ⟨0xF0FF, 0xF018, true⟩, ⟨0xF0FF, 0xF01E, true⟩] ++
  [⟨0xF0FF, 0xF029, false⟩, ⟨0xF0FF, 0xF033, false⟩, ⟨0xF0FF, 0xF055, false⟩, ⟨0xF0FF, 0xF065, false⟩]

/-- The opcode map (30_encoding.md R79). -/
def opcodeMap : List OpcodeRow := opcodeMapLow ++ opcodeMapHigh

/-- The handler set of a configuration: `H_BASE`, or `H_BASE ∪ H_EXT` with `EXT_OPS = true` (30_encoding.md R76). -/
def handlerSet (extOps : Bool) : List Word :=
  (opcodeMap.filter fun r => r.baseline || extOps).map OpcodeRow.key

/-- The instruction this decoder reads from an instruction word laid out as the hardware stores it: a row of the opcode
table has 16 bits, so bits above 15 are 0, and the word's high byte comes first (20_memory.md R56). -/
def decodeTableWord (nbits w : Nat) : Option Instr :=
  let word : Word := BitVec.ofNat 16 (w % 2 ^ nbits)
  match decodeBytes [highByte word, lowByte word] with
  | .ok (i, _) => some i
  | .error _ => none

end Sys2Proof
end

