-- ==== Sys2Proof/Config.lean ====
section
/-! DEFINITION. What one machine fixes: the constants of the parameter table (00_scope.md R6), the parameters an
instance is constructed with, and the model's one free value, the random oracle. -/

namespace Sys2Proof

/-- `MEM_SIZE`: 4096 bytes, addresses 0x000 to 0xFFF (00_scope.md R6). -/
def Config.memSize : Nat := 0x1000

/-- `FONT_BASE` (00_scope.md R6). -/
def Config.fontBase : Nat := 0x050

/-- `ROM_BASE`, which is also the entry point of every run (00_scope.md R6, 70_reset_and_hazards.md R254). -/
def Config.romBase : Nat := 0x200

/-- `ROM_MAX`, 3584 bytes (00_scope.md R6). -/
def Config.romMax : Nat := Config.memSize - Config.romBase

/-- The default of `CPS`: 700 cycles per second (00_scope.md R6). -/
def Config.defaultCps : Rat := { num := 700, den := 1, den_nz := by decide, reduced := by decide }

/-- `spc` at the default rate, 1/700 of a second, written out so that it evaluates (10_state.md R31). -/
def Config.defaultSpc : Rat := { num := 1, den := 700, den_nz := by decide, reduced := by decide }

/-- The number of font bytes: 16 glyphs of 5 (20_memory.md R52). -/
def Config.fontSize : Nat := 80

/-- The default `FONT`, glyphs 0 to 7. PRESUMED by the spec itself (its general-knowledge passage B1): log 18. -/
def Config.fontLow : List Byte :=
  [0xF0, 0x90, 0x90, 0x90, 0xF0] ++ [0x20, 0x60, 0x20, 0x20, 0x70] ++
  [0xF0, 0x10, 0xF0, 0x80, 0xF0] ++ [0xF0, 0x10, 0xF0, 0x10, 0xF0] ++
  [0x90, 0x90, 0xF0, 0x10, 0x10] ++ [0xF0, 0x80, 0xF0, 0x10, 0xF0] ++
  [0xF0, 0x80, 0xF0, 0x90, 0xF0] ++ [0xF0, 0x10, 0x20, 0x40, 0x40]

/-- The default `FONT`, glyphs 8 to F (log 18). -/
def Config.fontHigh : List Byte :=
  [0xF0, 0x90, 0xF0, 0x90, 0xF0] ++ [0xF0, 0x90, 0xF0, 0x10, 0xF0] ++
  [0xF0, 0x90, 0xF0, 0x90, 0x90] ++ [0xE0, 0x90, 0xE0, 0x90, 0xE0] ++
  [0xF0, 0x80, 0x80, 0x80, 0xF0] ++ [0xE0, 0x90, 0x90, 0x90, 0xE0] ++
  [0xF0, 0x80, 0xF0, 0x80, 0xF0] ++ [0xF0, 0x80, 0xF0, 0x80, 0x80]

/-- The default `FONT` of 20_memory.md R52. -/
def Config.defaultFont : List Byte := Config.fontLow ++ Config.fontHigh

/-- `RNG`, the random oracle of CXNN (00_scope.md R6, 43_alu.md R152): the byte of the n-th draw. A free value: it has
no body, so a claim about it holds for every sequence of draws (log 5). -/
opaque Config.rng : Nat → Byte

/-- `DISPLAY_MODE` (00_scope.md R6, 10_state.md R29). -/
inductive DisplayMode where
  | std
  | ext
  deriving DecidableEq, Repr

/-- `SHIFT_SRC` (00_scope.md R6, 43_alu.md R150). -/
inductive ShiftSrc where
  | vy
  | vx
  deriving DecidableEq, Repr

/-- `JUMP_OFFSET_MODE` (00_scope.md R6, 42_control_flow.md R127). -/
inductive JumpOffset where
  | v0
  | vx
  deriving DecidableEq, Repr

/-- `DRAW_EDGE` (00_scope.md R6, 41_display.md R102). -/
inductive DrawEdge where
  | fault
  | wrap
  | clip
  deriving DecidableEq, Repr

/-- The parameters an instance is constructed with, fixed from then on (00_scope.md R6, 10_state.md R33). They stand in
State so that every claim about every state is a claim about every configuration (log 1). -/
structure Params where
  displayMode : DisplayMode
  stackDepth  : Nat
  font        : List Byte
  timerTick   : Rat
  extOps      : Bool
  shiftSrc    : ShiftSrc
  jumpOffset  : JumpOffset
  ldstIncI    : Bool
  fx1eSetsVF  : Bool
  drawEdge    : DrawEdge
  deriving DecidableEq, Repr

/-- The defaults of 00_scope.md R6. The three OPEN parameters have none: the values here are a DESIGN CHOICE, and no
cycle reads them while `extOps` is false (log 1). -/
def Params.default : Params where
  displayMode := .std
  stackDepth  := 16
  font        := Config.defaultFont
  timerTick   := 1
  extOps      := false
  shiftSrc    := .vy
  jumpOffset  := .v0
  ldstIncI    := false
  fx1eSetsVF  := false
  drawEdge    := .fault

/-- W, the display width in cells (00_scope.md R6). -/
def Params.width (p : Params) : Nat :=
  match p.displayMode with
  | .std => 64
  | .ext => 128

/-- H, the display height in cells (00_scope.md R6). -/
def Params.height (p : Params) : Nat :=
  match p.displayMode with
  | .std => 32
  | .ext => 64

end Sys2Proof
end

