-- ==== Sys2Proof/Machine/State.lean ====
section
/-! DEFINITION. The state of one instance, as plain data, with every item 10_state.md gives it, the fault records, the
reasons a call can stop, and the state right after construction with an empty ROM. -/

namespace Sys2Proof.Machine

/-- The eight fault kinds (60_exceptions.md R210). -/
inductive FaultKind where
  | load
  | fetch
  | dispatch
  | stackUnderflow
  | stackOverflow
  | memory
  | keyIndex
  | drawEdge
  deriving DecidableEq, Repr

/-- The kind-specific value of a fault record (60_exceptions.md R211). -/
inductive FaultInfo where
  /-- No value. -/
  | none
  /-- The address a MemoryFault names. -/
  | address (addr : Nat)
  /-- The index of a KeyIndexFault. -/
  | index (k : Byte)
  /-- The off-display cell of a DrawEdgeFault. -/
  | cell (x y : Nat)
  /-- The ROM length of a LoadFault. -/
  | length (n : Nat)
  deriving DecidableEq, Repr

/-- A fault record (60_exceptions.md R211): the kind, the address of the instruction, its word, and the info. -/
structure FaultRecord where
  kind : FaultKind
  addr : Option Word
  word : Option Word
  info : FaultInfo
  deriving DecidableEq, Repr

/-- The memory array (20_memory.md R50): address and byte pairs, addresses strictly rising, no entry equal to what an
unlisted address reads as (log 16). -/
abbrev Memory := List Host.Cell

/-- The display cells that are on (10_state.md R29): the row-major element numbers `y * W + x`, strictly rising
(log 15). -/
abbrev Display := List Nat

/-- Everything the spec gives one instance (10_state.md R20 to R33). Field names are the spec's. -/
structure State where
  /-- The construction parameters, which nothing changes (10_state.md R33, log 1). -/
  params   : Params
  /-- The memory array (20_memory.md R50). -/
  mem      : Memory
  /-- V0 to VF (10_state.md R20). -/
  V        : Vector Byte 16
  /-- The index register (10_state.md R24). -/
  I        : Word
  /-- The program counter (10_state.md R25). -/
  pc       : Word
  /-- The call stack, top first (10_state.md R27). -/
  stack    : List Word
  /-- The delay timer (10_state.md R28). -/
  DT       : Byte
  /-- The sound timer (10_state.md R28). -/
  ST       : Byte
  /-- The display (10_state.md R29). -/
  disp     : Display
  /-- The keypad: true is pressed (10_state.md R30). -/
  keys     : Vector Bool 16
  /-- Seconds accumulated toward the next timer tick (10_state.md R31). -/
  timerAcc : Rat
  /-- Seconds accumulated since the last executed cycle (10_state.md R31). -/
  cycleAcc : Rat
  /-- Seconds per cycle (10_state.md R31). -/
  spc      : Rat
  /-- Set by a fatal fault (10_state.md R32). -/
  halted   : Bool
  /-- The fatal fault that set `halted` (10_state.md R32). -/
  fault    : Option FaultRecord
  /-- The logged faults, oldest first (10_state.md R32). -/
  log      : List FaultRecord
  /-- Written by the host only (10_state.md R32). -/
  paused   : Bool
  /-- The model's own: how many draws the RNG oracle has given (log 5). -/
  rngDraws : Nat
  deriving DecidableEq, Repr

/-- Why a host call has no step. The spec's own faults are not here: each is a next state (60_exceptions.md R212, R213,
log 7). -/
inductive Fault where
  /-- `Update` with a negative `dt`, which the spec gives no step (60_exceptions.md R220, U20). Raised by the `Update`
  transaction only, never by a cycle. Safe: the model stops where the spec has no step. -/
  | negativeDeltaTime
  deriving DecidableEq, Repr

/-- Why an instruction has no meaning in the model. -/
inductive Refusal where
  /-- The instruction is not modelled. Raised by no arm: every instruction has its meaning. Safe. -/
  | notModelled (mnemonic : String)
  deriving DecidableEq, Repr

/-- What one cycle answers. -/
abbrev Result := Host.Outcome State Fault Refusal

/-- The OPEN power-on values (10_state.md R35, 00_scope.md R6 `POWER_ON`). -/
structure PowerOn where
  V    : Vector Byte 16
  I    : Word
  DT   : Byte
  ST   : Byte
  disp : Display
  deriving DecidableEq, Repr

/-- `ZeroedAtPowerOn` (70_reset_and_hazards.md R250): all zero and the display off, which a deterministic simulator
takes (DESIGN CHOICE at reset, logs 2 to 4). -/
def PowerOn.zeroed : PowerOn where
  V    := Vector.replicate 16 0
  I    := 0
  DT   := 0
  ST   := 0
  disp := []

/-- The machine right after reset: `Construct` with an empty ROM at 700 cycles per second, the default parameters and
zeroed power-on values (10_state.md R35, 70_reset_and_hazards.md R250 and R251; logs 1 to 5 and 8). -/
def State.reset : State where
  params   := Params.default
  mem      := []
  V        := PowerOn.zeroed.V
  I        := PowerOn.zeroed.I
  pc       := 0x200
  stack    := []
  DT       := PowerOn.zeroed.DT
  ST       := PowerOn.zeroed.ST
  disp     := PowerOn.zeroed.disp
  keys     := Vector.replicate 16 false
  timerAcc := 0
  cycleAcc := 0
  spc      := Config.defaultSpc
  halted   := false
  fault    := none
  log      := []
  paused   := false
  rngDraws := 0

end Sys2Proof.Machine
end

