-- ==== Sys2Proof/Machine/Ops.lean ====
section
/-! DEFINITION. The named operations over memory, registers, stack, display and status, and the two ways a cycle
reports a fault, each written once. -/

namespace Sys2Proof.Machine

/-! ### Memory (20_memory.md) -/

/-- What an unlisted address reads as: the default font at 0x050 to 0x09F, zero elsewhere (20_memory.md R51, log 16). -/
def Memory.unlisted (a : Nat) : Byte :=
  if Config.fontBase ≤ a then (Config.defaultFont[a - Config.fontBase]?).getD 0 else 0

/-- The byte at an address. -/
def Memory.read : Memory → Nat → Byte
  | [], a => Memory.unlisted a
  | (b, v) :: rest, a => if a = b then v else Memory.read rest a

/-- The list with address `a` holding `v`: the entry goes when `v` is what the unlisted address reads as. -/
def Memory.write : Memory → Nat → Byte → Memory
  | [], a, v => if v = Memory.unlisted a then [] else [(a, v)]
  | (b, u) :: rest, a, v =>
    if a < b then (if v = Memory.unlisted a then (b, u) :: rest else (a, v) :: (b, u) :: rest)
    else if a = b then (if v = Memory.unlisted a then rest else (b, v) :: rest)
    else (b, u) :: Memory.write rest a v

/-- The bytes stored one after another from an address up. -/
def Memory.writeBytes : Memory → Nat → List Byte → Memory
  | m, _, [] => m
  | m, a, v :: vs => Memory.writeBytes (Memory.write m a v) (a + 1) vs

/-- Addresses strictly rising from a bound on, each in the array and each entry different from the unlisted byte. -/
def Memory.wfFrom : Nat → Memory → Bool
  | _, [] => true
  | lo, (a, v) :: rest =>
    decide (lo ≤ a) && decide (a < Config.memSize) && (v != Memory.unlisted a) && Memory.wfFrom (a + 1) rest

/-- The canonical form of memory, so that equal memories are equal data. -/
def Memory.wf (m : Memory) : Bool := Memory.wfFrom 0 m

/-- `MemRead(addr, n)` for `n ≥ 1` (20_memory.md R54): the bytes, lowest address first, or the address a MemoryFault
names, with no wrap. -/
def memRead (m : Memory) (addr n : Nat) : Except Nat (List Byte) :=
  if addr + n - 1 > Config.memSize - 1 then .error (max addr Config.memSize)
  else .ok ((List.range n).map fun k => m.read (addr + k))

/-- `MemWrite(addr, n, v)` for the given bytes, most significant first (20_memory.md R55): the whole range is checked
before the first byte is written. The error is the address a MemoryFault names (log 10). -/
def memWrite (m : Memory) (addr : Nat) (bytes : List Byte) : Except Nat Memory :=
  if addr < Config.romBase ∨ addr + bytes.length - 1 > Config.memSize - 1 then .error addr
  else .ok (m.writeBytes addr bytes)

/-! ### Variable registers (10_state.md R20) -/

/-- `V[x]`. -/
def State.readV (s : State) (x : Nibble) : Byte := s.V[x]

/-- `V[x] <- b`. -/
def State.writeV (s : State) (x : Nibble) (b : Byte) : State := { s with V := s.V.set x b }

/-- The number of VF, which is an ordinary register and the flag register (10_state.md R21). -/
def regVF : Nibble := 0xF

/-- VF written as a flag, 1 or 0 (10_state.md R23). -/
def State.writeFlag (s : State) (c : Bool) : State := s.writeV regVF (if c then 1 else 0)

/-- V0 to V[k-1], lowest first. -/
def State.lowRegs (s : State) (k : Nat) : List Byte := s.V.toList.take k

/-- Every register with a byte in the list takes it, V0 first. The others keep their value. -/
def State.loadRegs (s : State) (bytes : List Byte) : State :=
  { s with V := Vector.ofFn fun k : Fin 16 => (bytes[k.val]?).getD s.V[k] }

/-! ### Index register, program counter, timers -/

/-- `I <- a` (10_state.md R24). -/
def State.setI (s : State) (a : Word) : State := { s with I := a }

/-- `pc <- a` (10_state.md R25). -/
def State.setPc (s : State) (a : Word) : State := { s with pc := a }

/-- `DT <- b` (10_state.md R28). -/
def State.setDT (s : State) (b : Byte) : State := { s with DT := b }

/-- `ST <- b` (10_state.md R28). -/
def State.setST (s : State) (b : Byte) : State := { s with ST := b }

/-- The address the running instruction was fetched from: `pc` is 2 past it when a handler runs (10_state.md R25). -/
def State.instrAddr (s : State) : Word := s.pc - 2

/-- A skip adds 2 to `pc` when its condition holds (42_control_flow.md R119). -/
def State.skipIf (s : State) (c : Bool) : State := if c then s.setPc (s.pc + 2) else s

/-! ### Call stack (10_state.md R27) -/

/-- The stack holds `STACK_DEPTH` entries. -/
def State.stackFull (s : State) : Bool := decide (s.params.stackDepth ≤ s.stack.length)

/-- `push(v)`. -/
def State.push (s : State) (a : Word) : State := { s with stack := a :: s.stack }

/-! ### Display (10_state.md R29) -/

/-- The row-major element number of the cell in column `x`, row `y`. -/
def cellIndex (p : Params) (x y : Nat) : Nat := y * p.width + x

/-- One cell flipped. -/
def Display.toggle : Display → Nat → Display
  | [], k => [k]
  | j :: rest, k => if k < j then k :: j :: rest else if k = j then rest else j :: Display.toggle rest k

/-- `disp[x, y]` of `W x H` cells. -/
def State.cell (s : State) (x y : Nat) : Bool := s.disp.contains (cellIndex s.params x y)

/-- Strictly rising from a bound on and all below another. -/
def Display.wfFrom : Nat → Nat → Display → Bool
  | _, _, [] => true
  | lo, hi, k :: rest => decide (lo ≤ k) && decide (k < hi) && Display.wfFrom (k + 1) hi rest

/-- The canonical form of the display: rising element numbers, all on the display. -/
def Display.wf (p : Params) (d : Display) : Bool := Display.wfFrom 0 (p.width * p.height) d

/-- The pixel loop of a draw over the cells to toggle, in order: the display after it and whether some cell was on
(41_display.md R101, R103). -/
def Display.drawCells : Display → List Nat → Display × Bool
  | d, [] => (d, false)
  | d, k :: ks =>
    let (d', hit) := Display.drawCells (Display.toggle d k) ks
    (d', d.contains k || hit)

/-! ### Taking a fault (60_exceptions.md R210 to R216) -/

/-- `code` (60_exceptions.md R210). -/
def FaultKind.code : FaultKind → Nat
  | .load => 1
  | .fetch => 2
  | .dispatch => 3
  | .stackUnderflow => 4
  | .stackOverflow => 5
  | .memory => 6
  | .keyIndex => 7
  | .drawEdge => 8

/-- Taking a fatal fault (60_exceptions.md R212): the record is stored, `halted` is set, nothing else changes. `pc`
keeps what the fetch left. There is no return from it: only a successful `LoadROM` clears it (R217). -/
def State.takeFatal (s : State) (r : FaultRecord) : State := { s with halted := true, fault := some r }

/-- Taking a logged fault (60_exceptions.md R213): the record is appended to `log`, nothing else changes. -/
def State.takeLogged (s : State) (r : FaultRecord) : State := { s with log := s.log ++ [r] }

/-- A handler raises a fatal fault: the record names the instruction's address and word (60_exceptions.md R211,
log 9). -/
def raise (kind : FaultKind) (info : FaultInfo) (i : Instr) (s : State) : Result :=
  .next (s.takeFatal { kind, addr := some s.instrAddr, word := some (encode i), info })

/-- Dispatch raises DispatchFault on a word, `pc` already past it (30_encoding.md R77, 60_exceptions.md R213). -/
def dispatchFault (w : Word) (s : State) : Result :=
  .next (s.takeLogged { kind := .dispatch, addr := some s.instrAddr, word := some w, info := .none })

/-- Fetch raises FetchFault: `pc` stays, the record holds the `pc` that could not be fetched (30_encoding.md R74). -/
def fetchFault (s : State) : Result :=
  .next (s.takeFatal { kind := .fetch, addr := some s.pc, word := none, info := .none })

/-- An extension runs its handler only with `EXT_OPS = true`. Otherwise its word has no handler and raises
DispatchFault (00_scope.md R5, 30_encoding.md R76 and R77, log 11). -/
def extension (i : Instr) (s : State) (handler : Result) : Result :=
  if s.params.extOps then handler else dispatchFault (encode i) s

/-! ### Fetch (30_encoding.md R74) -/

/-- The word at `pc`, big-endian, or nothing when `pc + 1` is outside the array. -/
def fetchWord (s : State) : Option Word :=
  if s.pc.toNat + 1 > Config.memSize - 1 then none
  else some (wordOfBytes (s.mem.read s.pc.toNat) (s.mem.read (s.pc.toNat + 1)))

/-- Fetch advances `pc` by 2 before the instruction is interpreted (10_state.md R25). -/
def State.advancePc (s : State) : State := s.setPc (s.pc + 2)

end Sys2Proof.Machine
end

