-- ==== Sys2Proof/Machine/Operands.lean ====
section
/-! DEFINITION. The operand forms: the sources a parameter selects, the key an index names, the byte digits, and the
sprite of a draw, from its bytes to the cells it toggles. -/

namespace Sys2Proof.Machine

/-- The source of a shift, per `SHIFT_SRC` (43_alu.md R150). -/
def State.shiftSource (s : State) (x y : Nibble) : Byte :=
  match s.params.shiftSrc with
  | .vy => s.readV y
  | .vx => s.readV x

/-- NNN zero-extended to 16 bits (30_encoding.md R72). -/
def zext16 (nnn : Addr12) : Word := nnn.setWidth 16

/-- The register whose value BNNN adds, per `JUMP_OFFSET_MODE`: V0, or V[X] with X the top nibble of NNN
(42_control_flow.md R127). -/
def State.jumpOffsetValue (s : State) (nnn : Addr12) : Byte :=
  match s.params.jumpOffset with
  | .v0 => s.readV 0
  | .vx => s.readV (nnn.extractLsb' 8 4).toFin

/-- The keypad entry a register value names, or nothing above 0x0F (45_keys_timers.md R190). -/
def State.keyOf (s : State) (k : Byte) : Option Bool := s.keys[k.toNat]?

/-- The lowest pressed key (45_keys_timers.md R196). -/
def State.firstKey (s : State) : Option Nibble := (List.finRange 16).find? fun k => s.keys[k]

/-- The hundreds, tens and units digits of a byte, in that order (44_index_memory.md R173). -/
def bcdDigits (v : Byte) : List Byte :=
  [BitVec.ofNat 8 (v.toNat / 100), BitVec.ofNat 8 (v.toNat / 10 % 10), BitVec.ofNat 8 (v.toNat % 10)]

/-- The address of the font glyph for the low nibble of a byte (44_index_memory.md R172). -/
def glyphAddr (v : Byte) : Word := BitVec.ofNat 16 (Config.fontBase + 5 * (v &&& 0x0F).toNat)

/-- I after FX55 or FX65 with `k` registers moved, per `LDST_INC_I` (44_index_memory.md R174, R175). -/
def State.advanceI (s : State) (k : Nat) : State :=
  if s.params.ldstIncI then s.setI (s.I + BitVec.ofNat 16 k) else s

/-! ### Sprites (41_display.md R101) -/

/-- The sprite bytes: `N` bytes at I, none when `N = 0`, or the address a MemoryFault names. -/
def State.spriteRows (s : State) (n : Nibble) : Except Nat (List Byte) :=
  if n.val = 0 then .ok [] else memRead s.mem s.I.toNat n.val

/-- The columns of a row byte whose bit is set. Bit 7 is column 0, the leftmost (log 19). -/
def rowColumns (b : Byte) : List Nat := (List.range 8).filter fun c => b.getLsbD (7 - c)

/-- The unwrapped positions of the set pixels, row by row from `y`, left to right from `x0`. -/
def spritePixels (x0 : Nat) : Nat → List Byte → List (Nat × Nat)
  | _, [] => []
  | y, b :: rest => (rowColumns b).map (fun c => (x0 + c, y)) ++ spritePixels x0 (y + 1) rest

/-- An unwrapped position is on the display. -/
def onDisplay (p : Params) (q : Nat × Nat) : Bool := decide (q.1 < p.width) && decide (q.2 < p.height)

/-- The cells a draw toggles, as element numbers in order, per `DRAW_EDGE`, or the first off-display position under
`FAULT` (41_display.md R101, R102). -/
def placePixels (p : Params) : List (Nat × Nat) → Except (Nat × Nat) (List Nat)
  | [] => .ok []
  | q :: rest =>
    if onDisplay p q then (placePixels p rest).map (cellIndex p q.1 q.2 :: ·)
    else
      match p.drawEdge with
      | .fault => .error q
      | .wrap => (placePixels p rest).map (cellIndex p (q.1 % p.width) (q.2 % p.height) :: ·)
      | .clip => placePixels p rest

/-- `x0`, the origin column: V[X] mod W. -/
def State.originX (s : State) (x : Nibble) : Nat := (s.readV x).toNat % s.params.width

/-- `y0`, the origin row: V[Y] mod H. -/
def State.originY (s : State) (y : Nibble) : Nat := (s.readV y).toNat % s.params.height

end Sys2Proof.Machine
end

