-- ==== Sys2Proof/Machine/Alu.lean ====
section
/-! DEFINITION. The register and ALU family: 6XNN, 7XNN, 8XY0 to 8XYE, CXNN (43_alu.md R140 to R153). Sources are read
first, V[X] is written next and VF last, so with X = F the flag wins (43_alu.md R140). -/

namespace Sys2Proof.Machine

/-- V[X] written with a result and then VF with a flag, both computed before (43_alu.md R140). -/
def State.writeWithFlag (s : State) (x : Nibble) (b : Byte) (c : Bool) : State := (s.writeV x b).writeFlag c

/-- 6XNN, load immediate (43_alu.md R141). -/
def execLdImm (x : Nibble) (nn : Byte) (s : State) : Result := .next (s.writeV x nn)

/-- 7XNN, add immediate, no flag (43_alu.md R142). -/
def execAddImm (x : Nibble) (nn : Byte) (s : State) : Result := .next (s.writeV x (s.readV x + nn))

/-- 8XY0, copy (43_alu.md R143). -/
def execLdReg (x y : Nibble) (s : State) : Result := .next (s.writeV x (s.readV y))

/-- 8XY1, OR (43_alu.md R144). -/
def execOrReg (x y : Nibble) (s : State) : Result := .next (s.writeV x (s.readV x ||| s.readV y))

/-- 8XY2, AND (43_alu.md R145). -/
def execAndReg (x y : Nibble) (s : State) : Result := .next (s.writeV x (s.readV x &&& s.readV y))

/-- 8XY3, XOR (43_alu.md R146). -/
def execXorReg (x y : Nibble) (s : State) : Result := .next (s.writeV x (s.readV x ^^^ s.readV y))

/-- 8XY4, add with carry (43_alu.md R147). -/
def execAddReg (x y : Nibble) (s : State) : Result :=
  .next (s.writeWithFlag x (s.readV x + s.readV y) (carryFlag (s.readV x) (s.readV y)))

/-- 8XY5, subtract (43_alu.md R148). -/
def execSubReg (x y : Nibble) (s : State) : Result :=
  .next (s.writeWithFlag x (s.readV x - s.readV y) (noBorrowFlag (s.readV x) (s.readV y)))

/-- 8XY7, subtract reversed (43_alu.md R149). -/
def execSubn (x y : Nibble) (s : State) : Result :=
  .next (s.writeWithFlag x (s.readV y - s.readV x) (noBorrowFlag (s.readV y) (s.readV x)))

/-- 8XY6, shift right by one (43_alu.md R150). -/
def execShr (x y : Nibble) (s : State) : Result :=
  extension (.shr x y) s
    (.next (s.writeWithFlag x (s.shiftSource x y >>> 1) (shiftOutRight (s.shiftSource x y))))

/-- 8XYE, shift left by one (43_alu.md R151). -/
def execShl (x y : Nibble) (s : State) : Result :=
  extension (.shl x y) s
    (.next (s.writeWithFlag x (s.shiftSource x y <<< 1) (shiftOutLeft (s.shiftSource x y))))

/-- CXNN, random (43_alu.md R152): the next draw of the oracle, a free value, ANDed with NN (log 5). -/
def execRnd (x : Nibble) (nn : Byte) (s : State) : Result :=
  extension (.rnd x nn) s
    (.next ({ s with rngDraws := s.rngDraws + 1 }.writeV x (Config.rng s.rngDraws &&& nn)))

end Sys2Proof.Machine
end

