-- ==== Sys2Proof/Machine/Control.lean ====
section
/-! DEFINITION. The control-flow family: 00EE, 1NNN, 2NNN, 3XNN, 4XNN, 5XYN, 9XYN, BNNN (42_control_flow.md R119 to
R127). When a meaning runs, `pc` is already 2 past the instruction (10_state.md R25). -/

namespace Sys2Proof.Machine

/-- 00EE, return (42_control_flow.md R120). -/
def execRet (s : State) : Result :=
  match s.stack with
  | [] => raise .stackUnderflow .none .ret s
  | a :: rest => .next ({ s with stack := rest }.setPc a)

/-- 1NNN, jump (42_control_flow.md R121). -/
def execJp (nnn : Addr12) (s : State) : Result := .next (s.setPc (zext16 nnn))

/-- 2NNN, call (42_control_flow.md R122). -/
def execCall (nnn : Addr12) (s : State) : Result :=
  if s.stackFull then raise .stackOverflow .none (.call nnn) s
  else .next ((s.push s.pc).setPc (zext16 nnn))

/-- 3XNN, skip if equal to immediate (42_control_flow.md R123). -/
def execSeImm (x : Nibble) (nn : Byte) (s : State) : Result :=
  extension (.seImm x nn) s (.next (s.skipIf (s.readV x == nn)))

/-- 4XNN, skip if not equal to immediate (42_control_flow.md R124). -/
def execSneImm (x : Nibble) (nn : Byte) (s : State) : Result :=
  extension (.sneImm x nn) s (.next (s.skipIf (s.readV x != nn)))

/-- 5XYN, skip if registers equal (42_control_flow.md R125). -/
def execSeReg (x y ignored : Nibble) (s : State) : Result :=
  extension (.seReg x y ignored) s (.next (s.skipIf (s.readV x == s.readV y)))

/-- 9XYN, skip if registers differ (42_control_flow.md R126). -/
def execSneReg (x y ignored : Nibble) (s : State) : Result :=
  extension (.sneReg x y ignored) s (.next (s.skipIf (s.readV x != s.readV y)))

/-- BNNN, jump with offset (42_control_flow.md R127). -/
def execJpV0 (nnn : Addr12) (s : State) : Result :=
  extension (.jpV0 nnn) s (.next (s.setPc (zext16 nnn + (s.jumpOffsetValue nnn).setWidth 16)))

end Sys2Proof.Machine
end

