-- ==== Sys2Proof/Machine/DisplayOps.lean ====
section
/-! DEFINITION. The display family: 00E0 and DXYN (41_display.md R100 to R104). -/

namespace Sys2Proof.Machine

/-- 00E0, clear screen (41_display.md R100). -/
def execCls (s : State) : Result := .next { s with disp := [] }

/-- A draw's effect once its cells are known: each is flipped, and VF receives the collision
(41_display.md R101, R103). -/
def State.draw (s : State) (cells : List Nat) : State :=
  let r := Display.drawCells s.disp cells
  { s with disp := r.1 }.writeFlag r.2

/-- DXYN, draw sprite (41_display.md R101): the sprite range is checked first, then the edge, then cells and VF are
written. -/
def execDrw (x y n : Nibble) (s : State) : Result :=
  match s.spriteRows n with
  | .error a => raise .memory (.address a) (.drw x y n) s
  | .ok rows =>
    match placePixels s.params (spritePixels (s.originX x) (s.originY y) rows) with
    | .error (px, py) => raise .drawEdge (.cell px py) (.drw x y n) s
    | .ok cells => .next (s.draw cells)

end Sys2Proof.Machine
end

