-- ==== Sys2Proof/Machine/IndexMem.lean ====
section
/-! DEFINITION. The index and memory family: ANNN, FX1E, FX29, FX33, FX55, FX65 (44_index_memory.md R170 to R175). -/

namespace Sys2Proof.Machine

/-- ANNN, load index (44_index_memory.md R170). -/
def execLdI (nnn : Addr12) (s : State) : Result := .next (s.setI (zext16 nnn))

/-- FX1E, add to index (44_index_memory.md R171). -/
def execAddI (x : Nibble) (s : State) : Result :=
  let s' := s.setI (s.I + (s.readV x).setWidth 16)
  .next (if s.params.fx1eSetsVF then s'.writeFlag (indexOverflowFlag s.I (s.readV x)) else s')

/-- FX29, font lookup (44_index_memory.md R172). -/
def execLdF (x : Nibble) (s : State) : Result :=
  extension (.ldF x) s (.next (s.setI (glyphAddr (s.readV x))))

/-- FX33, BCD conversion (44_index_memory.md R173). -/
def execLdB (x : Nibble) (s : State) : Result :=
  extension (.ldB x) s
    (match memWrite s.mem s.I.toNat (bcdDigits (s.readV x)) with
    | .error a => raise .memory (.address a) (.ldB x) s
    | .ok m => .next { s with mem := m })

/-- FX55, register block store (44_index_memory.md R174). -/
def execLdMemVx (x : Nibble) (s : State) : Result :=
  extension (.ldMemVx x) s
    (match memWrite s.mem s.I.toNat (s.lowRegs (x.val + 1)) with
    | .error a => raise .memory (.address a) (.ldMemVx x) s
    | .ok m => .next ({ s with mem := m }.advanceI (x.val + 1)))

/-- FX65, register block load (44_index_memory.md R175). -/
def execLdVxMem (x : Nibble) (s : State) : Result :=
  extension (.ldVxMem x) s
    (match memRead s.mem s.I.toNat (x.val + 1) with
    | .error a => raise .memory (.address a) (.ldVxMem x) s
    | .ok bytes => .next ((s.loadRegs bytes).advanceI (x.val + 1)))

end Sys2Proof.Machine
end

