-- ==== Sys2Proof/Machine/KeysTimers.lean ====
section
/-! DEFINITION. The keypad and timer family: EX9E, EXA1, FX07, FX15, FX18, FX0A (45_keys_timers.md R190 to R196). -/

namespace Sys2Proof.Machine

/-- EX9E, skip if key pressed (45_keys_timers.md R190, R191). -/
def execSkp (x : Nibble) (s : State) : Result :=
  match s.keyOf (s.readV x) with
  | none => raise .keyIndex (.index (s.readV x)) (.skp x) s
  | some pressed => .next (s.skipIf pressed)

/-- EXA1, skip if key not pressed (45_keys_timers.md R190, R192). -/
def execSknp (x : Nibble) (s : State) : Result :=
  match s.keyOf (s.readV x) with
  | none => raise .keyIndex (.index (s.readV x)) (.sknp x) s
  | some pressed => .next (s.skipIf (!pressed))

/-- FX07, read the delay timer (45_keys_timers.md R193). -/
def execLdVxDT (x : Nibble) (s : State) : Result := .next (s.writeV x s.DT)

/-- FX15, write the delay timer (45_keys_timers.md R194). -/
def execLdDTVx (x : Nibble) (s : State) : Result := .next (s.setDT (s.readV x))

/-- FX18, write the sound timer (45_keys_timers.md R195). -/
def execLdSTVx (x : Nibble) (s : State) : Result := .next (s.setST (s.readV x))

/-- FX0A, wait for a key (45_keys_timers.md R196): with none pressed `pc` goes back to this instruction, else V[X]
takes the lowest pressed key. -/
def execLdVxK (x : Nibble) (s : State) : Result :=
  match s.firstKey with
  | none => .next (s.setPc (s.pc - 2))
  | some k => .next (s.writeV x (BitVec.ofNat 8 k.val))

end Sys2Proof.Machine
end

