-- ==== Sys2Proof/Machine/Step.lean ====
section
/-! DEFINITION. One cycle, `Process()` (30_encoding.md R78), and where the next instruction word is stored. -/

namespace Sys2Proof.Machine

/-- `Process()`: nothing while halted. Otherwise fetch, advance `pc`, decode, and run the handler or raise the fault
(30_encoding.md R74 to R78, 60_exceptions.md R216). -/
def step (s : State) : Host.Outcome State Fault Refusal :=
  if s.halted then .next s
  else
    match fetchWord s with
    | none => fetchFault s
    | some w =>
      match decodeWord w with
      | .error _ => dispatchFault w s.advancePc
      | .ok i => exec i s.advancePc

/-- The state with an instruction word stored where the next cycle fetches it, and not halted, as a `LoadROM` leaves it
(log 8). Bits above `nbits` are 0. Where no fetch is possible (`pc ≥ 0xFFF`) memory stays. -/
def State.withFetchWord (s : State) (nbits w : Nat) : State :=
  let word : Word := BitVec.ofNat 16 (w % 2 ^ nbits)
  if s.pc.toNat + 1 > Config.memSize - 1 then s
  else
    { s with
      mem := s.mem.writeBytes s.pc.toNat [highByte word, lowByte word]
      halted := false
      fault := none }

end Sys2Proof.Machine
end

