-- ==== Sys2Proof/WellFormed.lean ====
section
/-! DEFINITION. Well-formedness: which instructions a configuration implements, and which parameters an instance may
be constructed with. Operand fields need no check, since every value of each field's type is encodable (10_state.md R20). -/

namespace Sys2Proof

/-- The "set" column of the opcode map (30_encoding.md R79): true for the 22 baseline instructions, false for the 12
extensions. -/
def Instr.isBaseline : Instr → Bool
  | .cls => true
  | .ret => true
  | .jp _ => true
  | .call _ => true
  | .seImm _ _ => false
  | .sneImm _ _ => false
  | .seReg _ _ _ => false
  | .ldImm _ _ => true
  | .addImm _ _ => true
  | .ldReg _ _ => true
  | .orReg _ _ => true
  | .andReg _ _ => true
  | .xorReg _ _ => true
  | .addReg _ _ => true
  | .subReg _ _ => true
  | .shr _ _ => false
  | .subn _ _ => true
  | .shl _ _ => false
  | .sneReg _ _ _ => false
  | .ldI _ => true
  | .jpV0 _ => false
  | .rnd _ _ => false
  | .drw _ _ _ => true
  | .skp _ => true
  | .sknp _ => true
  | .ldVxDT _ => true
  | .ldVxK _ => true
  | .ldDTVx _ => true
  | .ldSTVx _ => true
  | .addI _ => true
  | .ldF _ => false
  | .ldB _ => false
  | .ldMemVx _ => false
  | .ldVxMem _ => false

/-- An instruction is well formed for a configuration when its key is in the configuration's handler set
(30_encoding.md R76): a baseline instruction always, an extension only with `EXT_OPS = true`. -/
def Instr.wellFormed (p : Params) (i : Instr) : Bool := i.isBaseline || p.extOps

/-- `STACK_DEPTH` is a positive value (00_scope.md R6). -/
def Params.stackDepthOk (p : Params) : Bool := decide (0 < p.stackDepth)

/-- `FONT` is 80 bytes (00_scope.md R6, 20_memory.md R52). -/
def Params.fontOk (p : Params) : Bool := p.font.length == Config.fontSize

/-- `TIMER_TICK` is a positive time (00_scope.md R6, 60_exceptions.md R222). -/
def Params.timerTickOk (p : Params) : Bool := decide (0 < p.timerTick)

/-- The parameters an instance may be constructed with (00_scope.md R6). -/
def Params.wellFormed (p : Params) : Bool := p.stackDepthOk && p.fontOk && p.timerTickOk

end Sys2Proof
end

