-- ==== Sys2Proof/Machine/Transactions.lean ====
section
/-! DEFINITION. The host transactions, the block's interface (60_exceptions.md R220): Construct, LoadROM, Update,
SetKeys, SetPaused, ReadDisplay and ReadState. Process is `step`. -/

namespace Sys2Proof.Machine

/-- Power-on, before the construction-time `LoadROM` (10_state.md R35, 70_reset_and_hazards.md R250): memory all zero
with the font at 0x050. `spc` is what a failed first load leaves (R251). -/
def State.powerOn (p : Params) (po : PowerOn) : State where
  params   := p
  mem      := Memory.writeBytes [] Config.fontBase p.font
  V        := po.V
  I        := po.I
  pc       := BitVec.ofNat 16 Config.romBase
  stack    := []
  DT       := po.DT
  ST       := po.ST
  disp     := po.disp
  keys     := Vector.replicate 16 false
  timerAcc := 0
  cycleAcc := 0
  spc      := Config.defaultSpc
  halted   := false
  fault    := none
  log      := []
  paused   := false
  rngDraws := 0

/-- The record of a LoadFault: no address, no word, the ROM's length (60_exceptions.md R211). -/
def loadFaultRecord (bytes : List Byte) : FaultRecord where
  kind := .load
  addr := none
  word := none
  info := .length bytes.length

/-- A ROM and a rate `LoadROM` refuses: longer than `ROM_MAX`, or a rate that is not positive
(70_reset_and_hazards.md R253). -/
def romRefused (bytes : List Byte) (cps : Rat) : Bool := decide (bytes.length > Config.romMax) || decide (cps ≤ 0)

/-- `LoadROM(bytes, cps)` (70_reset_and_hazards.md R252, R253): the new state, or the LoadFault with nothing changed. -/
def State.loadROM (s : State) (bytes : List Byte) (cps : Rat) : Except FaultRecord State :=
  if romRefused bytes cps then .error (loadFaultRecord bytes)
  else
    .ok { s with
      mem := s.mem.writeBytes Config.romBase bytes
      pc := BitVec.ofNat 16 Config.romBase
      spc := 1 / cps
      timerAcc := 0
      cycleAcc := 0
      halted := false
      fault := none
      log := [] }

/-- `Construct(bytes, cps)` (70_reset_and_hazards.md R251): power-on and then `LoadROM`. If that fails, the instance
exists halted, with the LoadFault record in `fault`. -/
def State.construct (p : Params) (po : PowerOn) (bytes : List Byte) (cps : Rat) : State :=
  match (State.powerOn p po).loadROM bytes cps with
  | .ok s => s
  | .error r => (State.powerOn p po).takeFatal r

/-- A timer lowered by whole ticks, never below 0 (60_exceptions.md R222). -/
def timerMinus (b : Byte) (ticks : Nat) : Byte := BitVec.ofNat 8 (b.toNat - ticks)

/-- Whole periods in a time, and the time that is left (60_exceptions.md R221, steps b and c). -/
def splitTime (acc period : Rat) : Nat × Rat :=
  let n := (acc / period).floor.toNat
  (n, acc - (n : Rat) * period)

/-- Step (b) of `Update`: the timer engine, with `dt` already accumulated (60_exceptions.md R222). -/
def State.tickTimers (s : State) : State :=
  let q := splitTime s.timerAcc s.params.timerTick
  { s with DT := timerMinus s.DT q.1, ST := timerMinus s.ST q.1, timerAcc := q.2 }

/-- `n` calls of `Process()` in order. -/
def runCycles : Nat → State → Result
  | 0, s => .next s
  | n + 1, s =>
    match step s with
    | .next s' => runCycles n s'
    | .fault r => .fault r
    | .refused r => .refused r

/-- `Update(dt)` (60_exceptions.md R221): nothing while paused. Otherwise accumulate, tick the timers, run the whole
cycles the accumulator holds, and keep the remainder. A negative `dt` has no step (R220, U20). -/
def State.update (s : State) (dt : Rat) : Result :=
  if dt < 0 then .fault .negativeDeltaTime
  else if s.paused then .next s
  else
    let s1 := { s with timerAcc := s.timerAcc + dt, cycleAcc := s.cycleAcc + dt }.tickTimers
    let q := splitTime s1.cycleAcc s1.spc
    match runCycles q.1 s1 with
    | .next s2 => .next { s2 with cycleAcc := q.2 }
    | .fault r => .fault r
    | .refused r => .refused r

/-- `SetKeys`: `key[k] <- bit k` (60_exceptions.md R220, R226). -/
def State.setKeys (s : State) (bits : Word) : State :=
  { s with keys := Vector.ofFn fun k : Fin 16 => bits.getLsbD k.val }

/-- `SetPaused` (60_exceptions.md R220, R224). -/
def State.setPaused (s : State) (b : Bool) : State := { s with paused := b }

/-- `ReadDisplay`: the W x H cells, row-major (60_exceptions.md R220, R225). -/
def State.readDisplay (s : State) : List Bool :=
  (List.range (s.params.width * s.params.height)).map fun k => s.disp.contains k

/-- The calls a host makes into one instance (60_exceptions.md R220). -/
inductive HostCall where
  | loadROM (bytes : List Byte) (cps : Rat)
  | update (dt : Rat)
  | process
  | setKeys (bits : Word)
  | setPaused (b : Bool)
  | readDisplay
  | readState
  deriving DecidableEq, Repr

/-- What a call answers (60_exceptions.md R220). -/
inductive HostReply where
  | none
  | ok
  | loadFault (r : FaultRecord)
  | display (cells : List Bool)
  | state (s : State)
  deriving DecidableEq, Repr

/-- The state a cycle or an `Update` leaves, with no reply. -/
def replyNone : Result → Host.Outcome (State × HostReply) Fault Refusal
  | .next s => .next (s, .none)
  | .fault r => .fault r
  | .refused r => .refused r

/-- One host transaction, atomic with respect to the others (60_exceptions.md R220). -/
def transact (c : HostCall) (s : State) : Host.Outcome (State × HostReply) Fault Refusal :=
  match c with
  | .loadROM bytes cps =>
    match s.loadROM bytes cps with
    | .ok s' => .next (s', .ok)
    | .error r => .next (s, .loadFault r)
  | .update dt => replyNone (s.update dt)
  | .process => replyNone (step s)
  | .setKeys bits => .next (s.setKeys bits, .none)
  | .setPaused b => .next (s.setPaused b, .none)
  | .readDisplay => .next (s, .display s.readDisplay)
  | .readState => .next (s, .state s)

end Sys2Proof.Machine
end

