-- ==== Sys2Proof/Safety.lean ====
section
/-! DEFINITION. What counts as a safe run: faulted, parked and well-ended states (70_reset_and_hazards.md R256), the
invariant of the machine, and the words in which frames are stated. -/

namespace Sys2Proof

/-- The byte power-on puts at an address below 0x200: the font, or zero (20_memory.md R51). -/
def Params.lowByte (p : Params) (a : Nat) : Byte :=
  if Config.fontBase ≤ a then (p.font[a - Config.fontBase]?).getD 0 else 0

end Sys2Proof

namespace Sys2Proof.Machine

/-- *Faulted*: `halted = 1` (70_reset_and_hazards.md R256). -/
def State.faulted (s : State) : Bool := s.halted

/-- *Parked*: not halted, `pc ≤ 0xFFE`, and the word at `pc` is `0x1000 | pc`, a jump to itself
(70_reset_and_hazards.md R256). -/
def State.parked (s : State) : Bool :=
  !s.halted && decide (s.pc.toNat ≤ 0xFFE) && (fetchWord s == some (0x1000#16 ||| s.pc))

/-- A run ends when it reaches a faulted or a parked state (70_reset_and_hazards.md R256). -/
def State.ended (s : State) : Bool := s.faulted || s.parked

/-- A program ends well: parked with `fault` empty (70_reset_and_hazards.md R256). -/
def State.endedWell (s : State) : Bool := s.parked && s.fault.isNone

/-- The invariant of an instance: true when it is constructed, kept by every cycle and every host transaction. -/
structure State.Inv (s : State) : Prop where
  /-- The parameters are legal (00_scope.md R6). -/
  params_ok : s.params.wellFormed = true
  /-- Memory is in canonical form (log 16). -/
  mem_wf : s.mem.wf = true
  /-- The reserved range and the font are as at power-on (20_memory.md R53). -/
  low_memory : ∀ a, a < Config.romBase → s.mem.read a = s.params.lowByte a
  /-- The display is in canonical form, every cell on it (10_state.md R29). -/
  disp_wf : Display.wf s.params s.disp = true
  /-- The stack holds at most `STACK_DEPTH` entries (10_state.md R27). -/
  stack_bound : s.stack.length ≤ s.params.stackDepth
  /-- Every return address is at most 0x1000 (42_control_flow.md R122). -/
  stack_addrs : ∀ a ∈ s.stack, a.toNat ≤ 0x1000
  /-- `pc` is below 0x1100 (10_state.md R26). -/
  pc_bound : s.pc.toNat < 0x1100
  /-- `0 ≤ timerAcc < TIMER_TICK` (60_exceptions.md R222). -/
  timer_acc : 0 ≤ s.timerAcc ∧ s.timerAcc < s.params.timerTick
  /-- `0 ≤ cycleAcc < spc` (60_exceptions.md R223). -/
  cycle_acc : 0 ≤ s.cycleAcc ∧ s.cycleAcc < s.spc
  /-- `halted` is set exactly when `fault` holds a record (10_state.md R32). -/
  halted_fault : s.halted = s.fault.isSome
  /-- The record in `fault` is not a logged fault (60_exceptions.md R210, R212). -/
  fault_kind : ∀ r ∈ s.fault, r.kind ≠ .dispatch
  /-- The records in `log` are DispatchFaults (10_state.md R32). -/
  log_kind : ∀ r ∈ s.log, r.kind = .dispatch

/-- Every variable register outside `ds` reads as before. -/
def sameRegsExcept (ds : List Nibble) (s t : State) : Prop := ∀ r, r ∉ ds → t.readV r = s.readV r

/-- Every byte of memory reads as before. -/
def sameMemory (s t : State) : Prop := ∀ a, t.mem.read a = s.mem.read a

/-- Every byte of memory outside `n` bytes from `a` reads as before. -/
def sameMemoryOutside (a n : Nat) (s t : State) : Prop := ∀ b, b < a ∨ a + n ≤ b → t.mem.read b = s.mem.read b

/-- No part of the state changed but the variable registers in `ds`. -/
def onlyRegs (ds : List Nibble) (s t : State) : Prop :=
  sameRegsExcept ds s t ∧ sameMemory s t ∧ t = { s with V := t.V }

/-- No part of the state changed but `pc`. -/
def onlyPc (s t : State) : Prop := sameRegsExcept [] s t ∧ sameMemory s t ∧ t = { s with pc := t.pc }

/-- No part of the state changed but I. -/
def onlyI (s t : State) : Prop := sameRegsExcept [] s t ∧ sameMemory s t ∧ t = { s with I := t.I }

/-- The words of a row of the opcode map decode to `f` of the word (30_encoding.md R79). -/
def decodesRow (mask key : Word) (f : Word → Instr) : Prop :=
  ∀ w : Word, w &&& mask = key → decodeWord w = .ok (f w)

/-- Bit `7 - c` of sprite row `r`: the pixel in row `r`, column `c` is on (41_display.md R101). -/
def State.spriteBit (s : State) (r c : Nat) : Bool := (s.mem.read (s.I.toNat + r)).getLsbD (7 - c)

/-- The unwrapped position of the pixel in row `r`, column `c` of a draw is on the display (41_display.md R101). -/
def State.pixelOnDisplay (s : State) (x y : Nibble) (r c : Nat) : Prop :=
  s.originX x + c < s.params.width ∧ s.originY y + r < s.params.height

/-- The pixel in row `r`, column `c` of a draw lands on the cell in column `cx`, row `cy`: at its unwrapped position,
or wrapped under `DRAW_EDGE = WRAP` (41_display.md R101, R102). -/
def State.pixelLandsOn (s : State) (x y : Nibble) (r c cx cy : Nat) : Prop :=
  match s.params.drawEdge with
  | .wrap => cx = (s.originX x + c) % s.params.width ∧ cy = (s.originY y + r) % s.params.height
  | .fault => cx = s.originX x + c ∧ cy = s.originY y + r
  | .clip => cx = s.originX x + c ∧ cy = s.originY y + r

/-- Some set pixel of an `n`-row draw lands on the cell in column `cx`, row `cy` (41_display.md R101). -/
def State.drawHits (s : State) (x y n : Nibble) (cx cy : Nat) : Prop :=
  ∃ r c, r < n.val ∧ c < 8 ∧ s.spriteBit r c = true ∧ s.pixelLandsOn x y r c cx cy

/-- The draw's sprite lies in the array: no byte is read when N = 0 (41_display.md R101). -/
def State.spriteInMemory (s : State) (n : Nibble) : Prop := n.val = 0 ∨ s.I.toNat + n.val - 1 ≤ 0xFFF

/-- `Update` called once for each time, in order (60_exceptions.md R223). -/
def updateAll : List Rat → State → Result
  | [], s => .next s
  | d :: ds, s =>
    match s.update d with
    | .next t => updateAll ds t
    | .fault r => .fault r
    | .refused r => .refused r

/-- One `Update` of `dt` that lowers the timers by `ticks`, runs exactly `n` cycles and ends in `t`
(60_exceptions.md R221). The accumulators of `t` hold what `ticks` periods and `n` cycles leave, so they fix both
numbers. -/
def State.updateRuns (s : State) (dt : Rat) (ticks n : Nat) (t : State) : Prop :=
  s.update dt = .next t ∧
  ∃ u, runCycles n { s with
      DT := timerMinus s.DT ticks
      ST := timerMinus s.ST ticks
      timerAcc := s.timerAcc + dt - (ticks : Rat) * s.params.timerTick
      cycleAcc := s.cycleAcc + dt } = .next u ∧
    t = { u with cycleAcc := s.cycleAcc + dt - (n : Rat) * s.spc }

/-- A sequence of `Update` calls, one for each time, that in total lower the timers by `ticks` and run `n` cycles
(60_exceptions.md R223). -/
def updatesRun : List Rat → State → Nat → Nat → State → Prop
  | [], s, ticks, n, t => ticks = 0 ∧ n = 0 ∧ t = s
  | d :: ds, s, ticks, n, t =>
    ∃ k₁ n₁ k₂ n₂ u, s.updateRuns d k₁ n₁ u ∧ updatesRun ds u k₂ n₂ t ∧ ticks = k₁ + k₂ ∧ n = n₁ + n₂

end Sys2Proof.Machine
end

