-- ==== Sys2Proof/Certificates/Slice0/Obligations.lean ====
section
/-! DEFINITION. The statements for the provers, in the order of OBLIGATIONS.json. A statement over every state holds
for every configuration too, since the parameters stand in the state (log 1). -/

open Sys2Proof Sys2Proof.Machine

/-! ### The cycle -/

/-- A cycle whose word decodes is the instruction's meaning, with `pc` moved past the word first (30_encoding.md R78). -/
def Obligations.StepRunsDecodedInstruction : Prop :=
  ∀ (s : State) (w : Word) (i : Instr), s.halted = false → fetchWord s = some w → decodeWord w = .ok i →
    step s = exec i { s with pc := s.pc + 2 }

/-- 30_encoding.md R74: the fetch is big-endian and advances `pc` by 2, whatever is then done with the word, and
FetchFault is raised exactly when `pc ≥ 0xFFF`, fatal, `pc` unchanged. -/
def Obligations.FetchReadsBigEndianOrFaults : Prop :=
  ∀ s : State, s.halted = false →
    (0xFFF ≤ s.pc.toNat →
      step s = .next { s with halted := true, fault := some ⟨.fetch, some s.pc, none, .none⟩ }) ∧
    (s.pc.toNat < 0xFFF →
      ∃ w : Word, fetchWord s = some w ∧
        w.toNat = 256 * (s.mem.read s.pc.toNat).toNat + (s.mem.read (s.pc.toNat + 1)).toNat ∧
        step s ≠ .next { s with halted := true, fault := some ⟨.fetch, some s.pc, none, .none⟩ } ∧
        (s.pc + 2).toNat = s.pc.toNat + 2 ∧
        ((∃ i, decodeWord w = .ok i ∧ step s = exec i { s with pc := s.pc + 2 }) ∨
         (∃ e, decodeWord w = .error e ∧ step s = dispatchFault w { s with pc := s.pc + 2 })))

/-- 30_encoding.md R77 and 60_exceptions.md R213: a word whose key is in the handler set runs its handler on the whole
word, and one whose key is not is logged and skipped, with nothing else changed. -/
def Obligations.DispatchRunsHandlerOrLogsAndSkips : Prop :=
  ∀ (s : State) (w : Word), s.halted = false → fetchWord s = some w →
    (decodeKey w ∈ handlerSet s.params.extOps →
      ∃ i, decodeWord w = .ok i ∧ i.wellFormed s.params = true ∧ encode i = w ∧
        step s = exec i { s with pc := s.pc + 2 }) ∧
    (decodeKey w ∉ handlerSet s.params.extOps →
      step s = .next { s with
        pc := s.pc + 2
        log := s.log ++ [⟨.dispatch, some s.pc, some w, .none⟩] })

/-- 00_scope.md R5: in the baseline each of the 12 extensions raises DispatchFault. -/
def Obligations.ExtensionsRaiseDispatchFaultInBaseline : Prop :=
  ∀ (i : Instr) (s : State), i.isBaseline = false → s.params.extOps = false →
    exec i s = .next { s with log := s.log ++ [⟨.dispatch, some (s.pc - 2), some (encode i), .none⟩] }

/-- 60_exceptions.md R214: a halted cycle does nothing, a halted `Update` still ticks the timers and consumes its cycle
budget, and only a successful `LoadROM` clears `halted`. -/
def Obligations.HaltedRunsNothingUntilLoad : Prop :=
  ∀ s : State, s.halted = true →
    step s = .next s ∧
    (∀ dt : Rat, 0 ≤ dt → s.paused = false →
      s.update dt = .next { s with
        DT := timerMinus s.DT (splitTime (s.timerAcc + dt) s.params.timerTick).1
        ST := timerMinus s.ST (splitTime (s.timerAcc + dt) s.params.timerTick).1
        timerAcc := (splitTime (s.timerAcc + dt) s.params.timerTick).2
        cycleAcc := (splitTime (s.cycleAcc + dt) s.spc).2 }) ∧
    (∀ (c : HostCall) (t : State) (r : HostReply), transact c s = .next (t, r) → t.halted = false →
      ∃ bytes cps, c = .loadROM bytes cps ∧ r = .ok)

/-- Every cycle ends in a next state: no state makes the model stop or refuse. -/
def Obligations.EveryCycleAnswersNext : Prop := ∀ s : State, ∃ t, step s = .next t

/-- 60_exceptions.md R212: a cycle that takes a fatal fault stores its record, with the instruction's address and word,
sets `halted` and writes nothing else. `pc` keeps the fetch's advance, and stays when the fetch itself faults. -/
def Obligations.FatalFaultWritesNothingElse : Prop :=
  ∀ s t : State, step s = .next t → s.halted = false → t.halted = true →
    ∃ r : FaultRecord, r.addr = some s.pc ∧ r.word = fetchWord s ∧ r.kind ∉ [.load, .dispatch] ∧
      t = { s with halted := true, fault := some r, pc := if r.kind = .fetch then s.pc else s.pc + 2 }

/-- 60_exceptions.md R213: a cycle that changes `log` appends one DispatchFault record and changes nothing else but
`pc`, which ends at `a + 2`. -/
def Obligations.LogGrowsByDispatchFaultOnly : Prop :=
  ∀ s t : State, step s = .next t → t.log ≠ s.log →
    ∃ w : Word, fetchWord s = some w ∧
      t = { s with pc := s.pc + 2, log := s.log ++ [⟨.dispatch, some s.pc, some w, .none⟩] }

/-! ### Invariants and whole-machine rules -/

/-- Every cycle keeps the invariant. -/
def Obligations.CycleKeepsInvariant : Prop := ∀ s t : State, s.Inv → step s = .next t → t.Inv

/-- Every host transaction keeps the invariant. -/
def Obligations.TransactionsKeepInvariant : Prop :=
  ∀ (c : HostCall) (s t : State) (r : HostReply), s.Inv → transact c s = .next (t, r) → t.Inv

/-- The state right after reset has the invariant. -/
def Obligations.ResetHasInvariant : Prop := State.reset.Inv

/-- Every instance has the invariant when it is constructed, whatever the ROM, the rate and the power-on values. -/
def Obligations.ConstructionHasInvariant : Prop :=
  ∀ (p : Params) (po : PowerOn) (bytes : List Byte) (cps : Rat), p.wellFormed = true → Display.wf p po.disp = true →
    (State.construct p po bytes cps).Inv

/-- 10_state.md R33: no cycle and no host transaction changes a construction parameter. -/
def Obligations.ParametersNeverChange : Prop :=
  ∀ (c : HostCall) (s t : State) (r : HostReply), transact c s = .next (t, r) → t.params = s.params

/-- 20_memory.md R53: in the baseline no cycle writes memory, MemWrite refuses an address below 0x200, and no cycle and
no transaction changes a byte below 0x200 in either configuration. -/
def Obligations.FontAndReservedRangeNeverChange : Prop :=
  (∀ s t : State, s.params.extOps = false → step s = .next t → t.mem = s.mem) ∧
  (∀ (m : Memory) (a : Nat) (bs : List Byte), a < 0x200 → memWrite m a bs = .error a) ∧
  (∀ (c : HostCall) (s t : State) (r : HostReply), s.mem.wf = true → transact c s = .next (t, r) →
    ∀ a, a < 0x200 → t.mem.read a = s.mem.read a)

/-- 10_state.md R29: only 00E0 and DXYN change the display, and the host's calls change it through cycles only. -/
def Obligations.DisplayChangesOnlyByClearAndDraw : Prop :=
  (∀ s t : State, step s = .next t → t.disp ≠ s.disp →
    ∃ w, fetchWord s = some w ∧ (decodeWord w = .ok .cls ∨ ∃ x y n, decodeWord w = .ok (.drw x y n))) ∧
  (∀ (c : HostCall) (s t : State) (r : HostReply), transact c s = .next (t, r) → t.disp ≠ s.disp →
    c = .process ∨ ∃ dt, c = .update dt)

/-- 10_state.md R27: only 2NNN pushes and only 00EE pops, one entry each, and no other cycle changes the stack. -/
def Obligations.StackChangesOnlyByCallAndReturn : Prop :=
  ∀ s t : State, step s = .next t → t.stack ≠ s.stack →
    ∃ w, fetchWord s = some w ∧
      ((∃ nnn, decodeWord w = .ok (.call nnn) ∧ t.stack = (s.pc + 2) :: s.stack) ∨
       (decodeWord w = .ok .ret ∧ ∃ a, s.stack = a :: t.stack))

/-- No cycle changes the keypad, the pacing state, `paused` or a parameter, and only FX15 and FX18 change a timer
(10_state.md R28, R30, R31, R32). -/
def Obligations.CycleLeavesHostStateAlone : Prop :=
  ∀ s t : State, step s = .next t →
    t.keys = s.keys ∧ t.timerAcc = s.timerAcc ∧ t.cycleAcc = s.cycleAcc ∧ t.spc = s.spc ∧ t.paused = s.paused ∧
    t.params = s.params ∧
    (t.DT ≠ s.DT → ∃ w x, fetchWord s = some w ∧ decodeWord w = .ok (.ldDTVx x)) ∧
    (t.ST ≠ s.ST → ∃ w x, fetchWord s = some w ∧ decodeWord w = .ok (.ldSTVx x))

/-- In the baseline a cycle depends neither on the three OPEN parameters nor on the random oracle's position: what the
model chose for them at reset (log 1, log 5) reaches no baseline run. -/
def Obligations.BaselineIgnoresOpenParameters : Prop :=
  ∀ (s t : State) (src : ShiftSrc) (off : JumpOffset) (inc : Bool) (n : Nat), s.params.extOps = false →
    step s = .next t →
    step { s with params := { s.params with shiftSrc := src, jumpOffset := off, ldstIncI := inc }, rngDraws := n } =
      .next { t with params := { s.params with shiftSrc := src, jumpOffset := off, ldstIncI := inc }, rngDraws := n }

/-! ### Encoding -/

/-- Decoding an encoded instruction gives it back, every operand at every value. -/
def Obligations.DecodeOfEncodeIsSame : Prop := ∀ i : Instr, decodeWord (encode i) = .ok i

/-- Encoding a decoded word gives the word back: no bit of a word with a handler is dropped. -/
def Obligations.EncodeOfDecodeIsSame : Prop := ∀ (w : Word) (i : Instr), decodeWord w = .ok i → encode i = w

/-- 30_encoding.md R79: a word is the instruction of a row exactly when `w & mask = key`, the rows do not overlap, and
a word decodes exactly when it is some row's. -/
def Obligations.OpcodeMapRowsPartitionWords : Prop :=
  ∀ w : Word,
    (∀ r ∈ opcodeMap, w &&& r.mask = r.key ↔ decodeKey w = r.key) ∧
    (∀ r ∈ opcodeMap, ∀ r' ∈ opcodeMap, w &&& r.mask = r.key → w &&& r'.mask = r'.key → r = r') ∧
    ((∃ i, decodeWord w = .ok i) ↔ ∃ r ∈ opcodeMap, w &&& r.mask = r.key) ∧
    (∀ i, decodeWord w = .ok i → ∀ r ∈ opcodeMap, w &&& r.mask = r.key → i.isBaseline = r.baseline)

/-- 30_encoding.md R81: the words with no handler, class by class, with `EXT_OPS = true` and in the baseline. -/
def Obligations.WordsWithoutHandlerAreTheListed : Prop :=
  ∀ w : Word,
    ((∃ e, decodeWord w = .error e) ↔ decodeKey w ∉ handlerSet true) ∧
    (decodeKey w ∉ handlerSet true ↔
      (leadingNibble w = 0x0 ∧ w ≠ 0x00E0 ∧ w ≠ 0x00EE) ∨
      (leadingNibble w = 0x8 ∧ (fieldN w).val ∈ [0x8, 0x9, 0xA, 0xB, 0xC, 0xD, 0xF]) ∨
      (leadingNibble w = 0xE ∧ (fieldNN w).toNat ∉ [0x9E, 0xA1]) ∨
      (leadingNibble w = 0xF ∧ (fieldNN w).toNat ∉ [0x07, 0x0A, 0x15, 0x18, 0x1E, 0x29, 0x33, 0x55, 0x65])) ∧
    (decodeKey w ∉ handlerSet false ↔
      (leadingNibble w = 0x0 ∧ w ≠ 0x00E0 ∧ w ≠ 0x00EE) ∨
      leadingNibble w ∈ [0x3, 0x4, 0x5, 0x9, 0xB, 0xC] ∨
      (leadingNibble w = 0x8 ∧ (fieldN w).val ∈ [0x6, 0x8, 0x9, 0xA, 0xB, 0xC, 0xD, 0xE, 0xF]) ∨
      (leadingNibble w = 0xE ∧ (fieldNN w).toNat ∉ [0x9E, 0xA1]) ∨
      (leadingNibble w = 0xF ∧ (fieldNN w).toNat ∉ [0x07, 0x0A, 0x15, 0x18, 0x1E]))

/-- A sample of words written out from the opcode map and the vectors of 95_test_vectors.md ENC-1. -/
def Obligations.WrittenWordsDecodeAsListed : Prop :=
  decodeWord 0b0000000011100000#16 = .ok .cls ∧
  decodeWord 0b0001101010111100#16 = .ok (.jp 0xABC) ∧
  decodeWord 0b0101000100100001#16 = .ok (.seReg 0x1 0x2 0x1) ∧
  decodeWord 0b1000101010110100#16 = .ok (.addReg 0xA 0xB) ∧
  decodeWord 0b1101000100100011#16 = .ok (.drw 0x1 0x2 0x3) ∧
  decodeWord 0b1110000110011110#16 = .ok (.skp 0x1) ∧
  decodeWord 0b1111001000001010#16 = .ok (.ldVxK 0x2) ∧
  decodeWord 0b1000101010111000#16 = .error (.noHandler 0x8008) ∧
  decodeWord 0b0000000100100011#16 = .error (.noHandler 0x0123)

/-! ### Display -/

/-- 41_display.md R100: 00E0 turns every cell off and changes nothing else. -/
def Obligations.ClearTurnsEveryCellOff : Prop :=
  decodesRow 0xFFFF 0x00E0 (fun _ => .cls) ∧
  ∀ s : State, ∃ t, exec .cls s = .next t ∧ (∀ x y, t.cell x y = false) ∧ sameRegsExcept [] s t ∧ sameMemory s t ∧
    t = { s with disp := t.disp }

/-- DXYN completes when its sprite is in memory and, under `FAULT`, no set pixel is off the display: exactly the cells
its set pixels land on flip, VF says whether one of them was on, and nothing else changes. The bit order is the
spec's general-knowledge choice D16 (log 19), and that `CLIP` drops a pixel off the display is its general knowledge B4
(log 20). -/
def Obligations.DrawFlipsTheSpriteCells : Prop :=
  decodesRow 0xF000 0xD000 (fun w => .drw (fieldX w) (fieldY w) (fieldN w)) ∧
  ∀ (x y n : Nibble) (s : State), Display.wf s.params s.disp = true → s.spriteInMemory n →
    (s.params.drawEdge = .fault → ∀ r c, r < n.val → c < 8 → s.spriteBit r c = true → s.pixelOnDisplay x y r c) →
    ∃ t, exec (.drw x y n) s = .next t ∧
      (∀ cx cy, cx < s.params.width → cy < s.params.height →
        (t.cell cx cy ≠ s.cell cx cy ↔ s.drawHits x y n cx cy)) ∧
      (t.readV 0xF = 1 ∧ (∃ cx cy, cx < s.params.width ∧ cy < s.params.height ∧ s.drawHits x y n cx cy ∧
          s.cell cx cy = true) ∨
        t.readV 0xF = 0 ∧ ¬ ∃ cx cy, cx < s.params.width ∧ cy < s.params.height ∧ s.drawHits x y n cx cy ∧
          s.cell cx cy = true) ∧
      sameRegsExcept [0xF] s t ∧ sameMemory s t ∧ t = { s with disp := t.disp, V := t.V }

/-- DXYN's two faults, the sprite range first (60_exceptions.md R216): MemoryFault names the first address above 0xFFF,
DrawEdgeFault the first set pixel off the display in drawing order. Both write nothing else. Which set pixel is the
first rests on the bit order, the spec's general-knowledge choice D16 (log 19, PRESUMED), and the address named for a
sprite that starts above 0xFFF on log 21 (DEDUCED). -/
def Obligations.DrawFaultsBeforeWriting : Prop :=
  ∀ (x y n : Nibble) (s : State),
    (¬ s.spriteInMemory n →
      exec (.drw x y n) s = .next { s with
        halted := true
        fault := some ⟨.memory, some (s.pc - 2), some (encode (.drw x y n)),
          .address (max s.I.toNat 0x1000)⟩ }) ∧
    (∀ r c, s.spriteInMemory n → s.params.drawEdge = .fault → r < n.val → c < 8 → s.spriteBit r c = true →
      ¬ s.pixelOnDisplay x y r c →
      (∀ r' c', c' < 8 → (r' < r ∨ r' = r ∧ c' < c) → s.spriteBit r' c' = true → s.pixelOnDisplay x y r' c') →
      exec (.drw x y n) s = .next { s with
        halted := true
        fault := some ⟨.drawEdge, some (s.pc - 2), some (encode (.drw x y n)),
          .cell (s.originX x + c) (s.originY y + r)⟩ })

/-- 41_display.md R103: after a draw that does not fault, VF is 1 exactly when some cell it toggled was on before, and 0
otherwise, whatever VF held before. -/
def Obligations.DrawFlagReportsCollision : Prop :=
  ∀ (x y n : Nibble) (s t : State), Display.wf s.params s.disp = true → s.halted = false →
    exec (.drw x y n) s = .next t → t.halted = false →
    (t.readV 0xF = 1 ∧ (∃ cx cy, cx < s.params.width ∧ cy < s.params.height ∧
        t.cell cx cy ≠ s.cell cx cy ∧ s.cell cx cy = true) ∨
      t.readV 0xF = 0 ∧ ∀ cx cy, cx < s.params.width → cy < s.params.height →
        t.cell cx cy ≠ s.cell cx cy → s.cell cx cy = false)

/-- 41_display.md R104: the same draw twice restores the display, and the second VF is 1 exactly when some toggled cell
was off before the first. -/
def Obligations.DrawTwiceRestoresDisplay : Prop :=
  ∀ (x y n : Nibble) (s t : State), Display.wf s.params s.disp = true → s.halted = false →
    exec (.drw x y n) s = .next t → t.halted = false → t.readV x = s.readV x → t.readV y = s.readV y →
    ∃ u, exec (.drw x y n) t = .next u ∧ u.halted = false ∧ u.disp = s.disp ∧
      (u.readV 0xF = 1 ↔ ∃ cx cy, cx < s.params.width ∧ cy < s.params.height ∧
        t.cell cx cy ≠ s.cell cx cy ∧ s.cell cx cy = false)

/-! ### Control flow -/

/-- 42_control_flow.md R120: 00EE pops `pc`, or raises StackUnderflow on an empty stack. -/
def Obligations.ReturnPopsOrUnderflows : Prop :=
  decodesRow 0xFFFF 0x00EE (fun _ => .ret) ∧
  ∀ s : State,
    (∀ a rest, s.stack = a :: rest → exec .ret s = .next { s with pc := a, stack := rest }) ∧
    (s.stack = [] →
      exec .ret s = .next { s with
        halted := true
        fault := some ⟨.stackUnderflow, some (s.pc - 2), some 0x00EE, .none⟩ })

/-- 42_control_flow.md R121: 1NNN sets `pc` to NNN and changes nothing else. -/
def Obligations.JumpSetsPc : Prop :=
  decodesRow 0xF000 0x1000 (fun w => .jp (fieldNNN w)) ∧
  ∀ (nnn : Addr12) (s : State), ∃ t, exec (.jp nnn) s = .next t ∧ t.pc.toNat = nnn.toNat ∧ onlyPc s t

/-- 42_control_flow.md R122: 2NNN pushes `pc` and jumps, or raises StackOverflow on a full stack. -/
def Obligations.CallPushesOrOverflows : Prop :=
  decodesRow 0xF000 0x2000 (fun w => .call (fieldNNN w)) ∧
  ∀ (nnn : Addr12) (s : State),
    (s.stack.length < s.params.stackDepth →
      ∃ t, exec (.call nnn) s = .next t ∧ t.pc.toNat = nnn.toNat ∧ t.stack = s.pc :: s.stack ∧
        sameRegsExcept [] s t ∧ sameMemory s t ∧ t = { s with pc := t.pc, stack := t.stack }) ∧
    (s.stack.length = s.params.stackDepth →
      exec (.call nnn) s = .next { s with
        halted := true
        fault := some ⟨.stackOverflow, some (s.pc - 2), some (encode (.call nnn)), .none⟩ })

/-- 3XNN and 4XNN with `EXT_OPS = true` (general knowledge of the spec, log 17): skip on equality and on inequality with
NN. -/
def Obligations.SkipsCompareWithImmediate : Prop :=
  decodesRow 0xF000 0x3000 (fun w => .seImm (fieldX w) (fieldNN w)) ∧
  decodesRow 0xF000 0x4000 (fun w => .sneImm (fieldX w) (fieldNN w)) ∧
  ∀ (x : Nibble) (nn : Byte) (s : State), s.params.extOps = true →
    (∃ t, exec (.seImm x nn) s = .next t ∧ onlyPc s t ∧ t.pc = if s.readV x = nn then s.pc + 2 else s.pc) ∧
    (∃ t, exec (.sneImm x nn) s = .next t ∧ onlyPc s t ∧ t.pc = if s.readV x = nn then s.pc else s.pc + 2)

/-- 5XYN and 9XYN with `EXT_OPS = true` (general knowledge of the spec, log 17): skip on equal and on differing
registers, N ignored. -/
def Obligations.SkipsCompareRegisters : Prop :=
  decodesRow 0xF000 0x5000 (fun w => .seReg (fieldX w) (fieldY w) (fieldN w)) ∧
  decodesRow 0xF000 0x9000 (fun w => .sneReg (fieldX w) (fieldY w) (fieldN w)) ∧
  ∀ (x y n : Nibble) (s : State), s.params.extOps = true →
    (∃ t, exec (.seReg x y n) s = .next t ∧ onlyPc s t ∧
      t.pc = if s.readV x = s.readV y then s.pc + 2 else s.pc) ∧
    (∃ t, exec (.sneReg x y n) s = .next t ∧ onlyPc s t ∧
      t.pc = if s.readV x = s.readV y then s.pc else s.pc + 2)

/-- BNNN with `EXT_OPS = true` (general knowledge of the spec, log 17): the target is NNN plus V0 or plus V[X], X the
top nibble of NNN, not reduced. -/
def Obligations.OffsetJumpAddsRegister : Prop :=
  decodesRow 0xF000 0xB000 (fun w => .jpV0 (fieldNNN w)) ∧
  ∀ (nnn : Addr12) (s : State), s.params.extOps = true →
    ∃ t, exec (.jpV0 nnn) s = .next t ∧ onlyPc s t ∧
      (s.params.jumpOffset = .v0 → t.pc.toNat = nnn.toNat + (s.readV 0).toNat) ∧
      (∀ x : Nibble, s.params.jumpOffset = .vx → x.val = nnn.toNat / 256 →
        t.pc.toNat = nnn.toNat + (s.readV x).toNat)

/-- 70_reset_and_hazards.md R256: a parked state stays as it is under every later cycle. -/
def Obligations.ParkedStateStays : Prop := ∀ s : State, s.parked = true → step s = .next s

/-! ### Registers and ALU -/

/-- 43_alu.md R141, R143: 6XNN loads NN into V[X], 8XY0 copies V[Y] into V[X]. -/
def Obligations.LoadsWriteRegister : Prop :=
  decodesRow 0xF000 0x6000 (fun w => .ldImm (fieldX w) (fieldNN w)) ∧
  decodesRow 0xF00F 0x8000 (fun w => .ldReg (fieldX w) (fieldY w)) ∧
  ∀ (x y : Nibble) (nn : Byte) (s : State),
    (∃ t, exec (.ldImm x nn) s = .next t ∧ t.readV x = nn ∧ onlyRegs [x] s t) ∧
    (∃ t, exec (.ldReg x y) s = .next t ∧ t.readV x = s.readV y ∧ onlyRegs [x] s t)

/-- 43_alu.md R142: 7XNN adds NN modulo 256 and writes no flag. -/
def Obligations.AddImmediateWrapsWithoutFlag : Prop :=
  decodesRow 0xF000 0x7000 (fun w => .addImm (fieldX w) (fieldNN w)) ∧
  ∀ (x : Nibble) (nn : Byte) (s : State), ∃ t, exec (.addImm x nn) s = .next t ∧
    (t.readV x).toNat = ((s.readV x).toNat + nn.toNat) % 256 ∧ onlyRegs [x] s t

/-- 43_alu.md R144, R145, R146: OR, AND and XOR bit by bit, VF not written as a flag. -/
def Obligations.LogicWorksBitByBit : Prop :=
  decodesRow 0xF00F 0x8001 (fun w => .orReg (fieldX w) (fieldY w)) ∧
  decodesRow 0xF00F 0x8002 (fun w => .andReg (fieldX w) (fieldY w)) ∧
  decodesRow 0xF00F 0x8003 (fun w => .xorReg (fieldX w) (fieldY w)) ∧
  ∀ (x y : Nibble) (s : State),
    (∃ t, exec (.orReg x y) s = .next t ∧ onlyRegs [x] s t ∧
      ∀ k, (t.readV x).getLsbD k = ((s.readV x).getLsbD k || (s.readV y).getLsbD k)) ∧
    (∃ t, exec (.andReg x y) s = .next t ∧ onlyRegs [x] s t ∧
      ∀ k, (t.readV x).getLsbD k = ((s.readV x).getLsbD k && (s.readV y).getLsbD k)) ∧
    (∃ t, exec (.xorReg x y) s = .next t ∧ onlyRegs [x] s t ∧
      ∀ k, (t.readV x).getLsbD k = ((s.readV x).getLsbD k != (s.readV y).getLsbD k))

/-- 43_alu.md R147: 8XY4 adds modulo 256, VF ends as the carry, also when X = F. -/
def Obligations.AddSetsCarry : Prop :=
  decodesRow 0xF00F 0x8004 (fun w => .addReg (fieldX w) (fieldY w)) ∧
  ∀ (x y : Nibble) (s : State), ∃ t, exec (.addReg x y) s = .next t ∧
    (x ≠ 0xF → (t.readV x).toNat = ((s.readV x).toNat + (s.readV y).toNat) % 256) ∧
    t.readV 0xF = (if (s.readV x).toNat + (s.readV y).toNat > 255 then 1 else 0) ∧ onlyRegs [x, 0xF] s t

/-- 43_alu.md R148, R149: 8XY5 and 8XY7 subtract modulo 256, VF ends as no borrow, also when X = F. -/
def Obligations.SubtractsSetNoBorrow : Prop :=
  decodesRow 0xF00F 0x8005 (fun w => .subReg (fieldX w) (fieldY w)) ∧
  decodesRow 0xF00F 0x8007 (fun w => .subn (fieldX w) (fieldY w)) ∧
  ∀ (x y : Nibble) (s : State),
    (∃ t, exec (.subReg x y) s = .next t ∧
      (x ≠ 0xF → (t.readV x).toNat = ((s.readV x).toNat + 256 - (s.readV y).toNat) % 256) ∧
      t.readV 0xF = (if (s.readV x).toNat ≥ (s.readV y).toNat then 1 else 0) ∧ onlyRegs [x, 0xF] s t) ∧
    (∃ t, exec (.subn x y) s = .next t ∧
      (x ≠ 0xF → (t.readV x).toNat = ((s.readV y).toNat + 256 - (s.readV x).toNat) % 256) ∧
      t.readV 0xF = (if (s.readV y).toNat ≥ (s.readV x).toNat then 1 else 0) ∧ onlyRegs [x, 0xF] s t)

/-- 8XY6 and 8XYE with `EXT_OPS = true` (general knowledge of the spec, log 17): the source `SHIFT_SRC` selects, shifted
by one, VF ending as the bit shifted out. -/
def Obligations.ShiftsMoveOneBitOut : Prop :=
  decodesRow 0xF00F 0x8006 (fun w => .shr (fieldX w) (fieldY w)) ∧
  decodesRow 0xF00F 0x800E (fun w => .shl (fieldX w) (fieldY w)) ∧
  ∀ (x y z : Nibble) (s : State), s.params.extOps = true →
    (s.params.shiftSrc = .vy ∧ z = y ∨ s.params.shiftSrc = .vx ∧ z = x) →
    (∃ t, exec (.shr x y) s = .next t ∧ onlyRegs [x, 0xF] s t ∧
      (x ≠ 0xF → (t.readV x).toNat = (s.readV z).toNat / 2) ∧ (t.readV 0xF).toNat = (s.readV z).toNat % 2) ∧
    (∃ t, exec (.shl x y) s = .next t ∧ onlyRegs [x, 0xF] s t ∧
      (x ≠ 0xF → (t.readV x).toNat = 2 * (s.readV z).toNat % 256) ∧ (t.readV 0xF).toNat = (s.readV z).toNat / 128)

/-- CXNN with `EXT_OPS = true` (general knowledge of the spec, log 17): V[X] takes the next draw of the oracle ANDed
with NN. The draw is a free value, and the counter is the model's own (log 5). -/
def Obligations.RandomIsMaskedDraw : Prop :=
  decodesRow 0xF000 0xC000 (fun w => .rnd (fieldX w) (fieldNN w)) ∧
  ∀ (x : Nibble) (nn : Byte) (s : State), s.params.extOps = true →
    ∃ t, exec (.rnd x nn) s = .next t ∧ t.readV x = Config.rng s.rngDraws &&& nn ∧ t.rngDraws = s.rngDraws + 1 ∧
      sameRegsExcept [x] s t ∧ sameMemory s t ∧ t = { s with V := t.V, rngDraws := t.rngDraws }

/-! ### Index and memory -/

/-- 44_index_memory.md R170: ANNN loads NNN into I. -/
def Obligations.LoadIndexWritesI : Prop :=
  decodesRow 0xF000 0xA000 (fun w => .ldI (fieldNNN w)) ∧
  ∀ (nnn : Addr12) (s : State), ∃ t, exec (.ldI nnn) s = .next t ∧ t.I.toNat = nnn.toNat ∧ onlyI s t

/-- FX1E adds V[X] to I modulo 2^16. VF is written only with `FX1E_SETS_VF = true`, where it says whether the sum
exceeds 0xFFF (that clause is the spec's general knowledge, log 17). -/
def Obligations.AddIndexWrapsAtSixteenBits : Prop :=
  decodesRow 0xF0FF 0xF01E (fun w => .addI (fieldX w)) ∧
  ∀ (x : Nibble) (s : State), ∃ t, exec (.addI x) s = .next t ∧
    t.I.toNat = (s.I.toNat + (s.readV x).toNat) % 65536 ∧
    (s.params.fx1eSetsVF = false → onlyI s t) ∧
    (s.params.fx1eSetsVF = true →
      t.readV 0xF = (if s.I.toNat + (s.readV x).toNat > 0xFFF then 1 else 0) ∧ sameRegsExcept [0xF] s t ∧
      sameMemory s t ∧ t = { s with I := t.I, V := t.V })

/-- FX29 with `EXT_OPS = true` (general knowledge of the spec, log 17): I takes the address of the glyph of V[X]'s low
nibble. -/
def Obligations.FontLookupPointsAtGlyph : Prop :=
  decodesRow 0xF0FF 0xF029 (fun w => .ldF (fieldX w)) ∧
  ∀ (x : Nibble) (s : State), s.params.extOps = true →
    ∃ t, exec (.ldF x) s = .next t ∧ t.I.toNat = 0x050 + 5 * ((s.readV x).toNat % 16) ∧ onlyI s t

/-- FX33 with `EXT_OPS = true` (general knowledge of the spec, log 17): the three decimal digits are stored at I, I + 1
and I + 2, or MemoryFault is raised and nothing written. -/
def Obligations.BcdStoresDigitsOrFaults : Prop :=
  decodesRow 0xF0FF 0xF033 (fun w => .ldB (fieldX w)) ∧
  ∀ (x : Nibble) (s : State), s.params.extOps = true → s.mem.wf = true →
    (0x200 ≤ s.I.toNat → s.I.toNat + 2 ≤ 0xFFF →
      ∃ t, exec (.ldB x) s = .next t ∧
        (t.mem.read s.I.toNat).toNat = (s.readV x).toNat / 100 ∧
        (t.mem.read (s.I.toNat + 1)).toNat = (s.readV x).toNat / 10 % 10 ∧
        (t.mem.read (s.I.toNat + 2)).toNat = (s.readV x).toNat % 10 ∧
        sameMemoryOutside s.I.toNat 3 s t ∧ sameRegsExcept [] s t ∧ t = { s with mem := t.mem }) ∧
    (s.I.toNat < 0x200 ∨ s.I.toNat + 2 > 0xFFF →
      exec (.ldB x) s = .next { s with
        halted := true
        fault := some ⟨.memory, some (s.pc - 2), some (encode (.ldB x)), .address s.I.toNat⟩ })

/-- FX55 with `EXT_OPS = true` (general knowledge of the spec, log 17): V0 to V[X] are stored from I up, I advances per
`LDST_INC_I`, or MemoryFault is raised and nothing written. -/
def Obligations.BlockStoreWritesRegistersOrFaults : Prop :=
  decodesRow 0xF0FF 0xF055 (fun w => .ldMemVx (fieldX w)) ∧
  ∀ (x : Nibble) (s : State), s.params.extOps = true → s.mem.wf = true →
    (0x200 ≤ s.I.toNat → s.I.toNat + x.val ≤ 0xFFF →
      ∃ t, exec (.ldMemVx x) s = .next t ∧
        (∀ k : Nibble, k ≤ x → t.mem.read (s.I.toNat + k.val) = s.readV k) ∧
        sameMemoryOutside s.I.toNat (x.val + 1) s t ∧
        t.I.toNat = (if s.params.ldstIncI then (s.I.toNat + x.val + 1) % 65536 else s.I.toNat) ∧
        sameRegsExcept [] s t ∧ t = { s with mem := t.mem, I := t.I }) ∧
    (s.I.toNat < 0x200 ∨ s.I.toNat + x.val > 0xFFF →
      exec (.ldMemVx x) s = .next { s with
        halted := true
        fault := some ⟨.memory, some (s.pc - 2), some (encode (.ldMemVx x)), .address s.I.toNat⟩ })

/-- FX65 with `EXT_OPS = true` (general knowledge of the spec, log 17): V0 to V[X] are loaded from I up, I advances per
`LDST_INC_I`, or MemoryFault names the first address above 0xFFF and no register is written. For I above 0xFFF that
address is I itself, which is log 21's reading (DEDUCED). -/
def Obligations.BlockLoadReadsRegistersOrFaults : Prop :=
  decodesRow 0xF0FF 0xF065 (fun w => .ldVxMem (fieldX w)) ∧
  ∀ (x : Nibble) (s : State), s.params.extOps = true →
    (s.I.toNat + x.val ≤ 0xFFF →
      ∃ t, exec (.ldVxMem x) s = .next t ∧
        (∀ k : Nibble, t.readV k = if k ≤ x then s.mem.read (s.I.toNat + k.val) else s.readV k) ∧
        t.I.toNat = (if s.params.ldstIncI then (s.I.toNat + x.val + 1) % 65536 else s.I.toNat) ∧
        sameMemory s t ∧ t = { s with V := t.V, I := t.I }) ∧
    (s.I.toNat + x.val > 0xFFF →
      exec (.ldVxMem x) s = .next { s with
        halted := true
        fault := some ⟨.memory, some (s.pc - 2), some (encode (.ldVxMem x)),
          .address (max s.I.toNat 0x1000)⟩ })

/-! ### Keypad and timers -/

/-- 45_keys_timers.md R190, R191, R192: EX9E skips when the key is pressed, EXA1 when it is not, both raise
KeyIndexFault on an index above 0x0F. -/
def Obligations.KeySkipsTestTheKey : Prop :=
  decodesRow 0xF0FF 0xE09E (fun w => .skp (fieldX w)) ∧
  decodesRow 0xF0FF 0xE0A1 (fun w => .sknp (fieldX w)) ∧
  ∀ (x : Nibble) (s : State),
    (∀ k : Nibble, (s.readV x).toNat = k.val →
      (∃ t, exec (.skp x) s = .next t ∧ onlyPc s t ∧ t.pc = if s.keys[k] = true then s.pc + 2 else s.pc) ∧
      (∃ t, exec (.sknp x) s = .next t ∧ onlyPc s t ∧ t.pc = if s.keys[k] = true then s.pc else s.pc + 2)) ∧
    ((s.readV x).toNat > 0x0F →
      exec (.skp x) s = .next { s with
        halted := true
        fault := some ⟨.keyIndex, some (s.pc - 2), some (encode (.skp x)), .index (s.readV x)⟩ } ∧
      exec (.sknp x) s = .next { s with
        halted := true
        fault := some ⟨.keyIndex, some (s.pc - 2), some (encode (.sknp x)), .index (s.readV x)⟩ })

/-- 45_keys_timers.md R193, R194, R195: FX07 copies DT into V[X], FX15 and FX18 copy V[X] into DT and ST, and the
timer accumulator stays. -/
def Obligations.TimerMovesCopyOneByte : Prop :=
  decodesRow 0xF0FF 0xF007 (fun w => .ldVxDT (fieldX w)) ∧
  decodesRow 0xF0FF 0xF015 (fun w => .ldDTVx (fieldX w)) ∧
  decodesRow 0xF0FF 0xF018 (fun w => .ldSTVx (fieldX w)) ∧
  ∀ (x : Nibble) (s : State),
    (∃ t, exec (.ldVxDT x) s = .next t ∧ t.readV x = s.DT ∧ onlyRegs [x] s t) ∧
    (∃ t, exec (.ldDTVx x) s = .next t ∧ t.DT = s.readV x ∧ sameRegsExcept [] s t ∧ sameMemory s t ∧
      t = { s with DT := t.DT }) ∧
    (∃ t, exec (.ldSTVx x) s = .next t ∧ t.ST = s.readV x ∧ sameRegsExcept [] s t ∧ sameMemory s t ∧
      t = { s with ST := t.ST })

/-- 45_keys_timers.md R196: FX0A goes back to itself while no key is pressed, and takes the lowest pressed key
otherwise. -/
def Obligations.KeyWaitTakesLowestKey : Prop :=
  decodesRow 0xF0FF 0xF00A (fun w => .ldVxK (fieldX w)) ∧
  ∀ (x : Nibble) (s : State),
    ((∀ k : Nibble, s.keys[k] = false) → exec (.ldVxK x) s = .next { s with pc := s.pc - 2 }) ∧
    (∀ k : Nibble, s.keys[k] = true → (∀ j : Nibble, j < k → s.keys[j] = false) →
      ∃ t, exec (.ldVxK x) s = .next t ∧ (t.readV x).toNat = k.val ∧ onlyRegs [x] s t)

/-! ### Host transactions -/

/-- 10_state.md R35, 70_reset_and_hazards.md R250: the power-on value of every item. Two clauses are the model's own and
no rule's: `spc` is 1/700 before the construction-time `LoadROM` sets it (log 23), and the draw counter starts at 0
(log 5). -/
def Obligations.PowerOnSetsEveryItem : Prop :=
  ∀ (p : Params) (po : PowerOn), p.wellFormed = true →
    (State.powerOn p po).mem.wf = true ∧
    (∀ a, (State.powerOn p po).mem.read a =
      if 0x050 ≤ a ∧ a ≤ 0x09F then (p.font[a - 0x050]?).getD 0 else 0) ∧
    State.powerOn p po = {
      params := p, mem := (State.powerOn p po).mem, V := po.V, I := po.I, pc := 0x200, stack := [], DT := po.DT,
      ST := po.ST, disp := po.disp, keys := Vector.replicate 16 false, timerAcc := 0, cycleAcc := 0,
      spc := 1 / 700, halted := false, fault := none, log := [], paused := false, rngDraws := 0 }

/-- 70_reset_and_hazards.md R251: construction is power-on and then `LoadROM`; if that fails the instance is halted with
the LoadFault in `fault` and `spc = 1/700`. -/
def Obligations.ConstructionLoadsOrHalts : Prop :=
  ∀ (p : Params) (po : PowerOn) (bytes : List Byte) (cps : Rat),
    (bytes.length ≤ 3584 → 0 < cps →
      (State.powerOn p po).loadROM bytes cps = .ok (State.construct p po bytes cps)) ∧
    (bytes.length > 3584 ∨ cps ≤ 0 →
      State.construct p po bytes cps = { State.powerOn p po with
        halted := true
        fault := some ⟨.load, none, none, .length bytes.length⟩
        spc := 1 / 700 })

/-- The reset state is the instance constructed with an empty ROM, the default rate and parameters, and zeroed power-on
values: the model's choice among the constructions the spec allows (log 1 to 4, log 8). -/
def Obligations.ResetIsConstructionWithEmptyRom : Prop :=
  State.construct Params.default PowerOn.zeroed [] 700 = State.reset

/-- 70_reset_and_hazards.md R252, R253 and 10_state.md R36: a `LoadROM` that succeeds changes what the rule lists and
nothing else, one that fails changes nothing and answers LoadFault. -/
def Obligations.LoadRomReplacesProgramOrNothing : Prop :=
  ∀ (s : State) (bytes : List Byte) (cps : Rat), s.mem.wf = true →
    (bytes.length ≤ 3584 → 0 < cps →
      ∃ t, transact (.loadROM bytes cps) s = .next (t, .ok) ∧
        (∀ a, t.mem.read a =
          if 0x200 ≤ a ∧ a < 0x200 + bytes.length then (bytes[a - 0x200]?).getD 0 else s.mem.read a) ∧
        t = { s with
          mem := t.mem, pc := 0x200, spc := 1 / cps, timerAcc := 0, cycleAcc := 0, halted := false, fault := none,
          log := [] }) ∧
    (bytes.length > 3584 ∨ cps ≤ 0 →
      transact (.loadROM bytes cps) s = .next (s, .loadFault ⟨.load, none, none, .length bytes.length⟩))

/-- 60_exceptions.md R221: `Update` does nothing while paused. Otherwise it accumulates `dt`, lowers both timers by the
whole ticks, clamped at 0, runs the whole cycles in order, and keeps both remainders. -/
def Obligations.UpdateTicksThenRunsWholeCycles : Prop :=
  ∀ (s : State) (dt : Rat), s.Inv → 0 ≤ dt →
    (s.paused = true → s.update dt = .next s) ∧
    (s.paused = false →
      ∃ (ticks n : Nat) (t : State),
        (ticks : Rat) * s.params.timerTick ≤ s.timerAcc + dt ∧
        s.timerAcc + dt < ((ticks : Rat) + 1) * s.params.timerTick ∧
        (n : Rat) * s.spc ≤ s.cycleAcc + dt ∧ s.cycleAcc + dt < ((n : Rat) + 1) * s.spc ∧
        runCycles n { s with
          DT := BitVec.ofNat 8 (s.DT.toNat - ticks)
          ST := BitVec.ofNat 8 (s.ST.toNat - ticks)
          timerAcc := s.timerAcc + dt - (ticks : Rat) * s.params.timerTick
          cycleAcc := s.cycleAcc + dt } = .next t ∧
        s.update dt = .next { t with cycleAcc := s.cycleAcc + dt - (n : Rat) * s.spc })

/-- 60_exceptions.md R223: however a time is split over unpaused `Update` calls, the calls in total tick the timers and
run cycles as often as the whole periods of the starting accumulators plus the sum of the times, and the accumulators
keep the remainders. The bounds are the floors written out: they depend on the sum only, not on the split. -/
def Obligations.PacingIsExactUnderSplitting : Prop :=
  ∀ (s : State) (dts : List Rat), s.Inv → s.paused = false → (∀ d ∈ dts, 0 ≤ d) →
    ∃ (ticks n : Nat) (t : State),
      updateAll dts s = .next t ∧ updatesRun dts s ticks n t ∧
      (ticks : Rat) * s.params.timerTick ≤ s.timerAcc + dts.sum ∧
      s.timerAcc + dts.sum < ((ticks : Rat) + 1) * s.params.timerTick ∧
      (n : Rat) * s.spc ≤ s.cycleAcc + dts.sum ∧ s.cycleAcc + dts.sum < ((n : Rat) + 1) * s.spc ∧
      t.timerAcc = s.timerAcc + dts.sum - (ticks : Rat) * s.params.timerTick ∧
      t.cycleAcc = s.cycleAcc + dts.sum - (n : Rat) * s.spc ∧
      t.spc = s.spc ∧ t.params = s.params ∧ t.paused = false

/-- 60_exceptions.md R224: a paused `Update` changes nothing, and a cycle neither reads nor writes `paused`. -/
def Obligations.PausedGatesUpdateOnly : Prop :=
  (∀ (s : State) (dt : Rat), s.paused = true → 0 ≤ dt → s.update dt = .next s) ∧
  (∀ (s t : State) (b : Bool), step s = .next t → step { s with paused := b } = .next { t with paused := b })

/-- 60_exceptions.md R220: `Update` with a negative `dt` has no step, and no other host call lacks one. The reason
`negativeDeltaTime` is the model's name for the missing step (log 7, DEDUCED). -/
def Obligations.OnlyNegativeTimeHasNoStep : Prop :=
  ∀ (c : HostCall) (s : State),
    (∀ dt : Rat, dt < 0 → c = .update dt → transact c s = .fault .negativeDeltaTime) ∧
    ((∀ dt : Rat, c = .update dt → 0 ≤ dt) → ∃ t r, transact c s = .next (t, r))

/-- 60_exceptions.md R220, R225, R226: SetKeys writes key k from bit k and nothing else, SetPaused writes `paused` and
nothing else, the reads change nothing, and ReadDisplay answers the W x H cells row-major. That ReadState answers the
model's whole State, with its draw counter and the parameters, is the model's choice (log 25). -/
def Obligations.HostWritesAndReadsAreExact : Prop :=
  ∀ s : State,
    (∀ bits : Word, ∃ t, transact (.setKeys bits) s = .next (t, .none) ∧
      (∀ k : Nibble, t.keys[k] = bits.getLsbD k.val) ∧ t = { s with keys := t.keys }) ∧
    (∀ b : Bool, transact (.setPaused b) s = .next ({ s with paused := b }, .none)) ∧
    (∃ cells, transact .readDisplay s = .next (s, .display cells) ∧
      cells.length = s.params.width * s.params.height ∧
      ∀ x y, x < s.params.width → y < s.params.height → cells[y * s.params.width + x]? = some (s.cell x y)) ∧
    transact .readState s = .next (s, .state s)
end

