-- ==== Sys2Proof/Laws/Decode.lean ====
section
/-! SUPPORT. Field extraction from the assembled formats, reassembly of a word from its fields, and the dispatch key
of an assembled word. -/

namespace Sys2Proof

/-! ### Fields of an assembled word -/

@[simp] theorem leadingNibble_wordNNN (op : BitVec 4) (nnn : Addr12) : leadingNibble (wordNNN op nnn) = op.toNat := by
  unfold leadingNibble wordNNN
  congr 1
  ext i h
  simp [BitVec.getElem_extractLsb']
  grind

@[simp] theorem leadingNibble_wordXNN (op : BitVec 4) (x : Nibble) (nn : Byte) :
    leadingNibble (wordXNN op x nn) = op.toNat := by
  unfold leadingNibble wordXNN
  congr 1
  ext i h
  simp [BitVec.getElem_extractLsb']
  grind

@[simp] theorem leadingNibble_wordXYN (op : BitVec 4) (x y n : Nibble) :
    leadingNibble (wordXYN op x y n) = op.toNat := by
  unfold leadingNibble wordXYN
  congr 1
  ext i h
  simp [BitVec.getElem_extractLsb']
  grind

@[simp] theorem fieldNNN_wordNNN (op : BitVec 4) (nnn : Addr12) : fieldNNN (wordNNN op nnn) = nnn := by
  ext i h
  simp [fieldNNN, wordNNN]
  grind

@[simp] theorem fieldNN_wordXNN (op : BitVec 4) (x : Nibble) (nn : Byte) : fieldNN (wordXNN op x nn) = nn := by
  ext i h
  simp [fieldNN, wordXNN]
  grind

/-- A 4-bit slice of a word is the nibble `x` when it is bit for bit. -/
theorem toFin_of_bits {v : BitVec 4} {x : Nibble} (h : v = BitVec.ofFin (w := 4) x) : v.toFin = x := by
  rw [h]

@[simp] theorem fieldX_wordXNN (op : BitVec 4) (x : Nibble) (nn : Byte) : fieldX (wordXNN op x nn) = x := by
  apply toFin_of_bits
  unfold wordXNN
  generalize BitVec.ofFin (w := 4) x = a
  ext i h
  simp [BitVec.getElem_extractLsb']
  grind

@[simp] theorem fieldX_wordXYN (op : BitVec 4) (x y n : Nibble) : fieldX (wordXYN op x y n) = x := by
  apply toFin_of_bits
  unfold wordXYN
  generalize BitVec.ofFin (w := 4) x = a
  generalize BitVec.ofFin (w := 4) y = b
  generalize BitVec.ofFin (w := 4) n = c
  ext i h
  simp [BitVec.getElem_extractLsb']
  grind

@[simp] theorem fieldY_wordXYN (op : BitVec 4) (x y n : Nibble) : fieldY (wordXYN op x y n) = y := by
  apply toFin_of_bits
  unfold wordXYN
  generalize BitVec.ofFin (w := 4) x = a
  generalize BitVec.ofFin (w := 4) y = b
  generalize BitVec.ofFin (w := 4) n = c
  ext i h
  simp [BitVec.getElem_extractLsb']
  grind

@[simp] theorem fieldN_wordXYN (op : BitVec 4) (x y n : Nibble) : fieldN (wordXYN op x y n) = n := by
  apply toFin_of_bits
  unfold wordXYN
  generalize BitVec.ofFin (w := 4) n = c
  ext i h
  simp [BitVec.getElem_extractLsb']
  grind

/-! ### A word reassembled from its fields -/

theorem word_eq_wordNNN (w : Word) : w = wordNNN (w.extractLsb' 12 4) (fieldNNN w) := by
  unfold wordNNN fieldNNN
  ext i h
  grind

theorem word_eq_wordXNN (w : Word) : w = wordXNN (w.extractLsb' 12 4) (fieldX w) (fieldNN w) := by
  show w = w.extractLsb' 12 4 ++ w.extractLsb' 8 4 ++ w.extractLsb' 0 8
  ext i h
  grind

theorem word_eq_wordXYN (w : Word) : w = wordXYN (w.extractLsb' 12 4) (fieldX w) (fieldY w) (fieldN w) := by
  show w = w.extractLsb' 12 4 ++ w.extractLsb' 8 4 ++ w.extractLsb' 4 4 ++ w.extractLsb' 0 4
  ext i h
  grind

/-! ### Masks on assembled words -/

theorem append_and_append {a b : Nat} (x y : BitVec a) (u v : BitVec b) :
    (x ++ u) &&& (y ++ v) = (x &&& y) ++ (u &&& v) := by
  ext i h
  simp [BitVec.getElem_append]

theorem nibble_and_ones (x : BitVec 4) : x &&& 0xF#4 = x := by
  simpa using BitVec.and_allOnes (x := x)

theorem mask_F000_wordNNN (op : BitVec 4) (nnn : Addr12) : wordNNN op nnn &&& 0xF000#16 = wordNNN op 0 := by
  have h : (0xF000#16 : Word) = 0xF#4 ++ 0x000#12 := by decide
  rw [wordNNN, h, append_and_append, nibble_and_ones]
  simp [wordNNN]

theorem mask_F000_wordXNN (op : BitVec 4) (x : Nibble) (nn : Byte) :
    wordXNN op x nn &&& 0xF000#16 = wordXNN op 0 0 := by
  have h : (0xF000#16 : Word) = 0xF#4 ++ 0x0#4 ++ 0x00#8 := by decide
  rw [wordXNN, h, append_and_append, append_and_append, nibble_and_ones]
  simp [wordXNN]

theorem mask_F0FF_wordXNN (op : BitVec 4) (x : Nibble) (nn : Byte) :
    wordXNN op x nn &&& 0xF0FF#16 = wordXNN op 0 nn := by
  have h : (0xF0FF#16 : Word) = 0xF#4 ++ 0x0#4 ++ 0xFF#8 := by decide
  have e : nn &&& 0xFF#8 = nn := by simpa using BitVec.and_allOnes (x := nn)
  rw [wordXNN, h, append_and_append, append_and_append, nibble_and_ones, e]
  simp [wordXNN]

theorem mask_F000_wordXYN (op : BitVec 4) (x y n : Nibble) :
    wordXYN op x y n &&& 0xF000#16 = wordXYN op 0 0 0 := by
  have h : (0xF000#16 : Word) = 0xF#4 ++ 0x0#4 ++ 0x0#4 ++ 0x0#4 := by decide
  rw [wordXYN, h, append_and_append, append_and_append, append_and_append, nibble_and_ones]
  simp [wordXYN]

theorem mask_F00F_wordXYN (op : BitVec 4) (x y n : Nibble) :
    wordXYN op x y n &&& 0xF00F#16 = wordXYN op 0 0 n := by
  have h : (0xF00F#16 : Word) = 0xF#4 ++ 0x0#4 ++ 0x0#4 ++ 0xF#4 := by decide
  rw [wordXYN, h, append_and_append, append_and_append, append_and_append, nibble_and_ones, nibble_and_ones]
  simp [wordXYN]

/-! ### The dispatch key -/

/-- Which mask the key applies, by leading nibble (30_encoding.md R75). -/
theorem decodeKey_cases (w : Word) :
    (leadingNibble w = 0x0 ∧ decodeKey w = w) ∨
    (leadingNibble w = 0x8 ∧ decodeKey w = w &&& 0xF00F#16) ∨
    ((leadingNibble w = 0xE ∨ leadingNibble w = 0xF) ∧ decodeKey w = w &&& 0xF0FF#16) ∨
    (leadingNibble w ∉ [0x0, 0x8, 0xE, 0xF] ∧ decodeKey w = w &&& 0xF000#16) := by
  unfold decodeKey
  split <;> simp_all

theorem decodeKey_of_zero {w : Word} (h : leadingNibble w = 0x0) : decodeKey w = w := by
  simp [decodeKey, h]

theorem decodeKey_of_eight {w : Word} (h : leadingNibble w = 0x8) : decodeKey w = w &&& 0xF00F#16 := by
  simp [decodeKey, h]

theorem decodeKey_of_EF {w : Word} (h : leadingNibble w = 0xE ∨ leadingNibble w = 0xF) :
    decodeKey w = w &&& 0xF0FF#16 := by
  rcases h with h | h <;> simp [decodeKey, h]

theorem decodeKey_of_other {w : Word} (h : leadingNibble w ∉ [0x0, 0x8, 0xE, 0xF]) :
    decodeKey w = w &&& 0xF000#16 := by
  rcases decodeKey_cases w with h' | h' | h' | h' <;> simp_all

/-- The key keeps the leading nibble (30_encoding.md R75). -/
theorem leadingNibble_decodeKey (w : Word) : leadingNibble (decodeKey w) = leadingNibble w := by
  rcases decodeKey_cases w with ⟨_, h⟩ | ⟨_, h⟩ | ⟨_, h⟩ | ⟨_, h⟩ <;> rw [h]
  · conv_rhs => rw [word_eq_wordXYN w]
    conv_lhs => rw [word_eq_wordXYN w, mask_F00F_wordXYN]
    simp
  · conv_rhs => rw [word_eq_wordXNN w]
    conv_lhs => rw [word_eq_wordXNN w, mask_F0FF_wordXNN]
    simp
  · conv_rhs => rw [word_eq_wordNNN w]
    conv_lhs => rw [word_eq_wordNNN w, mask_F000_wordNNN]
    simp

/-! ### The key of each format -/

theorem decodeKey_wordNNN {op : BitVec 4} (h : op.toNat ∉ [0x0, 0x8, 0xE, 0xF]) (nnn : Addr12) :
    decodeKey (wordNNN op nnn) = wordNNN op 0 := by
  rw [decodeKey_of_other (by simpa using h), mask_F000_wordNNN]

theorem decodeKey_wordXNN {op : BitVec 4} (h : op.toNat ∉ [0x0, 0x8, 0xE, 0xF]) (x : Nibble) (nn : Byte) :
    decodeKey (wordXNN op x nn) = wordXNN op 0 0 := by
  rw [decodeKey_of_other (by simpa using h), mask_F000_wordXNN]

theorem decodeKey_wordXYN {op : BitVec 4} (h : op.toNat ∉ [0x0, 0x8, 0xE, 0xF]) (x y n : Nibble) :
    decodeKey (wordXYN op x y n) = wordXYN op 0 0 0 := by
  rw [decodeKey_of_other (by simpa using h), mask_F000_wordXYN]

theorem decodeKey_wordXYN_eight (x y n : Nibble) : decodeKey (wordXYN 0x8 x y n) = wordXYN 0x8 0 0 n := by
  rw [decodeKey_of_eight (by simp), mask_F00F_wordXYN]

theorem decodeKey_wordXKK {op : BitVec 4} (h : op = 0xE ∨ op = 0xF) (x : Nibble) (nn : Byte) :
    decodeKey (wordXNN op x nn) = wordXNN op 0 nn := by
  rw [decodeKey_of_EF (by rcases h with h | h <;> subst h <;> simp), mask_F0FF_wordXNN]

/-! ### The handler of each key (30_encoding.md R76) -/

variable {w : Word}

theorem decodeWord_00E0 (h : decodeKey w = 0x00E0#16) : decodeWord w = .ok .cls := by
  simp [decodeWord, h]

theorem decodeWord_00EE (h : decodeKey w = 0x00EE#16) : decodeWord w = .ok .ret := by
  simp [decodeWord, h]

theorem decodeWord_1000 (h : decodeKey w = 0x1000#16) : decodeWord w = .ok (.jp (fieldNNN w)) := by
  simp [decodeWord, h]

theorem decodeWord_2000 (h : decodeKey w = 0x2000#16) : decodeWord w = .ok (.call (fieldNNN w)) := by
  simp [decodeWord, h]

theorem decodeWord_3000 (h : decodeKey w = 0x3000#16) : decodeWord w = .ok (.seImm (fieldX w) (fieldNN w)) := by
  simp [decodeWord, h]

theorem decodeWord_4000 (h : decodeKey w = 0x4000#16) : decodeWord w = .ok (.sneImm (fieldX w) (fieldNN w)) := by
  simp [decodeWord, h]

theorem decodeWord_5000 (h : decodeKey w = 0x5000#16) : decodeWord w = .ok (.seReg (fieldX w) (fieldY w) (fieldN w)) := by
  simp [decodeWord, h]

theorem decodeWord_6000 (h : decodeKey w = 0x6000#16) : decodeWord w = .ok (.ldImm (fieldX w) (fieldNN w)) := by
  simp [decodeWord, h]

theorem decodeWord_7000 (h : decodeKey w = 0x7000#16) : decodeWord w = .ok (.addImm (fieldX w) (fieldNN w)) := by
  simp [decodeWord, h]

theorem decodeWord_8000 (h : decodeKey w = 0x8000#16) : decodeWord w = .ok (.ldReg (fieldX w) (fieldY w)) := by
  simp [decodeWord, h]

theorem decodeWord_8001 (h : decodeKey w = 0x8001#16) : decodeWord w = .ok (.orReg (fieldX w) (fieldY w)) := by
  simp [decodeWord, h]

theorem decodeWord_8002 (h : decodeKey w = 0x8002#16) : decodeWord w = .ok (.andReg (fieldX w) (fieldY w)) := by
  simp [decodeWord, h]

theorem decodeWord_8003 (h : decodeKey w = 0x8003#16) : decodeWord w = .ok (.xorReg (fieldX w) (fieldY w)) := by
  simp [decodeWord, h]

theorem decodeWord_8004 (h : decodeKey w = 0x8004#16) : decodeWord w = .ok (.addReg (fieldX w) (fieldY w)) := by
  simp [decodeWord, h]

theorem decodeWord_8005 (h : decodeKey w = 0x8005#16) : decodeWord w = .ok (.subReg (fieldX w) (fieldY w)) := by
  simp [decodeWord, h]

theorem decodeWord_8006 (h : decodeKey w = 0x8006#16) : decodeWord w = .ok (.shr (fieldX w) (fieldY w)) := by
  simp [decodeWord, h]

theorem decodeWord_8007 (h : decodeKey w = 0x8007#16) : decodeWord w = .ok (.subn (fieldX w) (fieldY w)) := by
  simp [decodeWord, h]

theorem decodeWord_800E (h : decodeKey w = 0x800E#16) : decodeWord w = .ok (.shl (fieldX w) (fieldY w)) := by
  simp [decodeWord, h]

theorem decodeWord_9000 (h : decodeKey w = 0x9000#16) : decodeWord w = .ok (.sneReg (fieldX w) (fieldY w) (fieldN w)) := by
  simp [decodeWord, h]

theorem decodeWord_A000 (h : decodeKey w = 0xA000#16) : decodeWord w = .ok (.ldI (fieldNNN w)) := by
  simp [decodeWord, h]

theorem decodeWord_B000 (h : decodeKey w = 0xB000#16) : decodeWord w = .ok (.jpV0 (fieldNNN w)) := by
  simp [decodeWord, h]

theorem decodeWord_C000 (h : decodeKey w = 0xC000#16) : decodeWord w = .ok (.rnd (fieldX w) (fieldNN w)) := by
  simp [decodeWord, h]

theorem decodeWord_D000 (h : decodeKey w = 0xD000#16) : decodeWord w = .ok (.drw (fieldX w) (fieldY w) (fieldN w)) := by
  simp [decodeWord, h]

theorem decodeWord_E09E (h : decodeKey w = 0xE09E#16) : decodeWord w = .ok (.skp (fieldX w)) := by
  simp [decodeWord, h]

theorem decodeWord_E0A1 (h : decodeKey w = 0xE0A1#16) : decodeWord w = .ok (.sknp (fieldX w)) := by
  simp [decodeWord, h]

theorem decodeWord_F007 (h : decodeKey w = 0xF007#16) : decodeWord w = .ok (.ldVxDT (fieldX w)) := by
  simp [decodeWord, h]

theorem decodeWord_F00A (h : decodeKey w = 0xF00A#16) : decodeWord w = .ok (.ldVxK (fieldX w)) := by
  simp [decodeWord, h]

theorem decodeWord_F015 (h : decodeKey w = 0xF015#16) : decodeWord w = .ok (.ldDTVx (fieldX w)) := by
  simp [decodeWord, h]

theorem decodeWord_F018 (h : decodeKey w = 0xF018#16) : decodeWord w = .ok (.ldSTVx (fieldX w)) := by
  simp [decodeWord, h]

theorem decodeWord_F01E (h : decodeKey w = 0xF01E#16) : decodeWord w = .ok (.addI (fieldX w)) := by
  simp [decodeWord, h]

theorem decodeWord_F029 (h : decodeKey w = 0xF029#16) : decodeWord w = .ok (.ldF (fieldX w)) := by
  simp [decodeWord, h]

theorem decodeWord_F033 (h : decodeKey w = 0xF033#16) : decodeWord w = .ok (.ldB (fieldX w)) := by
  simp [decodeWord, h]

theorem decodeWord_F055 (h : decodeKey w = 0xF055#16) : decodeWord w = .ok (.ldMemVx (fieldX w)) := by
  simp [decodeWord, h]

theorem decodeWord_F065 (h : decodeKey w = 0xF065#16) : decodeWord w = .ok (.ldVxMem (fieldX w)) := by
  simp [decodeWord, h]

/-! ### From a row's mask and key to the dispatch key (30_encoding.md R79) -/

/-- A mask that keeps the top nibble keeps the leading nibble. -/
theorem leadingNibble_mask (w : Word) {m : Word} (h : m.extractLsb' 12 4 = 0xF#4) :
    leadingNibble (w &&& m) = leadingNibble w := by
  unfold leadingNibble
  congr 1
  ext i hi
  have := congrArg (fun v => v[i]) h
  simp only [BitVec.getElem_extractLsb', BitVec.getLsbD_and] at this ⊢
  have e : (0xF#4)[i] = true := by
    rw [show 0xF#4 = BitVec.allOnes 4 by decide, BitVec.getElem_allOnes]
  rw [this, e, Bool.and_true]

theorem decodeKey_of_mask_F000 {k : Word} (h : w &&& 0xF000#16 = k) (hk : leadingNibble k ∉ [0x0, 0x8, 0xE, 0xF]) :
    decodeKey w = k := by
  rw [decodeKey_of_other (by rwa [← leadingNibble_mask w (m := 0xF000#16) (by decide), h]), h]

theorem decodeKey_of_mask_F00F {k : Word} (h : w &&& 0xF00F#16 = k) (hk : leadingNibble k = 0x8) :
    decodeKey w = k := by
  rw [decodeKey_of_eight (by rwa [← leadingNibble_mask w (m := 0xF00F#16) (by decide), h]), h]

theorem decodeKey_of_mask_F0FF {k : Word} (h : w &&& 0xF0FF#16 = k)
    (hk : leadingNibble k = 0xE ∨ leadingNibble k = 0xF) : decodeKey w = k := by
  rw [decodeKey_of_EF (by rwa [← leadingNibble_mask w (m := 0xF0FF#16) (by decide), h]), h]

theorem decodeKey_of_mask_FFFF {k : Word} (h : w &&& 0xFFFF#16 = k) (hk : leadingNibble k = 0x0) :
    decodeKey w = k := by
  have e : w &&& 0xFFFF#16 = w := by simpa using BitVec.and_allOnes (x := w)
  rw [e] at h
  rw [decodeKey_of_zero (h ▸ hk), h]

/-! ### From the dispatch key back to the word -/

theorem leadingNibble_of_key {k : Word} (h : decodeKey w = k) : leadingNibble w = leadingNibble k := by
  rw [← h, leadingNibble_decodeKey]

theorem topNibble_of_key {k : Word} (h : decodeKey w = k) {op : BitVec 4} (hk : leadingNibble k = op.toNat) :
    w.extractLsb' 12 4 = op :=
  BitVec.eq_of_toNat_eq ((leadingNibble_of_key h).trans hk)

/-- A word whose key's class is `op`, in format `NNN`. -/
theorem wordNNN_of_key {k : Word} (h : decodeKey w = k) {op : BitVec 4} (hk : leadingNibble k = op.toNat) :
    wordNNN op (fieldNNN w) = w := by
  conv_rhs => rw [word_eq_wordNNN w, topNibble_of_key h hk]

/-- A word whose key's class is `op`, in format `XNN`. -/
theorem wordXNN_of_key {k : Word} (h : decodeKey w = k) {op : BitVec 4} (hk : leadingNibble k = op.toNat) :
    wordXNN op (fieldX w) (fieldNN w) = w := by
  conv_rhs => rw [word_eq_wordXNN w, topNibble_of_key h hk]

/-- A word whose key's class is `op`, in format `XYN`. -/
theorem wordXYN_of_key {k : Word} (h : decodeKey w = k) {op : BitVec 4} (hk : leadingNibble k = op.toNat) :
    wordXYN op (fieldX w) (fieldY w) (fieldN w) = w := by
  conv_rhs => rw [word_eq_wordXYN w, topNibble_of_key h hk]

/-- In class 8 the key keeps the sub-operation nibble. -/
theorem fieldN_of_key_eight {k : Word} (h : decodeKey w = k) (hk : leadingNibble k = 0x8) : fieldN w = fieldN k := by
  have hw : leadingNibble w = 0x8 := (leadingNibble_of_key h).trans hk
  rw [← h, decodeKey_of_eight hw, word_eq_wordXYN w, mask_F00F_wordXYN]
  simp

/-- In classes E and F the key keeps the sub-operation byte. -/
theorem fieldNN_of_key_EF {k : Word} (h : decodeKey w = k) (hk : leadingNibble k = 0xE ∨ leadingNibble k = 0xF) :
    fieldNN w = fieldNN k := by
  have hw : leadingNibble w = 0xE ∨ leadingNibble w = 0xF := by rwa [leadingNibble_of_key h]
  rw [← h, decodeKey_of_EF hw, word_eq_wordXNN w, mask_F0FF_wordXNN]
  simp

/-! ### The handler set -/

/-- A word that decodes has a key with a handler, in the baseline exactly when the instruction is baseline. -/
theorem decodeKey_mem_of_ok {w : Word} {i : Instr} (h : decodeWord w = .ok i) :
    decodeKey w ∈ handlerSet true ∧ (i.isBaseline = true ↔ decodeKey w ∈ handlerSet false) := by
  unfold decodeWord at h
  split at h
  all_goals rename_i hk
  all_goals first
    | (cases h
       have := congrArg (BitVec.ofNat 16) hk
       rw [BitVec.ofNat_toNat, BitVec.setWidth_eq] at this
       rw [this]
       refine ⟨by decide, ?_⟩
       first
       | exact iff_of_true rfl (by decide)
       | exact iff_of_false (by simp [Instr.isBaseline]) (by decide))
    | cases h

theorem handlerSet_true : handlerSet true =
    [0x00E0, 0x00EE, 0x1000, 0x2000, 0x3000, 0x4000, 0x5000, 0x6000, 0x7000, 0x8000, 0x8001, 0x8002] ++
    [0x8003, 0x8004, 0x8005, 0x8006, 0x8007, 0x800E, 0x9000, 0xA000, 0xB000, 0xC000, 0xD000] ++
    [0xE09E, 0xE0A1, 0xF007, 0xF00A, 0xF015, 0xF018, 0xF01E, 0xF029, 0xF033, 0xF055, 0xF065] := by decide

/-- A word that does not decode has no handler in any configuration (30_encoding.md R81). -/
theorem decodeKey_not_mem_of_error {w : Word} {e : DecodeReject} (h : decodeWord w = .error e) : decodeKey w ∉ handlerSet true := by
  intro hm
  obtain ⟨i, hi⟩ : ∃ i, decodeWord w = .ok i := by
    rw [handlerSet_true] at hm
    simp only [List.cons_append, List.nil_append, List.mem_cons, List.not_mem_nil, or_false] at hm
    rcases hm with h | h | h | h | h | h | h | h | h | h | h | h | h | h | h | h | h | h | h | h | h | h | h | h | h | h |
      h | h | h | h | h | h | h | h
    exacts [⟨_, decodeWord_00E0 h⟩, ⟨_, decodeWord_00EE h⟩, ⟨_, decodeWord_1000 h⟩, ⟨_, decodeWord_2000 h⟩, ⟨_, decodeWord_3000 h⟩,
      ⟨_, decodeWord_4000 h⟩, ⟨_, decodeWord_5000 h⟩, ⟨_, decodeWord_6000 h⟩, ⟨_, decodeWord_7000 h⟩, ⟨_, decodeWord_8000 h⟩, ⟨_, decodeWord_8001 h⟩, ⟨_, decodeWord_8002 h⟩,
      ⟨_, decodeWord_8003 h⟩, ⟨_, decodeWord_8004 h⟩, ⟨_, decodeWord_8005 h⟩, ⟨_, decodeWord_8006 h⟩, ⟨_, decodeWord_8007 h⟩, ⟨_, decodeWord_800E h⟩,
      ⟨_, decodeWord_9000 h⟩, ⟨_, decodeWord_A000 h⟩, ⟨_, decodeWord_B000 h⟩, ⟨_, decodeWord_C000 h⟩, ⟨_, decodeWord_D000 h⟩, ⟨_, decodeWord_E09E h⟩,
      ⟨_, decodeWord_E0A1 h⟩, ⟨_, decodeWord_F007 h⟩, ⟨_, decodeWord_F00A h⟩, ⟨_, decodeWord_F015 h⟩, ⟨_, decodeWord_F018 h⟩, ⟨_, decodeWord_F01E h⟩,
      ⟨_, decodeWord_F029 h⟩, ⟨_, decodeWord_F033 h⟩, ⟨_, decodeWord_F055 h⟩, ⟨_, decodeWord_F065 h⟩]
  rw [hi] at h; cases h

/-- The baseline's handlers are among all handlers (30_encoding.md R76). -/
theorem handlerSet_mono {k : Word} (h : k ∈ handlerSet false) : k ∈ handlerSet true := by
  obtain ⟨r, hr, rfl⟩ := List.mem_map.mp h
  exact List.mem_map.mpr ⟨r, List.mem_filter.mpr ⟨(List.mem_filter.mp hr).1, by simp⟩, rfl⟩

end Sys2Proof
end

