-- ==== Sys2Proof/Laws/Display.lean ====
section
/-! SUPPORT. The display: one cell flipped, the pixel loop of a draw, the canonical form, and which cells the set
pixels of a sprite name. -/

namespace Sys2Proof.Machine

/-! ### Flipping cells -/

theorem Display.wfFrom_cons {lo hi k : Nat} {rest : Display} :
    Display.wfFrom lo hi (k :: rest) = true ↔ lo ≤ k ∧ k < hi ∧ Display.wfFrom (k + 1) hi rest = true := by
  simp [Display.wfFrom, and_assoc]

theorem Display.wfFrom_mono {lo lo' hi : Nat} {d : Display} (h : Display.wfFrom lo hi d = true) (hl : lo' ≤ lo) :
    Display.wfFrom lo' hi d = true := by
  cases d with
  | nil => rfl
  | cons k rest =>
    rw [Display.wfFrom_cons] at h ⊢
    exact ⟨by omega, h.2⟩

/-- Every listed cell lies between the bounds. -/
theorem Display.bounds_of_mem {lo hi k : Nat} {d : Display} (h : Display.wfFrom lo hi d = true) (hk : k ∈ d) :
    lo ≤ k ∧ k < hi := by
  induction d generalizing lo with
  | nil => simp at hk
  | cons j rest ih =>
    have h' := Display.wfFrom_cons.mp h
    rcases List.mem_cons.mp hk with rfl | hk
    · exact ⟨h'.1, h'.2.1⟩
    · have := ih h'.2.2 hk
      omega

theorem Display.mem_toggle {lo hi : Nat} {d : Display} (h : Display.wfFrom lo hi d = true) (k j : Nat) :
    j ∈ Display.toggle d k ↔ (j ∈ d ∧ j ≠ k) ∨ (j ∉ d ∧ j = k) := by
  induction d generalizing lo with
  | nil => simp [Display.toggle]
  | cons a rest ih =>
    have h' := Display.wfFrom_cons.mp h
    have hb := fun b (hb : b ∈ rest) => Display.bounds_of_mem h'.2.2 hb
    simp only [Display.toggle]
    split
    · have : k ∉ rest := fun hk => by have := hb k hk; omega
      grind
    · split
      · have : k ∉ rest := fun hk => by have := hb k hk; omega
        grind
      · rw [List.mem_cons, ih h'.2.2]
        grind

theorem Display.wfFrom_toggle {lo hi k : Nat} {d : Display} (h : Display.wfFrom lo hi d = true) (hlo : lo ≤ k)
    (hhi : k < hi) : Display.wfFrom lo hi (Display.toggle d k) = true := by
  induction d generalizing lo with
  | nil => exact Display.wfFrom_cons.mpr ⟨hlo, hhi, rfl⟩
  | cons a rest ih =>
    have h' := Display.wfFrom_cons.mp h
    simp only [Display.toggle]
    split
    · exact Display.wfFrom_cons.mpr ⟨hlo, hhi, Display.wfFrom_cons.mpr ⟨by omega, h'.2⟩⟩
    · split
      · exact Display.wfFrom_mono h'.2.2 (by omega)
      · exact Display.wfFrom_cons.mpr ⟨h'.1, h'.2.1, ih h'.2.2 (by omega)⟩

/-- Two canonical displays with the same cells on are equal. -/
theorem Display.ext_from {lo hi : Nat} {d d' : Display} (h : Display.wfFrom lo hi d = true)
    (h' : Display.wfFrom lo hi d' = true) (e : ∀ k, k ∈ d ↔ k ∈ d') : d = d' := by
  induction d generalizing lo d' with
  | nil =>
    cases d' with
    | nil => rfl
    | cons a rest => simpa using (e a).mpr (by simp)
  | cons a rest ih =>
    have ha := Display.wfFrom_cons.mp h
    cases d' with
    | nil => simpa using (e a).mp (by simp)
    | cons b rest' =>
      have hb := Display.wfFrom_cons.mp h'
      have b1 := fun k (hk : k ∈ rest) => Display.bounds_of_mem ha.2.2 hk
      have b2 := fun k (hk : k ∈ rest') => Display.bounds_of_mem hb.2.2 hk
      have hab : a = b := by
        have h1 := (e a).mp (by simp)
        have h2 := (e b).mpr (by simp)
        rcases List.mem_cons.mp h1 with h1 | h1
        · exact h1
        · rcases List.mem_cons.mp h2 with h2 | h2
          · exact h2.symm
          · have := b1 _ h2
            have := b2 _ h1
            omega
      subst hab
      refine congrArg _ (ih ha.2.2 hb.2.2 fun k => ?_)
      have := e k
      grind

theorem Display.ext_mem {p : Params} {d d' : Display} (h : Display.wf p d = true) (h' : Display.wf p d' = true)
    (e : ∀ k, k ∈ d ↔ k ∈ d') : d = d' :=
  Display.ext_from h h' e

/-! ### The pixel loop -/

theorem Display.drawCells_fst (d : Display) (ks : List Nat) :
    (Display.drawCells d ks).1 = ks.foldl Display.toggle d := by
  induction ks generalizing d with
  | nil => rfl
  | cons k ks ih => exact ih (Display.toggle d k)

theorem Display.wf_drawCells {p : Params} {d : Display} (h : Display.wf p d = true) {ks : List Nat}
    (hk : ∀ k ∈ ks, k < p.width * p.height) : Display.wf p (Display.drawCells d ks).1 = true := by
  induction ks generalizing d with
  | nil => exact h
  | cons k ks ih =>
    exact ih (d := Display.toggle d k) (Display.wfFrom_toggle h (Nat.zero_le k) (hk k (by simp)))
      fun j hj => hk j (by simp [hj])

/-- Each cell of a repetition-free list is flipped once, every other cell keeps its value (41_display.md R101). -/
theorem Display.mem_drawCells {p : Params} {d : Display} (h : Display.wf p d = true) {ks : List Nat} (hn : ks.Nodup)
    (hk : ∀ k ∈ ks, k < p.width * p.height) (j : Nat) :
    j ∈ (Display.drawCells d ks).1 ↔ (j ∈ d ∧ j ∉ ks) ∨ (j ∉ d ∧ j ∈ ks) := by
  induction ks generalizing d with
  | nil => simp [Display.drawCells]
  | cons k ks ih =>
    have hw : Display.wf p (Display.toggle d k) = true :=
      Display.wfFrom_toggle h (Nat.zero_le k) (hk k (by simp))
    have hn' := List.nodup_cons.mp hn
    have ih' := ih (d := Display.toggle d k) hw hn'.2 fun j hj => hk j (by simp [hj])
    have ht := Display.mem_toggle h k j
    show j ∈ (Display.drawCells (Display.toggle d k) ks).1 ↔ _
    grind

/-- The collision of a draw: some cell was on before it (41_display.md R103). -/
theorem Display.drawCells_hit {p : Params} {d : Display} (h : Display.wf p d = true) {ks : List Nat} (hn : ks.Nodup)
    (hk : ∀ k ∈ ks, k < p.width * p.height) : (Display.drawCells d ks).2 = true ↔ ∃ k ∈ ks, k ∈ d := by
  induction ks generalizing d with
  | nil => simp [Display.drawCells]
  | cons k ks ih =>
    have hw : Display.wf p (Display.toggle d k) = true :=
      Display.wfFrom_toggle h (Nat.zero_le k) (hk k (by simp))
    have hn' := List.nodup_cons.mp hn
    have ih' := ih (d := Display.toggle d k) hw hn'.2 fun j hj => hk j (by simp [hj])
    have ht := fun j => Display.mem_toggle h k j
    simp only [Display.drawCells, Bool.or_eq_true, List.contains_iff_mem, ih', List.exists_mem_cons_iff]
    refine or_congr_right ⟨?_, ?_⟩
    · rintro ⟨j, hj, hjd⟩
      refine ⟨j, hj, ?_⟩
      rcases (ht j).mp hjd with h1 | h1
      · exact h1.1
      · exact absurd (h1.2 ▸ hj) hn'.1
    · rintro ⟨j, hj, hjd⟩
      exact ⟨j, hj, (ht j).mpr (.inl ⟨hjd, fun e => hn'.1 (e ▸ hj)⟩)⟩

/-! ### Cells as element numbers -/

theorem cellIndex_lt {p : Params} {x y : Nat} (hx : x < p.width) (hy : y < p.height) :
    cellIndex p x y < p.width * p.height := by
  unfold cellIndex
  nlinarith

theorem cellIndex_inj {p : Params} {x y x' y' : Nat} (hx : x < p.width) (hx' : x' < p.width)
    (h : cellIndex p x y = cellIndex p x' y') : x = x' ∧ y = y' := by
  have e : ∀ {x y : Nat}, x < p.width → cellIndex p x y / p.width = y ∧ cellIndex p x y % p.width = x := by
    intro x y hx
    unfold cellIndex
    rw [Nat.add_comm, Nat.add_mul_div_right _ _ (by omega), Nat.add_mul_mod_self_right]
    simp [Nat.div_eq_of_lt hx, Nat.mod_eq_of_lt hx]
  exact ⟨by rw [← (e (y := y) hx).2, h, (e hx').2], by rw [← (e (y := y) hx).1, h, (e hx').1]⟩

theorem State.cell_iff (s : State) (x y : Nat) : s.cell x y = true ↔ cellIndex s.params x y ∈ s.disp := by
  simp [State.cell]

/-! ### The pixels of a sprite -/

theorem mem_rowColumns {b : Byte} {c : Nat} : c ∈ rowColumns b ↔ c < 8 ∧ b.getLsbD (7 - c) = true := by
  simp [rowColumns]

/-- The set pixels: row `r` of the sprite at `y0 + r`, set bit `7 - c` at column `x0 + c` (41_display.md R101). -/
theorem mem_spritePixels {x0 y0 : Nat} {rows : List Byte} {q : Nat × Nat} :
    q ∈ spritePixels x0 y0 rows ↔
      ∃ r c b, rows[r]? = some b ∧ c < 8 ∧ b.getLsbD (7 - c) = true ∧ q = (x0 + c, y0 + r) := by
  induction rows generalizing y0 with
  | nil => simp [spritePixels]
  | cons b rows ih =>
    simp only [spritePixels, List.mem_append, List.mem_map, mem_rowColumns, ih]
    constructor
    · rintro (⟨c, ⟨hc, hb⟩, rfl⟩ | ⟨r, c, b', hr, hc, hb, rfl⟩)
      · exact ⟨0, c, b, rfl, hc, hb, rfl⟩
      · exact ⟨r + 1, c, b', hr, hc, hb, by rw [show y0 + (r + 1) = y0 + 1 + r by omega]⟩
    · rintro ⟨r, c, b', hr, hc, hb, rfl⟩
      cases r with
      | zero =>
        simp only [List.getElem?_cons_zero, Option.some.injEq] at hr
        exact .inl ⟨c, ⟨hc, hr ▸ hb⟩, rfl⟩
      | succ r => exact .inr ⟨r, c, b', hr, hc, hb, by rw [show y0 + (r + 1) = y0 + 1 + r by omega]⟩

theorem nodup_spritePixels (x0 y0 : Nat) (rows : List Byte) : (spritePixels x0 y0 rows).Nodup := by
  induction rows generalizing y0 with
  | nil => exact List.nodup_nil
  | cons b rows ih =>
    refine List.nodup_append.mpr ⟨?_, ih (y0 + 1), ?_⟩
    · refine List.Nodup.map (fun a c h => ?_) (List.Nodup.filter _ List.nodup_range)
      simpa using h
    · intro p hp q hq
      obtain ⟨c, _, rfl⟩ := List.mem_map.mp hp
      obtain ⟨r, c', b', _, _, _, rfl⟩ := mem_spritePixels.mp hq
      simp
      omega

/-! ### Placing the pixels -/

/-- Where a set pixel lands, per `DRAW_EDGE`, if it lands (41_display.md R102). -/
def landing (p : Params) (q : Nat × Nat) : Option Nat :=
  if onDisplay p q then some (cellIndex p q.1 q.2)
  else
    match p.drawEdge with
    | .fault => none
    | .wrap => some (cellIndex p (q.1 % p.width) (q.2 % p.height))
    | .clip => none

/-- What `placePixels` can answer: the landings in order, or under `FAULT` the first position off the display. -/
theorem placePixels_cases (p : Params) (qs : List (Nat × Nat)) :
    ((p.drawEdge = .fault → ∀ q ∈ qs, onDisplay p q = true) ∧ placePixels p qs = .ok (qs.filterMap (landing p))) ∨
    (p.drawEdge = .fault ∧ ∃ q, qs.find? (fun q => !onDisplay p q) = some q ∧ placePixels p qs = .error q) := by
  induction qs with
  | nil => exact .inl ⟨by simp, rfl⟩
  | cons q rest ih =>
    by_cases hq : onDisplay p q = true
    · rcases ih with ⟨h1, h2⟩ | ⟨h1, q', h2, h3⟩
      · refine .inl ⟨fun hf => by simpa [hq] using h1 hf, ?_⟩
        simp [placePixels, hq, h2, landing, Except.map]
      · exact .inr ⟨h1, q', by simpa [List.find?, hq] using h2, by simp [placePixels, hq, h3, Except.map]⟩
    · rw [Bool.not_eq_true] at hq
      cases he : p.drawEdge with
      | fault => exact .inr ⟨rfl, q, by simp [List.find?, hq], by simp [placePixels, hq, he]⟩
      | wrap =>
        rcases ih with ⟨_, h2⟩ | ⟨h1, _⟩
        · exact .inl ⟨by simp, by simp [placePixels, hq, he, h2, landing, Except.map]⟩
        · simp [he] at h1
      | clip =>
        rcases ih with ⟨_, h2⟩ | ⟨h1, _⟩
        · exact .inl ⟨by simp, by simp [placePixels, hq, he, h2, landing]⟩
        · simp [he] at h1

/-- A pixel lands on the display. -/
theorem landing_lt {p : Params} {q : Nat × Nat} {k : Nat} (h : landing p q = some k) : k < p.width * p.height := by
  have hw : 0 < p.width := by unfold Params.width; split <;> decide
  have hh : 0 < p.height := by unfold Params.height; split <;> decide
  unfold landing at h
  split at h
  · rename_i ho
    simp [onDisplay] at ho
    cases h
    exact cellIndex_lt ho.1 ho.2
  · split at h <;> cases h
    exact cellIndex_lt (Nat.mod_lt _ hw) (Nat.mod_lt _ hh)

/-- The cells of a draw are on the display. -/
theorem placePixels_lt {p : Params} {qs : List (Nat × Nat)} {ks : List Nat} (h : placePixels p qs = .ok ks) :
    ∀ k ∈ ks, k < p.width * p.height := by
  rcases placePixels_cases p qs with ⟨_, e⟩ | ⟨_, _, _, e⟩ <;> rw [h] at e <;> cases e
  intro k hk
  obtain ⟨q, _, hq⟩ := List.mem_filterMap.mp hk
  exact landing_lt hq

/-- Placing the pixels depends on the display mode and `DRAW_EDGE` only. -/
theorem placePixels_congr {p p' : Params} (hm : p.displayMode = p'.displayMode) (he : p.drawEdge = p'.drawEdge)
    (qs : List (Nat × Nat)) : placePixels p qs = placePixels p' qs := by
  have hw : p.width = p'.width := by simp only [Params.width, hm]
  have hh : p.height = p'.height := by simp only [Params.height, hm]
  induction qs with
  | nil => rfl
  | cons q rest ih =>
    simp only [placePixels, onDisplay, cellIndex, hw, hh, he, ih]
    rfl

end Sys2Proof.Machine
end

