-- ==== Sys2Proof/Laws/Memory.lean ====
section
/-! SUPPORT. Memory: a read after a write, the canonical form, and what MemRead and MemWrite can answer. -/

namespace Sys2Proof.Machine

theorem Memory.wfFrom_cons {lo : Nat} {e : Host.Cell} {rest : Memory} :
    Memory.wfFrom lo (e :: rest) = true ↔
      lo ≤ e.1 ∧ e.1 < Config.memSize ∧ e.2 ≠ Memory.unlisted e.1 ∧ Memory.wfFrom (e.1 + 1) rest = true := by
  simp [Memory.wfFrom, and_assoc]

theorem Memory.wfFrom_mono {lo lo' : Nat} {m : Memory} (h : Memory.wfFrom lo m = true) (hl : lo' ≤ lo) :
    Memory.wfFrom lo' m = true := by
  cases m with
  | nil => rfl
  | cons e rest =>
    rw [Memory.wfFrom_cons] at h ⊢
    exact ⟨by omega, h.2⟩

/-- Below the first listed address every byte is the unlisted one. -/
theorem Memory.read_below {lo a : Nat} {m : Memory} (h : Memory.wfFrom lo m = true) (ha : a < lo) :
    m.read a = Memory.unlisted a := by
  induction m generalizing lo with
  | nil => rfl
  | cons e rest ih =>
    rw [Memory.wfFrom_cons] at h
    have hne : a ≠ e.1 := by omega
    simp only [Memory.read, hne, if_false]
    exact ih h.2.2.2 (by omega)

theorem Memory.read_writeFrom {lo : Nat} {m : Memory} (h : Memory.wfFrom lo m = true) (a b : Nat) (v : Byte) :
    (m.write a v).read b = if b = a then v else m.read b := by
  induction m generalizing lo with
  | nil =>
    simp only [Memory.write]
    split <;> simp_all [Memory.read]
  | cons e rest ih =>
    rw [Memory.wfFrom_cons] at h
    have hb := Memory.read_below h.2.2.2 (a := e.1) (by omega)
    have hlow : ∀ c, c < e.1 → Memory.read rest c = Memory.unlisted c := fun c hc =>
      Memory.read_below h.2.2.2 (Nat.lt_succ_of_lt hc)
    simp only [Memory.write]
    split
    · split <;> simp only [Memory.read] <;> grind
    · split
      · split <;> simp only [Memory.read] <;> grind
      · simp only [Memory.read, ih h.2.2.2]
        grind

theorem Memory.wfFrom_write {lo : Nat} {m : Memory} (h : Memory.wfFrom lo m = true) {a : Nat} (v : Byte)
    (hlo : lo ≤ a) (ha : a < Config.memSize) : Memory.wfFrom lo (m.write a v) = true := by
  induction m generalizing lo with
  | nil =>
    simp only [Memory.write]
    split
    · rfl
    · rw [Memory.wfFrom_cons]
      exact ⟨hlo, ha, by assumption, rfl⟩
  | cons e rest ih =>
    have h' := Memory.wfFrom_cons.mp h
    simp only [Memory.write]
    split
    · split
      · exact h
      · rw [Memory.wfFrom_cons]
        exact ⟨hlo, ha, by assumption, Memory.wfFrom_cons.mpr ⟨by simp only; omega, h'.2⟩⟩
    · split
      · split
        · exact Memory.wfFrom_mono h'.2.2.2 (by omega)
        · rw [Memory.wfFrom_cons]
          subst a
          exact ⟨h'.1, h'.2.1, by assumption, h'.2.2.2⟩
      · rw [Memory.wfFrom_cons]
        exact ⟨h'.1, h'.2.1, h'.2.2.1, ih h'.2.2.2 (by simp only; omega)⟩

/-- A read after a write gives the value written, at that address and no other. -/
theorem Memory.read_write {m : Memory} (h : m.wf = true) (a b : Nat) (v : Byte) :
    (m.write a v).read b = if b = a then v else m.read b :=
  Memory.read_writeFrom h a b v

/-- A write keeps the canonical form. -/
theorem Memory.wf_write {m : Memory} (h : m.wf = true) {a : Nat} (v : Byte) (ha : a < Config.memSize) :
    (m.write a v).wf = true :=
  Memory.wfFrom_write h v (Nat.zero_le a) ha

/-- Storing bytes in the array keeps the canonical form. -/
theorem Memory.wf_writeBytes {m : Memory} (h : m.wf = true) (a : Nat) (vs : List Byte)
    (ha : a + vs.length ≤ Config.memSize) : (m.writeBytes a vs).wf = true := by
  induction vs generalizing m a with
  | nil => exact h
  | cons v vs ih =>
    simp only [List.length_cons] at ha
    exact ih (Memory.wf_write h v (by omega)) (a + 1) (by omega)

/-- A read after storing bytes: the stored byte inside the range, the old byte outside it. -/
theorem Memory.read_writeBytes {m : Memory} (h : m.wf = true) (a b : Nat) (vs : List Byte)
    (ha : a + vs.length ≤ Config.memSize) :
    (m.writeBytes a vs).read b = if a ≤ b then (vs[b - a]?).getD (m.read b) else m.read b := by
  induction vs generalizing m a with
  | nil => simp [Memory.writeBytes]
  | cons v vs ih =>
    simp only [List.length_cons] at ha
    rw [Memory.writeBytes, ih (Memory.wf_write h v (by omega)) (a + 1) (by omega), Memory.read_write h]
    rcases Nat.lt_trichotomy b a with hb | rfl | hb
    · simp [show ¬ a + 1 ≤ b by omega, show ¬ a ≤ b by omega, show b ≠ a by omega]
    · simp
    · obtain ⟨k, rfl⟩ : ∃ k, b = a + 1 + k := ⟨b - (a + 1), by omega⟩
      simp [show a + 1 + k - a = k + 1 by omega, show a ≤ a + 1 + k by omega, show a + 1 + k ≠ a by omega]

/-- Equal reads make equal memories, since the form is canonical. -/
theorem Memory.ext_from {lo : Nat} {m m' : Memory} (h : Memory.wfFrom lo m = true) (h' : Memory.wfFrom lo m' = true)
    (e : ∀ a, m.read a = m'.read a) : m = m' := by
  induction m generalizing lo m' with
  | nil =>
    cases m' with
    | nil => rfl
    | cons c rest =>
      have hc := Memory.wfFrom_cons.mp h'
      have := e c.1
      simp only [Memory.read, if_true] at this
      exact absurd this.symm hc.2.2.1
  | cons c rest ih =>
    have hc := Memory.wfFrom_cons.mp h
    cases m' with
    | nil =>
      have := e c.1
      simp only [Memory.read, if_true] at this
      exact absurd this hc.2.2.1
    | cons d rest' =>
      have hd := Memory.wfFrom_cons.mp h'
      have h1 := e c.1
      have h2 := e d.1
      have b1 := fun a ha => Memory.read_below hc.2.2.2 (a := a) ha
      have b2 := fun a ha => Memory.read_below hd.2.2.2 (a := a) ha
      simp only [Memory.read, if_true] at h1 h2
      have key : c.1 = d.1 := by
        rcases Nat.lt_trichotomy c.1 d.1 with hlt | heq | hlt
        · rw [if_neg (by omega), b2 _ (by omega)] at h1
          exact absurd h1 hc.2.2.1
        · exact heq
        · rw [if_neg (by omega), b1 _ (by omega)] at h2
          exact absurd h2.symm hd.2.2.1
      rw [if_pos key] at h1
      have hcd : c = d := Prod.ext key h1
      subst hcd
      refine congrArg _ (ih hc.2.2.2 hd.2.2.2 fun a => ?_)
      have := e a
      simp only [Memory.read] at this
      by_cases ha : a = c.1
      · rw [ha, b1 _ (by omega), b2 _ (by omega)]
      · simpa [ha] using this

/-- Two canonical memories that read alike are equal. -/
theorem Memory.ext_read {m m' : Memory} (h : m.wf = true) (h' : m'.wf = true) (e : ∀ a, m.read a = m'.read a) :
    m = m' :=
  Memory.ext_from h h' e

/-! ### MemRead and MemWrite -/

/-- MemRead answers the bytes of a range in the array (20_memory.md R54). -/
theorem memRead_ok {m : Memory} {a n : Nat} (h : a + n ≤ Config.memSize) :
    memRead m a n = .ok ((List.range n).map fun k => m.read (a + k)) := by
  rw [memRead, if_neg (by have : Config.memSize = 4096 := rfl; omega)]

/-- MemRead of a range outside the array names the first address above 0xFFF (20_memory.md R54). -/
theorem memRead_error {m : Memory} {a n : Nat} (h : a + n > Config.memSize) :
    memRead m a n = .error (max a Config.memSize) := by
  rw [memRead, if_pos (by have : Config.memSize = 4096 := rfl; omega)]

/-- What MemRead can answer. -/
theorem memRead_cases (m : Memory) (a n : Nat) :
    (a + n ≤ Config.memSize ∧ memRead m a n = .ok ((List.range n).map fun k => m.read (a + k))) ∨
    (a + n > Config.memSize ∧ memRead m a n = .error (max a Config.memSize)) := by
  by_cases h : a + n ≤ Config.memSize
  · exact .inl ⟨h, memRead_ok h⟩
  · exact .inr ⟨by omega, memRead_error (by omega)⟩

/-- MemWrite stores a range inside 0x200 to 0xFFF (20_memory.md R55). -/
theorem memWrite_ok {m : Memory} {a : Nat} {bs : List Byte} (hlo : Config.romBase ≤ a)
    (h : a + bs.length ≤ Config.memSize) : memWrite m a bs = .ok (m.writeBytes a bs) := by
  rw [memWrite, if_neg (by have : Config.memSize = 4096 := rfl; omega)]

/-- What MemWrite can answer (20_memory.md R55). -/
theorem memWrite_cases (m : Memory) (a : Nat) (bs : List Byte) :
    ((Config.romBase ≤ a ∧ a + bs.length ≤ Config.memSize) ∧ memWrite m a bs = .ok (m.writeBytes a bs)) ∨
    ((a < Config.romBase ∨ a + bs.length > Config.memSize) ∧ memWrite m a bs = .error a) := by
  by_cases h : Config.romBase ≤ a ∧ a + bs.length ≤ Config.memSize
  · exact .inl ⟨h, memWrite_ok h.1 h.2⟩
  · refine .inr ⟨by omega, ?_⟩
    rw [memWrite, if_pos (by have : Config.memSize = 4096 := rfl; omega)]

end Sys2Proof.Machine
end

