-- ==== Sys2Proof/Laws/State.lean ====
section
/-! SUPPORT. One lemma per field per update of State, each true by rfl, and what register reads give after writes. -/

namespace Sys2Proof.Machine

/-! ### writeV -/

@[simp] theorem State.writeV_params (s : State) (x : Nibble) (b : Byte) : (s.writeV x b).params = s.params := rfl
@[simp] theorem State.writeV_mem (s : State) (x : Nibble) (b : Byte) : (s.writeV x b).mem = s.mem := rfl
@[simp] theorem State.writeV_V (s : State) (x : Nibble) (b : Byte) : (s.writeV x b).V = s.V.set x b := rfl
@[simp] theorem State.writeV_I (s : State) (x : Nibble) (b : Byte) : (s.writeV x b).I = s.I := rfl
@[simp] theorem State.writeV_pc (s : State) (x : Nibble) (b : Byte) : (s.writeV x b).pc = s.pc := rfl
@[simp] theorem State.writeV_stack (s : State) (x : Nibble) (b : Byte) : (s.writeV x b).stack = s.stack := rfl
@[simp] theorem State.writeV_DT (s : State) (x : Nibble) (b : Byte) : (s.writeV x b).DT = s.DT := rfl
@[simp] theorem State.writeV_ST (s : State) (x : Nibble) (b : Byte) : (s.writeV x b).ST = s.ST := rfl
@[simp] theorem State.writeV_disp (s : State) (x : Nibble) (b : Byte) : (s.writeV x b).disp = s.disp := rfl
@[simp] theorem State.writeV_keys (s : State) (x : Nibble) (b : Byte) : (s.writeV x b).keys = s.keys := rfl
@[simp] theorem State.writeV_timerAcc (s : State) (x : Nibble) (b : Byte) : (s.writeV x b).timerAcc = s.timerAcc := rfl
@[simp] theorem State.writeV_cycleAcc (s : State) (x : Nibble) (b : Byte) : (s.writeV x b).cycleAcc = s.cycleAcc := rfl
@[simp] theorem State.writeV_spc (s : State) (x : Nibble) (b : Byte) : (s.writeV x b).spc = s.spc := rfl
@[simp] theorem State.writeV_halted (s : State) (x : Nibble) (b : Byte) : (s.writeV x b).halted = s.halted := rfl
@[simp] theorem State.writeV_fault (s : State) (x : Nibble) (b : Byte) : (s.writeV x b).fault = s.fault := rfl
@[simp] theorem State.writeV_log (s : State) (x : Nibble) (b : Byte) : (s.writeV x b).log = s.log := rfl
@[simp] theorem State.writeV_paused (s : State) (x : Nibble) (b : Byte) : (s.writeV x b).paused = s.paused := rfl
@[simp] theorem State.writeV_rngDraws (s : State) (x : Nibble) (b : Byte) : (s.writeV x b).rngDraws = s.rngDraws := rfl

/-! ### setI -/

@[simp] theorem State.setI_params (s : State) (a : Word) : (s.setI a).params = s.params := rfl
@[simp] theorem State.setI_mem (s : State) (a : Word) : (s.setI a).mem = s.mem := rfl
@[simp] theorem State.setI_V (s : State) (a : Word) : (s.setI a).V = s.V := rfl
@[simp] theorem State.setI_I (s : State) (a : Word) : (s.setI a).I = a := rfl
@[simp] theorem State.setI_pc (s : State) (a : Word) : (s.setI a).pc = s.pc := rfl
@[simp] theorem State.setI_stack (s : State) (a : Word) : (s.setI a).stack = s.stack := rfl
@[simp] theorem State.setI_DT (s : State) (a : Word) : (s.setI a).DT = s.DT := rfl
@[simp] theorem State.setI_ST (s : State) (a : Word) : (s.setI a).ST = s.ST := rfl
@[simp] theorem State.setI_disp (s : State) (a : Word) : (s.setI a).disp = s.disp := rfl
@[simp] theorem State.setI_keys (s : State) (a : Word) : (s.setI a).keys = s.keys := rfl
@[simp] theorem State.setI_timerAcc (s : State) (a : Word) : (s.setI a).timerAcc = s.timerAcc := rfl
@[simp] theorem State.setI_cycleAcc (s : State) (a : Word) : (s.setI a).cycleAcc = s.cycleAcc := rfl
@[simp] theorem State.setI_spc (s : State) (a : Word) : (s.setI a).spc = s.spc := rfl
@[simp] theorem State.setI_halted (s : State) (a : Word) : (s.setI a).halted = s.halted := rfl
@[simp] theorem State.setI_fault (s : State) (a : Word) : (s.setI a).fault = s.fault := rfl
@[simp] theorem State.setI_log (s : State) (a : Word) : (s.setI a).log = s.log := rfl
@[simp] theorem State.setI_paused (s : State) (a : Word) : (s.setI a).paused = s.paused := rfl
@[simp] theorem State.setI_rngDraws (s : State) (a : Word) : (s.setI a).rngDraws = s.rngDraws := rfl

/-! ### setPc -/

@[simp] theorem State.setPc_params (s : State) (a : Word) : (s.setPc a).params = s.params := rfl
@[simp] theorem State.setPc_mem (s : State) (a : Word) : (s.setPc a).mem = s.mem := rfl
@[simp] theorem State.setPc_V (s : State) (a : Word) : (s.setPc a).V = s.V := rfl
@[simp] theorem State.setPc_I (s : State) (a : Word) : (s.setPc a).I = s.I := rfl
@[simp] theorem State.setPc_pc (s : State) (a : Word) : (s.setPc a).pc = a := rfl
@[simp] theorem State.setPc_stack (s : State) (a : Word) : (s.setPc a).stack = s.stack := rfl
@[simp] theorem State.setPc_DT (s : State) (a : Word) : (s.setPc a).DT = s.DT := rfl
@[simp] theorem State.setPc_ST (s : State) (a : Word) : (s.setPc a).ST = s.ST := rfl
@[simp] theorem State.setPc_disp (s : State) (a : Word) : (s.setPc a).disp = s.disp := rfl
@[simp] theorem State.setPc_keys (s : State) (a : Word) : (s.setPc a).keys = s.keys := rfl
@[simp] theorem State.setPc_timerAcc (s : State) (a : Word) : (s.setPc a).timerAcc = s.timerAcc := rfl
@[simp] theorem State.setPc_cycleAcc (s : State) (a : Word) : (s.setPc a).cycleAcc = s.cycleAcc := rfl
@[simp] theorem State.setPc_spc (s : State) (a : Word) : (s.setPc a).spc = s.spc := rfl
@[simp] theorem State.setPc_halted (s : State) (a : Word) : (s.setPc a).halted = s.halted := rfl
@[simp] theorem State.setPc_fault (s : State) (a : Word) : (s.setPc a).fault = s.fault := rfl
@[simp] theorem State.setPc_log (s : State) (a : Word) : (s.setPc a).log = s.log := rfl
@[simp] theorem State.setPc_paused (s : State) (a : Word) : (s.setPc a).paused = s.paused := rfl
@[simp] theorem State.setPc_rngDraws (s : State) (a : Word) : (s.setPc a).rngDraws = s.rngDraws := rfl

/-! ### setDT -/

@[simp] theorem State.setDT_params (s : State) (b : Byte) : (s.setDT b).params = s.params := rfl
@[simp] theorem State.setDT_mem (s : State) (b : Byte) : (s.setDT b).mem = s.mem := rfl
@[simp] theorem State.setDT_V (s : State) (b : Byte) : (s.setDT b).V = s.V := rfl
@[simp] theorem State.setDT_I (s : State) (b : Byte) : (s.setDT b).I = s.I := rfl
@[simp] theorem State.setDT_pc (s : State) (b : Byte) : (s.setDT b).pc = s.pc := rfl
@[simp] theorem State.setDT_stack (s : State) (b : Byte) : (s.setDT b).stack = s.stack := rfl
@[simp] theorem State.setDT_DT (s : State) (b : Byte) : (s.setDT b).DT = b := rfl
@[simp] theorem State.setDT_ST (s : State) (b : Byte) : (s.setDT b).ST = s.ST := rfl
@[simp] theorem State.setDT_disp (s : State) (b : Byte) : (s.setDT b).disp = s.disp := rfl
@[simp] theorem State.setDT_keys (s : State) (b : Byte) : (s.setDT b).keys = s.keys := rfl
@[simp] theorem State.setDT_timerAcc (s : State) (b : Byte) : (s.setDT b).timerAcc = s.timerAcc := rfl
@[simp] theorem State.setDT_cycleAcc (s : State) (b : Byte) : (s.setDT b).cycleAcc = s.cycleAcc := rfl
@[simp] theorem State.setDT_spc (s : State) (b : Byte) : (s.setDT b).spc = s.spc := rfl
@[simp] theorem State.setDT_halted (s : State) (b : Byte) : (s.setDT b).halted = s.halted := rfl
@[simp] theorem State.setDT_fault (s : State) (b : Byte) : (s.setDT b).fault = s.fault := rfl
@[simp] theorem State.setDT_log (s : State) (b : Byte) : (s.setDT b).log = s.log := rfl
@[simp] theorem State.setDT_paused (s : State) (b : Byte) : (s.setDT b).paused = s.paused := rfl
@[simp] theorem State.setDT_rngDraws (s : State) (b : Byte) : (s.setDT b).rngDraws = s.rngDraws := rfl

/-! ### setST -/

@[simp] theorem State.setST_params (s : State) (b : Byte) : (s.setST b).params = s.params := rfl
@[simp] theorem State.setST_mem (s : State) (b : Byte) : (s.setST b).mem = s.mem := rfl
@[simp] theorem State.setST_V (s : State) (b : Byte) : (s.setST b).V = s.V := rfl
@[simp] theorem State.setST_I (s : State) (b : Byte) : (s.setST b).I = s.I := rfl
@[simp] theorem State.setST_pc (s : State) (b : Byte) : (s.setST b).pc = s.pc := rfl
@[simp] theorem State.setST_stack (s : State) (b : Byte) : (s.setST b).stack = s.stack := rfl
@[simp] theorem State.setST_DT (s : State) (b : Byte) : (s.setST b).DT = s.DT := rfl
@[simp] theorem State.setST_ST (s : State) (b : Byte) : (s.setST b).ST = b := rfl
@[simp] theorem State.setST_disp (s : State) (b : Byte) : (s.setST b).disp = s.disp := rfl
@[simp] theorem State.setST_keys (s : State) (b : Byte) : (s.setST b).keys = s.keys := rfl
@[simp] theorem State.setST_timerAcc (s : State) (b : Byte) : (s.setST b).timerAcc = s.timerAcc := rfl
@[simp] theorem State.setST_cycleAcc (s : State) (b : Byte) : (s.setST b).cycleAcc = s.cycleAcc := rfl
@[simp] theorem State.setST_spc (s : State) (b : Byte) : (s.setST b).spc = s.spc := rfl
@[simp] theorem State.setST_halted (s : State) (b : Byte) : (s.setST b).halted = s.halted := rfl
@[simp] theorem State.setST_fault (s : State) (b : Byte) : (s.setST b).fault = s.fault := rfl
@[simp] theorem State.setST_log (s : State) (b : Byte) : (s.setST b).log = s.log := rfl
@[simp] theorem State.setST_paused (s : State) (b : Byte) : (s.setST b).paused = s.paused := rfl
@[simp] theorem State.setST_rngDraws (s : State) (b : Byte) : (s.setST b).rngDraws = s.rngDraws := rfl

/-! ### push -/

@[simp] theorem State.push_params (s : State) (a : Word) : (s.push a).params = s.params := rfl
@[simp] theorem State.push_mem (s : State) (a : Word) : (s.push a).mem = s.mem := rfl
@[simp] theorem State.push_V (s : State) (a : Word) : (s.push a).V = s.V := rfl
@[simp] theorem State.push_I (s : State) (a : Word) : (s.push a).I = s.I := rfl
@[simp] theorem State.push_pc (s : State) (a : Word) : (s.push a).pc = s.pc := rfl
@[simp] theorem State.push_stack (s : State) (a : Word) : (s.push a).stack = a :: s.stack := rfl
@[simp] theorem State.push_DT (s : State) (a : Word) : (s.push a).DT = s.DT := rfl
@[simp] theorem State.push_ST (s : State) (a : Word) : (s.push a).ST = s.ST := rfl
@[simp] theorem State.push_disp (s : State) (a : Word) : (s.push a).disp = s.disp := rfl
@[simp] theorem State.push_keys (s : State) (a : Word) : (s.push a).keys = s.keys := rfl
@[simp] theorem State.push_timerAcc (s : State) (a : Word) : (s.push a).timerAcc = s.timerAcc := rfl
@[simp] theorem State.push_cycleAcc (s : State) (a : Word) : (s.push a).cycleAcc = s.cycleAcc := rfl
@[simp] theorem State.push_spc (s : State) (a : Word) : (s.push a).spc = s.spc := rfl
@[simp] theorem State.push_halted (s : State) (a : Word) : (s.push a).halted = s.halted := rfl
@[simp] theorem State.push_fault (s : State) (a : Word) : (s.push a).fault = s.fault := rfl
@[simp] theorem State.push_log (s : State) (a : Word) : (s.push a).log = s.log := rfl
@[simp] theorem State.push_paused (s : State) (a : Word) : (s.push a).paused = s.paused := rfl
@[simp] theorem State.push_rngDraws (s : State) (a : Word) : (s.push a).rngDraws = s.rngDraws := rfl

/-! ### takeFatal -/

@[simp] theorem State.takeFatal_params (s : State) (r : FaultRecord) : (s.takeFatal r).params = s.params := rfl
@[simp] theorem State.takeFatal_mem (s : State) (r : FaultRecord) : (s.takeFatal r).mem = s.mem := rfl
@[simp] theorem State.takeFatal_V (s : State) (r : FaultRecord) : (s.takeFatal r).V = s.V := rfl
@[simp] theorem State.takeFatal_I (s : State) (r : FaultRecord) : (s.takeFatal r).I = s.I := rfl
@[simp] theorem State.takeFatal_pc (s : State) (r : FaultRecord) : (s.takeFatal r).pc = s.pc := rfl
@[simp] theorem State.takeFatal_stack (s : State) (r : FaultRecord) : (s.takeFatal r).stack = s.stack := rfl
@[simp] theorem State.takeFatal_DT (s : State) (r : FaultRecord) : (s.takeFatal r).DT = s.DT := rfl
@[simp] theorem State.takeFatal_ST (s : State) (r : FaultRecord) : (s.takeFatal r).ST = s.ST := rfl
@[simp] theorem State.takeFatal_disp (s : State) (r : FaultRecord) : (s.takeFatal r).disp = s.disp := rfl
@[simp] theorem State.takeFatal_keys (s : State) (r : FaultRecord) : (s.takeFatal r).keys = s.keys := rfl
@[simp] theorem State.takeFatal_timerAcc (s : State) (r : FaultRecord) : (s.takeFatal r).timerAcc = s.timerAcc := rfl
@[simp] theorem State.takeFatal_cycleAcc (s : State) (r : FaultRecord) : (s.takeFatal r).cycleAcc = s.cycleAcc := rfl
@[simp] theorem State.takeFatal_spc (s : State) (r : FaultRecord) : (s.takeFatal r).spc = s.spc := rfl
@[simp] theorem State.takeFatal_halted (s : State) (r : FaultRecord) : (s.takeFatal r).halted = true := rfl
@[simp] theorem State.takeFatal_fault (s : State) (r : FaultRecord) : (s.takeFatal r).fault = some r := rfl
@[simp] theorem State.takeFatal_log (s : State) (r : FaultRecord) : (s.takeFatal r).log = s.log := rfl
@[simp] theorem State.takeFatal_paused (s : State) (r : FaultRecord) : (s.takeFatal r).paused = s.paused := rfl
@[simp] theorem State.takeFatal_rngDraws (s : State) (r : FaultRecord) : (s.takeFatal r).rngDraws = s.rngDraws := rfl

/-! ### takeLogged -/

@[simp] theorem State.takeLogged_params (s : State) (r : FaultRecord) : (s.takeLogged r).params = s.params := rfl
@[simp] theorem State.takeLogged_mem (s : State) (r : FaultRecord) : (s.takeLogged r).mem = s.mem := rfl
@[simp] theorem State.takeLogged_V (s : State) (r : FaultRecord) : (s.takeLogged r).V = s.V := rfl
@[simp] theorem State.takeLogged_I (s : State) (r : FaultRecord) : (s.takeLogged r).I = s.I := rfl
@[simp] theorem State.takeLogged_pc (s : State) (r : FaultRecord) : (s.takeLogged r).pc = s.pc := rfl
@[simp] theorem State.takeLogged_stack (s : State) (r : FaultRecord) : (s.takeLogged r).stack = s.stack := rfl
@[simp] theorem State.takeLogged_DT (s : State) (r : FaultRecord) : (s.takeLogged r).DT = s.DT := rfl
@[simp] theorem State.takeLogged_ST (s : State) (r : FaultRecord) : (s.takeLogged r).ST = s.ST := rfl
@[simp] theorem State.takeLogged_disp (s : State) (r : FaultRecord) : (s.takeLogged r).disp = s.disp := rfl
@[simp] theorem State.takeLogged_keys (s : State) (r : FaultRecord) : (s.takeLogged r).keys = s.keys := rfl
@[simp] theorem State.takeLogged_timerAcc (s : State) (r : FaultRecord) : (s.takeLogged r).timerAcc = s.timerAcc := rfl
@[simp] theorem State.takeLogged_cycleAcc (s : State) (r : FaultRecord) : (s.takeLogged r).cycleAcc = s.cycleAcc := rfl
@[simp] theorem State.takeLogged_spc (s : State) (r : FaultRecord) : (s.takeLogged r).spc = s.spc := rfl
@[simp] theorem State.takeLogged_halted (s : State) (r : FaultRecord) : (s.takeLogged r).halted = s.halted := rfl
@[simp] theorem State.takeLogged_fault (s : State) (r : FaultRecord) : (s.takeLogged r).fault = s.fault := rfl
@[simp] theorem State.takeLogged_log (s : State) (r : FaultRecord) : (s.takeLogged r).log = s.log ++ [r] := rfl
@[simp] theorem State.takeLogged_paused (s : State) (r : FaultRecord) : (s.takeLogged r).paused = s.paused := rfl
@[simp] theorem State.takeLogged_rngDraws (s : State) (r : FaultRecord) : (s.takeLogged r).rngDraws = s.rngDraws := rfl

/-! ### loadRegs -/

@[simp] theorem State.loadRegs_params (s : State) (bs : List Byte) : (s.loadRegs bs).params = s.params := rfl
@[simp] theorem State.loadRegs_mem (s : State) (bs : List Byte) : (s.loadRegs bs).mem = s.mem := rfl
@[simp] theorem State.loadRegs_V (s : State) (bs : List Byte) : (s.loadRegs bs).V = Vector.ofFn fun k : Fin 16 => (bs[k.val]?).getD s.V[k] := rfl
@[simp] theorem State.loadRegs_I (s : State) (bs : List Byte) : (s.loadRegs bs).I = s.I := rfl
@[simp] theorem State.loadRegs_pc (s : State) (bs : List Byte) : (s.loadRegs bs).pc = s.pc := rfl
@[simp] theorem State.loadRegs_stack (s : State) (bs : List Byte) : (s.loadRegs bs).stack = s.stack := rfl
@[simp] theorem State.loadRegs_DT (s : State) (bs : List Byte) : (s.loadRegs bs).DT = s.DT := rfl
@[simp] theorem State.loadRegs_ST (s : State) (bs : List Byte) : (s.loadRegs bs).ST = s.ST := rfl
@[simp] theorem State.loadRegs_disp (s : State) (bs : List Byte) : (s.loadRegs bs).disp = s.disp := rfl
@[simp] theorem State.loadRegs_keys (s : State) (bs : List Byte) : (s.loadRegs bs).keys = s.keys := rfl
@[simp] theorem State.loadRegs_timerAcc (s : State) (bs : List Byte) : (s.loadRegs bs).timerAcc = s.timerAcc := rfl
@[simp] theorem State.loadRegs_cycleAcc (s : State) (bs : List Byte) : (s.loadRegs bs).cycleAcc = s.cycleAcc := rfl
@[simp] theorem State.loadRegs_spc (s : State) (bs : List Byte) : (s.loadRegs bs).spc = s.spc := rfl
@[simp] theorem State.loadRegs_halted (s : State) (bs : List Byte) : (s.loadRegs bs).halted = s.halted := rfl
@[simp] theorem State.loadRegs_fault (s : State) (bs : List Byte) : (s.loadRegs bs).fault = s.fault := rfl
@[simp] theorem State.loadRegs_log (s : State) (bs : List Byte) : (s.loadRegs bs).log = s.log := rfl
@[simp] theorem State.loadRegs_paused (s : State) (bs : List Byte) : (s.loadRegs bs).paused = s.paused := rfl
@[simp] theorem State.loadRegs_rngDraws (s : State) (bs : List Byte) : (s.loadRegs bs).rngDraws = s.rngDraws := rfl

/-! ### advancePc -/

@[simp] theorem State.advancePc_params (s : State) : (s.advancePc).params = s.params := rfl
@[simp] theorem State.advancePc_mem (s : State) : (s.advancePc).mem = s.mem := rfl
@[simp] theorem State.advancePc_V (s : State) : (s.advancePc).V = s.V := rfl
@[simp] theorem State.advancePc_I (s : State) : (s.advancePc).I = s.I := rfl
@[simp] theorem State.advancePc_pc (s : State) : (s.advancePc).pc = s.pc + 2 := rfl
@[simp] theorem State.advancePc_stack (s : State) : (s.advancePc).stack = s.stack := rfl
@[simp] theorem State.advancePc_DT (s : State) : (s.advancePc).DT = s.DT := rfl
@[simp] theorem State.advancePc_ST (s : State) : (s.advancePc).ST = s.ST := rfl
@[simp] theorem State.advancePc_disp (s : State) : (s.advancePc).disp = s.disp := rfl
@[simp] theorem State.advancePc_keys (s : State) : (s.advancePc).keys = s.keys := rfl
@[simp] theorem State.advancePc_timerAcc (s : State) : (s.advancePc).timerAcc = s.timerAcc := rfl
@[simp] theorem State.advancePc_cycleAcc (s : State) : (s.advancePc).cycleAcc = s.cycleAcc := rfl
@[simp] theorem State.advancePc_spc (s : State) : (s.advancePc).spc = s.spc := rfl
@[simp] theorem State.advancePc_halted (s : State) : (s.advancePc).halted = s.halted := rfl
@[simp] theorem State.advancePc_fault (s : State) : (s.advancePc).fault = s.fault := rfl
@[simp] theorem State.advancePc_log (s : State) : (s.advancePc).log = s.log := rfl
@[simp] theorem State.advancePc_paused (s : State) : (s.advancePc).paused = s.paused := rfl
@[simp] theorem State.advancePc_rngDraws (s : State) : (s.advancePc).rngDraws = s.rngDraws := rfl

/-! ### writeFlag -/

@[simp] theorem State.writeFlag_params (s : State) (c : Bool) : (s.writeFlag c).params = s.params := rfl
@[simp] theorem State.writeFlag_mem (s : State) (c : Bool) : (s.writeFlag c).mem = s.mem := rfl
@[simp] theorem State.writeFlag_I (s : State) (c : Bool) : (s.writeFlag c).I = s.I := rfl
@[simp] theorem State.writeFlag_pc (s : State) (c : Bool) : (s.writeFlag c).pc = s.pc := rfl
@[simp] theorem State.writeFlag_stack (s : State) (c : Bool) : (s.writeFlag c).stack = s.stack := rfl
@[simp] theorem State.writeFlag_DT (s : State) (c : Bool) : (s.writeFlag c).DT = s.DT := rfl
@[simp] theorem State.writeFlag_ST (s : State) (c : Bool) : (s.writeFlag c).ST = s.ST := rfl
@[simp] theorem State.writeFlag_disp (s : State) (c : Bool) : (s.writeFlag c).disp = s.disp := rfl
@[simp] theorem State.writeFlag_keys (s : State) (c : Bool) : (s.writeFlag c).keys = s.keys := rfl
@[simp] theorem State.writeFlag_timerAcc (s : State) (c : Bool) : (s.writeFlag c).timerAcc = s.timerAcc := rfl
@[simp] theorem State.writeFlag_cycleAcc (s : State) (c : Bool) : (s.writeFlag c).cycleAcc = s.cycleAcc := rfl
@[simp] theorem State.writeFlag_spc (s : State) (c : Bool) : (s.writeFlag c).spc = s.spc := rfl
@[simp] theorem State.writeFlag_halted (s : State) (c : Bool) : (s.writeFlag c).halted = s.halted := rfl
@[simp] theorem State.writeFlag_fault (s : State) (c : Bool) : (s.writeFlag c).fault = s.fault := rfl
@[simp] theorem State.writeFlag_log (s : State) (c : Bool) : (s.writeFlag c).log = s.log := rfl
@[simp] theorem State.writeFlag_paused (s : State) (c : Bool) : (s.writeFlag c).paused = s.paused := rfl
@[simp] theorem State.writeFlag_rngDraws (s : State) (c : Bool) : (s.writeFlag c).rngDraws = s.rngDraws := rfl

/-! ### skipIf -/

@[simp] theorem State.skipIf_params (s : State) (c : Bool) : (s.skipIf c).params = s.params := by
  unfold State.skipIf; split <;> rfl
@[simp] theorem State.skipIf_mem (s : State) (c : Bool) : (s.skipIf c).mem = s.mem := by
  unfold State.skipIf; split <;> rfl
@[simp] theorem State.skipIf_V (s : State) (c : Bool) : (s.skipIf c).V = s.V := by
  unfold State.skipIf; split <;> rfl
@[simp] theorem State.skipIf_I (s : State) (c : Bool) : (s.skipIf c).I = s.I := by
  unfold State.skipIf; split <;> rfl
@[simp] theorem State.skipIf_stack (s : State) (c : Bool) : (s.skipIf c).stack = s.stack := by
  unfold State.skipIf; split <;> rfl
@[simp] theorem State.skipIf_DT (s : State) (c : Bool) : (s.skipIf c).DT = s.DT := by
  unfold State.skipIf; split <;> rfl
@[simp] theorem State.skipIf_ST (s : State) (c : Bool) : (s.skipIf c).ST = s.ST := by
  unfold State.skipIf; split <;> rfl
@[simp] theorem State.skipIf_disp (s : State) (c : Bool) : (s.skipIf c).disp = s.disp := by
  unfold State.skipIf; split <;> rfl
@[simp] theorem State.skipIf_keys (s : State) (c : Bool) : (s.skipIf c).keys = s.keys := by
  unfold State.skipIf; split <;> rfl
@[simp] theorem State.skipIf_timerAcc (s : State) (c : Bool) : (s.skipIf c).timerAcc = s.timerAcc := by
  unfold State.skipIf; split <;> rfl
@[simp] theorem State.skipIf_cycleAcc (s : State) (c : Bool) : (s.skipIf c).cycleAcc = s.cycleAcc := by
  unfold State.skipIf; split <;> rfl
@[simp] theorem State.skipIf_spc (s : State) (c : Bool) : (s.skipIf c).spc = s.spc := by
  unfold State.skipIf; split <;> rfl
@[simp] theorem State.skipIf_halted (s : State) (c : Bool) : (s.skipIf c).halted = s.halted := by
  unfold State.skipIf; split <;> rfl
@[simp] theorem State.skipIf_fault (s : State) (c : Bool) : (s.skipIf c).fault = s.fault := by
  unfold State.skipIf; split <;> rfl
@[simp] theorem State.skipIf_log (s : State) (c : Bool) : (s.skipIf c).log = s.log := by
  unfold State.skipIf; split <;> rfl
@[simp] theorem State.skipIf_paused (s : State) (c : Bool) : (s.skipIf c).paused = s.paused := by
  unfold State.skipIf; split <;> rfl
@[simp] theorem State.skipIf_rngDraws (s : State) (c : Bool) : (s.skipIf c).rngDraws = s.rngDraws := by
  unfold State.skipIf; split <;> rfl

/-! ### advanceI -/

@[simp] theorem State.advanceI_params (s : State) (k : Nat) : (s.advanceI k).params = s.params := by
  unfold State.advanceI; split <;> rfl
@[simp] theorem State.advanceI_mem (s : State) (k : Nat) : (s.advanceI k).mem = s.mem := by
  unfold State.advanceI; split <;> rfl
@[simp] theorem State.advanceI_V (s : State) (k : Nat) : (s.advanceI k).V = s.V := by
  unfold State.advanceI; split <;> rfl
@[simp] theorem State.advanceI_pc (s : State) (k : Nat) : (s.advanceI k).pc = s.pc := by
  unfold State.advanceI; split <;> rfl
@[simp] theorem State.advanceI_stack (s : State) (k : Nat) : (s.advanceI k).stack = s.stack := by
  unfold State.advanceI; split <;> rfl
@[simp] theorem State.advanceI_DT (s : State) (k : Nat) : (s.advanceI k).DT = s.DT := by
  unfold State.advanceI; split <;> rfl
@[simp] theorem State.advanceI_ST (s : State) (k : Nat) : (s.advanceI k).ST = s.ST := by
  unfold State.advanceI; split <;> rfl
@[simp] theorem State.advanceI_disp (s : State) (k : Nat) : (s.advanceI k).disp = s.disp := by
  unfold State.advanceI; split <;> rfl
@[simp] theorem State.advanceI_keys (s : State) (k : Nat) : (s.advanceI k).keys = s.keys := by
  unfold State.advanceI; split <;> rfl
@[simp] theorem State.advanceI_timerAcc (s : State) (k : Nat) : (s.advanceI k).timerAcc = s.timerAcc := by
  unfold State.advanceI; split <;> rfl
@[simp] theorem State.advanceI_cycleAcc (s : State) (k : Nat) : (s.advanceI k).cycleAcc = s.cycleAcc := by
  unfold State.advanceI; split <;> rfl
@[simp] theorem State.advanceI_spc (s : State) (k : Nat) : (s.advanceI k).spc = s.spc := by
  unfold State.advanceI; split <;> rfl
@[simp] theorem State.advanceI_halted (s : State) (k : Nat) : (s.advanceI k).halted = s.halted := by
  unfold State.advanceI; split <;> rfl
@[simp] theorem State.advanceI_fault (s : State) (k : Nat) : (s.advanceI k).fault = s.fault := by
  unfold State.advanceI; split <;> rfl
@[simp] theorem State.advanceI_log (s : State) (k : Nat) : (s.advanceI k).log = s.log := by
  unfold State.advanceI; split <;> rfl
@[simp] theorem State.advanceI_paused (s : State) (k : Nat) : (s.advanceI k).paused = s.paused := by
  unfold State.advanceI; split <;> rfl
@[simp] theorem State.advanceI_rngDraws (s : State) (k : Nat) : (s.advanceI k).rngDraws = s.rngDraws := by
  unfold State.advanceI; split <;> rfl

@[simp] theorem State.skipIf_pc (s : State) (c : Bool) : (s.skipIf c).pc = if c then s.pc + 2 else s.pc := by
  unfold State.skipIf; split <;> rfl

@[simp] theorem State.advanceI_I (s : State) (k : Nat) :
    (s.advanceI k).I = if s.params.ldstIncI then s.I + BitVec.ofNat 16 k else s.I := by
  unfold State.advanceI; split <;> rfl

/-! ### Reading a register after a write -/

theorem State.readV_writeV (s : State) (x y : Nibble) (b : Byte) :
    (s.writeV x b).readV y = if x = y then b else s.readV y := by
  simp [State.readV, State.writeV, Vector.getElem_set, Fin.ext_iff]

@[simp] theorem State.readV_writeV_same (s : State) (x : Nibble) (b : Byte) : (s.writeV x b).readV x = b := by
  simp [State.readV_writeV]

theorem State.readV_writeV_other (s : State) {x y : Nibble} (h : x ≠ y) (b : Byte) :
    (s.writeV x b).readV y = s.readV y := by
  simp [State.readV_writeV, h]

theorem State.readV_writeFlag (s : State) (c : Bool) (y : Nibble) :
    (s.writeFlag c).readV y = if regVF = y then (if c then 1 else 0) else s.readV y := by
  simp [State.writeFlag, State.readV_writeV]

theorem State.readV_loadRegs (s : State) (bs : List Byte) (y : Nibble) :
    (s.loadRegs bs).readV y = (bs[y.val]?).getD (s.readV y) := by
  simp [State.readV, State.loadRegs]

@[simp] theorem State.readV_setI (s : State) (a : Word) (y : Nibble) : (s.setI a).readV y = s.readV y := rfl
@[simp] theorem State.readV_setPc (s : State) (a : Word) (y : Nibble) : (s.setPc a).readV y = s.readV y := rfl
@[simp] theorem State.readV_setDT (s : State) (b : Byte) (y : Nibble) : (s.setDT b).readV y = s.readV y := rfl
@[simp] theorem State.readV_setST (s : State) (b : Byte) (y : Nibble) : (s.setST b).readV y = s.readV y := rfl
@[simp] theorem State.readV_push (s : State) (a : Word) (y : Nibble) : (s.push a).readV y = s.readV y := rfl
@[simp] theorem State.readV_takeFatal (s : State) (r : FaultRecord) (y : Nibble) : (s.takeFatal r).readV y = s.readV y := rfl
@[simp] theorem State.readV_takeLogged (s : State) (r : FaultRecord) (y : Nibble) : (s.takeLogged r).readV y = s.readV y := rfl
@[simp] theorem State.readV_advancePc (s : State) (y : Nibble) : (s.advancePc).readV y = s.readV y := rfl

@[simp] theorem State.readV_skipIf (s : State) (c : Bool) (y : Nibble) : (s.skipIf c).readV y = s.readV y := by
  unfold State.skipIf; split <;> rfl

@[simp] theorem State.readV_advanceI (s : State) (k : Nat) (y : Nibble) : (s.advanceI k).readV y = s.readV y := by
  unfold State.advanceI; split <;> rfl

@[simp] theorem State.readV_mk_mem (s : State) (m : Memory) (y : Nibble) : { s with mem := m }.readV y = s.readV y := rfl

@[simp] theorem State.readV_mk_disp (s : State) (d : Display) (y : Nibble) :
    { s with disp := d }.readV y = s.readV y := rfl

@[simp] theorem State.readV_mk_stack (s : State) (l : List Word) (y : Nibble) :
    { s with stack := l }.readV y = s.readV y := rfl

@[simp] theorem State.readV_mk_rngDraws (s : State) (n : Nat) (y : Nibble) :
    { s with rngDraws := n }.readV y = s.readV y := rfl

/-- Two register files that read alike are equal. -/
theorem State.V_ext {v w : Vector Byte 16} (h : ∀ k : Nibble, v[k] = w[k]) : v = w := by
  apply Vector.ext
  intro i hi
  exact h ⟨i, hi⟩

/-- The stored register bytes, one by one (44_index_memory.md R174). -/
theorem State.lowRegs_getElem? (s : State) (k : Nat) (y : Nibble) :
    (s.lowRegs k)[y.val]? = if y.val < k then some (s.readV y) else none := by
  simp only [State.lowRegs, State.readV, List.getElem?_take]
  split
  · rw [List.getElem?_eq_getElem (by simp)]
    simp
  · rfl

theorem State.lowRegs_length (s : State) (x : Nibble) : (s.lowRegs (x.val + 1)).length = x.val + 1 := by
  have := x.isLt
  simp [State.lowRegs]

end Sys2Proof.Machine
end

