-- ==== Sys2Proof/Laws/Ops.lean ====
section
/-! SUPPORT. What each shared operation can do, said once: raising a fault, the extension gate, fetch, the cycle, and
the host transactions that need no run. -/

namespace Sys2Proof.Machine

/-! ### Raising a fault -/

/-- A handler's fatal fault is a next state that differs in `halted` and `fault` only (60_exceptions.md R212). -/
theorem raise_eq (kind : FaultKind) (info : FaultInfo) (i : Instr) (s : State) :
    raise kind info i s =
      .next { s with halted := true, fault := some ⟨kind, some (s.pc - 2), some (encode i), info⟩ } := rfl

/-- A DispatchFault is a next state that differs in `log` only (60_exceptions.md R213). -/
theorem dispatchFault_eq (w : Word) (s : State) :
    dispatchFault w s = .next { s with log := s.log ++ [⟨.dispatch, some (s.pc - 2), some w, .none⟩] } := rfl

/-- A FetchFault is a next state that differs in `halted` and `fault` only (30_encoding.md R74). -/
theorem fetchFault_eq (s : State) :
    fetchFault s = .next { s with halted := true, fault := some ⟨.fetch, some s.pc, none, .none⟩ } := rfl

/-- With `EXT_OPS = true` an extension runs its handler (30_encoding.md R76). -/
@[simp] theorem extension_on {s : State} (h : s.params.extOps = true) (i : Instr) (r : Result) : extension i s r = r := by
  simp [extension, h]

/-- In the baseline an extension raises DispatchFault (00_scope.md R5). -/
@[simp] theorem extension_off {s : State} (h : s.params.extOps = false) (i : Instr) (r : Result) :
    extension i s r = dispatchFault (encode i) s := by
  simp [extension, h]

/-- What the extension gate can answer. -/
theorem extension_cases (i : Instr) (s : State) (r : Result) :
    (s.params.extOps = true ∧ extension i s r = r) ∨
    (s.params.extOps = false ∧ extension i s r = dispatchFault (encode i) s) := by
  cases h : s.params.extOps <;> simp [h]

/-- With the default font an unlisted address below 0x200 holds what power-on puts there (20_memory.md R51). -/
theorem unlisted_eq_lowByte (a : Nat) : Memory.unlisted a = Params.default.lowByte a := rfl

/-! ### Fetch and the cycle -/

/-- A fetch inside the array gives the big-endian word at `pc` (30_encoding.md R74). -/
theorem fetchWord_some {s : State} (h : s.pc.toNat ≤ 0xFFE) :
    fetchWord s = some (wordOfBytes (s.mem.read s.pc.toNat) (s.mem.read (s.pc.toNat + 1))) := by
  rw [fetchWord, if_neg (by have : Config.memSize = 4096 := rfl; omega)]

/-- A fetch at `pc ≥ 0xFFF` gives nothing (30_encoding.md R74). -/
theorem fetchWord_none {s : State} (h : 0xFFF ≤ s.pc.toNat) : fetchWord s = none := by
  rw [fetchWord, if_pos (by have : Config.memSize = 4096 := rfl; omega)]

theorem pc_of_fetchWord {s : State} {w : Word} (h : fetchWord s = some w) : s.pc.toNat ≤ 0xFFE := by
  by_contra hc
  rw [fetchWord_none (by omega)] at h
  cases h

/-- What one cycle can do, every case (30_encoding.md R78). -/
theorem step_cases (s : State) :
    (s.halted = true ∧ step s = .next s) ∨
    (s.halted = false ∧ fetchWord s = none ∧ step s = fetchFault s) ∨
    (s.halted = false ∧ ∃ w, fetchWord s = some w ∧
      ((∃ e, decodeWord w = .error e ∧ step s = dispatchFault w s.advancePc) ∨
       (∃ i, decodeWord w = .ok i ∧ step s = exec i s.advancePc))) := by
  unfold step
  cases hh : s.halted with
  | true => exact .inl ⟨rfl, rfl⟩
  | false =>
    cases hf : fetchWord s with
    | none => exact .inr (.inl ⟨rfl, rfl, rfl⟩)
    | some w =>
      refine .inr (.inr ⟨rfl, w, rfl, ?_⟩)
      cases hd : decodeWord w with
      | error e => exact .inl ⟨e, rfl, by simp [hd]⟩
      | ok i => exact .inr ⟨i, rfl, by simp [hd]⟩

/-! ### Fields a shared update of the handlers keeps -/

@[simp] theorem State.draw_disp (s : State) (ks : List Nat) : (s.draw ks).disp = (Display.drawCells s.disp ks).1 := rfl

theorem State.draw_eq (s : State) (ks : List Nat) :
    s.draw ks = { s with disp := (s.draw ks).disp, V := (s.draw ks).V } := rfl

theorem State.readV_draw (s : State) (ks : List Nat) (y : Nibble) :
    (s.draw ks).readV y = if regVF = y then (if (Display.drawCells s.disp ks).2 then 1 else 0) else s.readV y := by
  simp [State.draw, State.readV_writeFlag]

theorem State.readV_writeWithFlag (s : State) (x : Nibble) (b : Byte) (c : Bool) (y : Nibble) :
    (s.writeWithFlag x b c).readV y =
      if regVF = y then (if c then 1 else 0) else if x = y then b else s.readV y := by
  simp [State.writeWithFlag, State.readV_writeFlag, State.readV_writeV]

theorem State.writeWithFlag_eq (s : State) (x : Nibble) (b : Byte) (c : Bool) :
    s.writeWithFlag x b c = { s with V := (s.writeWithFlag x b c).V } := rfl

/-! ### Frames of the shared updates -/

/-- Writing one register changes that register only. -/
theorem onlyRegs_writeV (s : State) (x : Nibble) (b : Byte) : onlyRegs [x] s (s.writeV x b) := by
  refine ⟨fun r hr => ?_, fun _ => rfl, rfl⟩
  rw [State.readV_writeV_other]
  simp only [List.mem_singleton] at hr
  exact fun h => hr h.symm

/-- Writing a result and a flag changes V[X] and VF only. -/
theorem onlyRegs_writeWithFlag (s : State) (x : Nibble) (b : Byte) (c : Bool) :
    onlyRegs [x, 0xF] s (s.writeWithFlag x b c) := by
  refine ⟨fun r hr => ?_, fun _ => rfl, rfl⟩
  simp only [List.mem_cons, List.not_mem_nil, or_false, not_or] at hr
  rw [State.readV_writeWithFlag, if_neg (fun h => hr.2 h.symm), if_neg (fun h => hr.1 h.symm)]

/-- The result stands in V[X] unless X = F (43_alu.md R140). -/
theorem State.readV_writeWithFlag_result (s : State) {x : Nibble} (h : x ≠ 0xF) (b : Byte) (c : Bool) :
    (s.writeWithFlag x b c).readV x = b := by
  rw [State.readV_writeWithFlag, if_neg (fun e => h e.symm), if_pos rfl]

/-- The flag stands in VF, also with X = F (43_alu.md R140). -/
theorem State.readV_writeWithFlag_flag (s : State) (x : Nibble) (b : Byte) (c : Bool) :
    (s.writeWithFlag x b c).readV 0xF = if c then 1 else 0 := by
  rw [State.readV_writeWithFlag, if_pos (show regVF = 0xF from rfl)]

/-- A skip changes `pc` only (42_control_flow.md R119). -/
theorem onlyPc_skipIf (s : State) (c : Bool) : onlyPc s (s.skipIf c) := by
  cases c <;> exact ⟨fun _ _ => rfl, fun _ => rfl, rfl⟩

/-! ### Operand forms -/

/-- A register value below 16 names a key (45_keys_timers.md R190). -/
theorem State.keyOf_some {s : State} {k : Byte} (h : k.toNat < 16) : s.keyOf k = some s.keys[k.toNat] := by
  simp [State.keyOf, h]

/-- A register value above 0x0F names none (45_keys_timers.md R190). -/
theorem State.keyOf_none {s : State} {k : Byte} (h : 16 ≤ k.toNat) : s.keyOf k = none := by
  simp [State.keyOf]
  omega

/-- No key is found exactly when none is pressed (45_keys_timers.md R196). -/
theorem State.firstKey_none {s : State} : s.firstKey = none ↔ ∀ k : Nibble, s.keys[k] = false := by
  simp [State.firstKey]

/-- The key found is pressed and every lower one is not (45_keys_timers.md R196). -/
theorem State.firstKey_some {s : State} {k : Nibble} :
    s.firstKey = some k ↔ s.keys[k] = true ∧ ∀ j : Nibble, j < k → s.keys[j] = false := by
  simp only [State.firstKey, List.find?_eq_some_iff_getElem]
  constructor
  · rintro ⟨hk, i, hi, hik, hj⟩
    refine ⟨by simpa using hk, fun j hjk => ?_⟩
    have hi' : i = k.val := by simpa [Fin.ext_iff] using hik
    have := hj j.val (hi' ▸ hjk)
    simpa using this
  · rintro ⟨hk, hj⟩
    refine ⟨by simpa using hk, k.val, by simp, by simp, fun j hjk => ?_⟩
    have hj16 : j < 16 := by omega
    have := hj ⟨j, hj16⟩ (by simpa [Fin.lt_def] using hjk)
    simpa using this

end Sys2Proof.Machine
end

