-- ==== Sys2Proof/Laws/Exec.lean ====
section
/-! SUPPORT. What the meaning of any instruction can do, said once: it takes a fatal fault, it is an extension that the
baseline logs, or it has its own effect, field by field. -/

namespace Sys2Proof.Machine

/-- What the own effect of an instruction may change, field by field. -/
structure HandlerEffect (i : Instr) (s t : State) : Prop where
  /-- An extension has an effect only with `EXT_OPS = true`. -/
  enabled : i.isBaseline = false → s.params.extOps = true
  /-- The fields no instruction writes. -/
  frame : t = { s with mem := t.mem, V := t.V, I := t.I, pc := t.pc, stack := t.stack, DT := t.DT, ST := t.ST,
                       disp := t.disp, rngDraws := t.rngDraws }
  /-- Memory changes through MemWrite only, with `EXT_OPS = true` only. -/
  mem : t.mem = s.mem ∨ s.params.extOps = true ∧ ∃ a bs, memWrite s.mem a bs = .ok t.mem
  /-- The display changes by 00E0 and by a draw whose cells were placed. -/
  disp : t.disp = s.disp ∨ i = .cls ∧ t.disp = [] ∨
    ∃ x y n qs ks, i = .drw x y n ∧ placePixels s.params qs = .ok ks ∧ t.disp = (Display.drawCells s.disp ks).1
  /-- The stack changes by 2NNN and 00EE. -/
  stack : t.stack = s.stack ∨ (∃ nnn, i = .call nnn) ∧ s.stack.length < s.params.stackDepth ∧ t.stack = s.pc :: s.stack ∨
    i = .ret ∧ ∃ a, s.stack = a :: t.stack ∧ t.pc = a
  /-- The delay timer changes by FX15. -/
  DT : t.DT = s.DT ∨ ∃ x, i = .ldDTVx x
  /-- The sound timer changes by FX18. -/
  ST : t.ST = s.ST ∨ ∃ x, i = .ldSTVx x
  /-- Where `pc` can go. -/
  pc : t.pc = s.pc ∨ t.pc = s.pc + 2 ∨ t.pc = s.pc - 2 ∨ t.pc.toNat < 0x1100 - 1 ∨
    i = .ret ∧ ∃ a, s.stack = a :: t.stack ∧ t.pc = a
  /-- The oracle is asked by CXNN only. -/
  rngDraws : t.rngDraws = s.rngDraws ∨ s.params.extOps = true

/-! The fields no instruction writes by its own effect. -/

theorem HandlerEffect.params {i : Instr} {s t : State} (h : HandlerEffect i s t) : t.params = s.params := by
  rw [h.frame]

theorem HandlerEffect.keys {i : Instr} {s t : State} (h : HandlerEffect i s t) : t.keys = s.keys := by
  rw [h.frame]

theorem HandlerEffect.timerAcc {i : Instr} {s t : State} (h : HandlerEffect i s t) : t.timerAcc = s.timerAcc := by
  rw [h.frame]

theorem HandlerEffect.cycleAcc {i : Instr} {s t : State} (h : HandlerEffect i s t) : t.cycleAcc = s.cycleAcc := by
  rw [h.frame]

theorem HandlerEffect.spc {i : Instr} {s t : State} (h : HandlerEffect i s t) : t.spc = s.spc := by
  rw [h.frame]

theorem HandlerEffect.halted {i : Instr} {s t : State} (h : HandlerEffect i s t) : t.halted = s.halted := by
  rw [h.frame]

theorem HandlerEffect.fault {i : Instr} {s t : State} (h : HandlerEffect i s t) : t.fault = s.fault := by
  rw [h.frame]

theorem HandlerEffect.log {i : Instr} {s t : State} (h : HandlerEffect i s t) : t.log = s.log := by
  rw [h.frame]

theorem HandlerEffect.paused {i : Instr} {s t : State} (h : HandlerEffect i s t) : t.paused = s.paused := by
  rw [h.frame]

/-- An own effect keeps memory in canonical form and leaves every byte below 0x200 (20_memory.md R53, R55). -/
theorem HandlerEffect.mem_wf {i : Instr} {s t : State} (h : HandlerEffect i s t) (hw : s.mem.wf = true) :
    t.mem.wf = true ∧ ∀ a, a < Config.romBase → t.mem.read a = s.mem.read a := by
  rcases h.mem with hc | ⟨-, a, bs, hc⟩
  · rw [hc]
    exact ⟨hw, fun _ _ => rfl⟩
  · rcases memWrite_cases s.mem a bs with ⟨⟨q1, q2⟩, q3⟩ | ⟨_, q3⟩ <;> rw [hc] at q3
    · rw [Except.ok.inj q3]
      refine ⟨Memory.wf_writeBytes hw _ _ q2, fun b hb => ?_⟩
      rw [Memory.read_writeBytes hw _ _ _ q2, if_neg (by omega)]
    · cases q3

/-- An own effect keeps the display in canonical form (10_state.md R29). -/
theorem HandlerEffect.disp_wf {i : Instr} {s t : State} (h : HandlerEffect i s t)
    (hw : Display.wf s.params s.disp = true) : Display.wf s.params t.disp = true := by
  rcases h.disp with hd | ⟨_, hd⟩ | ⟨x, y, n, qs, ks, _, hk, hd⟩ <;> rw [hd]
  · exact hw
  · rfl
  · exact Display.wf_drawCells hw (placePixels_lt hk)

/-- What the meaning of any instruction can answer (60_exceptions.md R212, R213). -/
inductive ExecAnswer (i : Instr) (s : State) : Result → Prop where
  /-- A fatal fault of a handler, with its record. -/
  | fatal (kind : FaultKind) (info : FaultInfo) (h : kind ∉ [.load, .fetch, .dispatch]) :
    ExecAnswer i s (raise kind info i s)
  /-- An extension in the baseline. -/
  | logged (hi : i.isBaseline = false) (h : s.params.extOps = false) : ExecAnswer i s (dispatchFault (encode i) s)
  /-- The instruction's own effect. -/
  | runs (t : State) (h : HandlerEffect i s t) : ExecAnswer i s (.next t)

theorem extension_answer {i : Instr} {s : State} {r : Result} (hi : i.isBaseline = false)
    (h : s.params.extOps = true → ExecAnswer i s r) : ExecAnswer i s (extension i s r) := by
  rcases extension_cases i s r with ⟨he, e⟩ | ⟨he, e⟩ <;> rw [e]
  · exact h he
  · exact .logged hi he

theorem zext16_toNat (nnn : Addr12) : (zext16 nnn).toNat = nnn.toNat := by
  have := nnn.isLt
  simp only [zext16, BitVec.toNat_setWidth]
  omega

theorem jumpTarget_toNat (nnn : Addr12) (b : Byte) : (zext16 nnn + b.setWidth 16).toNat = nnn.toNat + b.toNat := by
  have h1 := nnn.isLt
  have h2 := b.isLt
  rw [BitVec.toNat_add, zext16_toNat, BitVec.toNat_setWidth]
  omega

/-- A baseline effect on V and nothing else. -/
theorem regs_effect {i : Instr} {s : State} (hb : i.isBaseline = true) (v : Vector Byte 16) :
    HandlerEffect i s { s with V := v } :=
  ⟨by simp [hb], rfl, .inl rfl, .inl rfl, .inl rfl, .inl rfl, .inl rfl, .inl rfl, .inl rfl⟩

theorem skip_answer {i : Instr} {s : State} (hb : s.params.extOps = true ∨ i.isBaseline = true) (c : Bool) :
    ExecAnswer i s (.next (s.skipIf c)) := by
  refine .runs _ ⟨by grind, ?_, .inl ?_, .inl ?_, .inl ?_, .inl ?_, .inl ?_, ?_, .inl ?_⟩ <;> cases c <;> simp <;> rfl

/-- Every instruction answers a next state, and this is all it can do. -/
theorem exec_answer (i : Instr) (s : State) : ExecAnswer i s (exec i s) := by
  cases i with
  | cls =>
    exact .runs _ ⟨by simp [Instr.isBaseline], rfl, .inl rfl, .inr (.inl ⟨rfl, rfl⟩), .inl rfl, .inl rfl, .inl rfl,
      .inl rfl, .inl rfl⟩
  | ret =>
    show ExecAnswer _ _ (execRet s)
    unfold execRet
    split
    · exact .fatal _ _ (by decide)
    · rename_i a rest hs
      exact .runs _ ⟨by simp [Instr.isBaseline], rfl, .inl rfl, .inl rfl, .inr (.inr ⟨rfl, a, hs, rfl⟩), .inl rfl,
        .inl rfl, .inr (.inr (.inr (.inr ⟨rfl, a, hs, rfl⟩))), .inl rfl⟩
  | jp nnn =>
    refine .runs _ ⟨by simp [Instr.isBaseline], rfl, .inl rfl, .inl rfl, .inl rfl, .inl rfl, .inl rfl,
      .inr (.inr (.inr (.inl ?_))), .inl rfl⟩
    have := nnn.isLt
    rw [State.setPc_pc, zext16_toNat]
    omega
  | call nnn =>
    show ExecAnswer _ _ (execCall nnn s)
    unfold execCall
    split
    · exact .fatal _ _ (by decide)
    · rename_i hs
      refine .runs _ ⟨by simp [Instr.isBaseline], rfl, .inl rfl, .inl rfl, .inr (.inl ⟨⟨nnn, rfl⟩, ?_, rfl⟩), .inl rfl,
        .inl rfl, .inr (.inr (.inr (.inl ?_))), .inl rfl⟩
      · simpa [State.stackFull] using hs
      · have := nnn.isLt
        rw [State.setPc_pc, zext16_toNat]
        omega
  | seImm x nn => exact extension_answer rfl fun he => skip_answer (.inl he) _
  | sneImm x nn => exact extension_answer rfl fun he => skip_answer (.inl he) _
  | seReg x y n => exact extension_answer rfl fun he => skip_answer (.inl he) _
  | sneReg x y n => exact extension_answer rfl fun he => skip_answer (.inl he) _
  | jpV0 nnn =>
    refine extension_answer rfl fun he => .runs _ ⟨fun _ => he, rfl, .inl rfl, .inl rfl, .inl rfl, .inl rfl, .inl rfl,
      .inr (.inr (.inr (.inl ?_))), .inl rfl⟩
    have h1 := nnn.isLt
    have h2 := (s.jumpOffsetValue nnn).isLt
    rw [State.setPc_pc, jumpTarget_toNat]
    omega
  | ldImm x nn => exact .runs _ (regs_effect rfl _)
  | addImm x nn => exact .runs _ (regs_effect rfl _)
  | ldReg x y => exact .runs _ (regs_effect rfl _)
  | orReg x y => exact .runs _ (regs_effect rfl _)
  | andReg x y => exact .runs _ (regs_effect rfl _)
  | xorReg x y => exact .runs _ (regs_effect rfl _)
  | addReg x y => exact .runs _ (regs_effect rfl _)
  | subReg x y => exact .runs _ (regs_effect rfl _)
  | subn x y => exact .runs _ (regs_effect rfl _)
  | ldVxDT x => exact .runs _ (regs_effect rfl _)
  | shr x y =>
    exact extension_answer rfl fun he => .runs _ ⟨fun _ => he, rfl, .inl rfl, .inl rfl, .inl rfl, .inl rfl, .inl rfl,
      .inl rfl, .inl rfl⟩
  | shl x y =>
    exact extension_answer rfl fun he => .runs _ ⟨fun _ => he, rfl, .inl rfl, .inl rfl, .inl rfl, .inl rfl, .inl rfl,
      .inl rfl, .inl rfl⟩
  | rnd x nn =>
    exact extension_answer rfl fun he => .runs _ ⟨fun _ => he, rfl, .inl rfl, .inl rfl, .inl rfl, .inl rfl, .inl rfl,
      .inl rfl, .inr he⟩
  | ldI nnn =>
    exact .runs _ ⟨by simp [Instr.isBaseline], rfl, .inl rfl, .inl rfl, .inl rfl, .inl rfl, .inl rfl, .inl rfl, .inl rfl⟩
  | addI x =>
    show ExecAnswer _ _ (execAddI x s)
    unfold execAddI
    refine .runs _ ?_
    split <;>
      exact ⟨by simp [Instr.isBaseline], rfl, .inl rfl, .inl rfl, .inl rfl, .inl rfl, .inl rfl, .inl rfl, .inl rfl⟩
  | ldF x =>
    exact extension_answer rfl fun he => .runs _ ⟨fun _ => he, rfl, .inl rfl, .inl rfl, .inl rfl, .inl rfl, .inl rfl,
      .inl rfl, .inl rfl⟩
  | ldB x =>
    refine extension_answer rfl fun he => ?_
    split
    · exact .fatal _ _ (by decide)
    · rename_i m hm
      exact .runs _ ⟨fun _ => he, rfl, .inr ⟨he, _, _, hm⟩, .inl rfl, .inl rfl, .inl rfl, .inl rfl, .inl rfl, .inl rfl⟩
  | ldMemVx x =>
    refine extension_answer rfl fun he => ?_
    split
    · exact .fatal _ _ (by decide)
    · rename_i m hm
      unfold State.advanceI
      refine .runs _ ?_
      split <;>
        exact ⟨fun _ => he, rfl, .inr ⟨he, _, _, hm⟩, .inl rfl, .inl rfl, .inl rfl, .inl rfl, .inl rfl, .inl rfl⟩
  | ldVxMem x =>
    refine extension_answer rfl fun he => ?_
    split
    · exact .fatal _ _ (by decide)
    · rename_i bytes _
      obtain ⟨v, hv⟩ : ∃ v, s.loadRegs bytes = { s with V := v } := ⟨_, rfl⟩
      rw [hv]
      unfold State.advanceI
      refine .runs _ ?_
      split <;>
        exact ⟨fun _ => he, rfl, .inl rfl, .inl rfl, .inl rfl, .inl rfl, .inl rfl, .inl rfl, .inl rfl⟩
  | drw x y n =>
    show ExecAnswer _ _ (execDrw x y n s)
    unfold execDrw
    split
    · exact .fatal _ _ (by decide)
    · split
      · exact .fatal _ _ (by decide)
      · rename_i cells hc
        exact .runs _ ⟨by simp [Instr.isBaseline], rfl, .inl rfl, .inr (.inr ⟨x, y, n, _, cells, rfl, hc, rfl⟩),
          .inl rfl, .inl rfl, .inl rfl, .inl rfl, .inl rfl⟩
  | skp x =>
    show ExecAnswer _ _ (execSkp x s)
    unfold execSkp
    split
    · exact .fatal _ _ (by decide)
    · exact skip_answer (.inr rfl) _
  | sknp x =>
    show ExecAnswer _ _ (execSknp x s)
    unfold execSknp
    split
    · exact .fatal _ _ (by decide)
    · exact skip_answer (.inr rfl) _
  | ldDTVx x =>
    exact .runs _ ⟨by simp [Instr.isBaseline], rfl, .inl rfl, .inl rfl, .inl rfl, .inr ⟨x, rfl⟩, .inl rfl, .inl rfl,
      .inl rfl⟩
  | ldSTVx x =>
    exact .runs _ ⟨by simp [Instr.isBaseline], rfl, .inl rfl, .inl rfl, .inl rfl, .inl rfl, .inr ⟨x, rfl⟩, .inl rfl,
      .inl rfl⟩
  | ldVxK x =>
    show ExecAnswer _ _ (execLdVxK x s)
    unfold execLdVxK
    split
    · exact .runs _ ⟨by simp [Instr.isBaseline], rfl, .inl rfl, .inl rfl, .inl rfl, .inl rfl, .inl rfl,
        .inr (.inr (.inl rfl)), .inl rfl⟩
    · exact .runs _ (regs_effect rfl _)

/-- The three answers of a meaning as equations. -/
theorem ExecAnswer.cases {i : Instr} {s : State} {r : Result} (h : ExecAnswer i s r) :
    (∃ kind info, kind ∉ [FaultKind.load, .fetch, .dispatch] ∧
      r = .next { s with halted := true, fault := some ⟨kind, some (s.pc - 2), some (encode i), info⟩ }) ∨
    (i.isBaseline = false ∧ s.params.extOps = false ∧
      r = .next { s with log := s.log ++ [⟨.dispatch, some (s.pc - 2), some (encode i), .none⟩] }) ∨
    (∃ t, HandlerEffect i s t ∧ r = .next t) := by
  cases h with
  | fatal kind info hk => exact .inl ⟨kind, info, hk, rfl⟩
  | logged hi he => exact .inr (.inl ⟨hi, he, rfl⟩)
  | runs t ht => exact .inr (.inr ⟨t, ht, rfl⟩)

@[simp] theorem State.advancePc_pc_sub (s : State) : s.advancePc.pc - 2 = s.pc := by
  simp [State.advancePc]

/-- Past a fetched word `pc` is at most 0x1000. -/
theorem State.advancePc_pc_toNat {s : State} (h : s.pc.toNat < 0xFFF) : s.advancePc.pc.toNat = s.pc.toNat + 2 := by
  have h2 : (2 : Word).toNat = 2 := rfl
  simp only [State.advancePc, State.setPc_pc, BitVec.toNat_add, h2]
  omega

/-- What the next state of one cycle can be, every case, with the fault records (30_encoding.md R78). The word of a
record is the fetched word, or the encoding of the instruction it decodes to. -/
theorem step_next {s t : State} (h : step s = .next t) :
    (s.halted = true ∧ t = s) ∨
    (s.halted = false ∧ 0xFFF ≤ s.pc.toNat ∧ fetchWord s = none ∧
      t = { s with halted := true, fault := some ⟨.fetch, some s.pc, none, .none⟩ }) ∨
    (s.halted = false ∧ s.pc.toNat < 0xFFF ∧ ∃ w, fetchWord s = some w ∧
      ((∃ e, decodeWord w = .error e ∧
          t = { s with pc := s.pc + 2, log := s.log ++ [⟨.dispatch, some s.pc, some w, .none⟩] }) ∨
       ∃ i, decodeWord w = .ok i ∧
        ((i.isBaseline = false ∧ s.params.extOps = false ∧
            t = { s with pc := s.pc + 2, log := s.log ++ [⟨.dispatch, some s.pc, some (encode i), .none⟩] }) ∨
         (∃ kind info, kind ∉ [FaultKind.load, .fetch, .dispatch] ∧
            t = { s with pc := s.pc + 2, halted := true,
                         fault := some ⟨kind, some s.pc, some (encode i), info⟩ }) ∨
         HandlerEffect i s.advancePc t))) := by
  rcases step_cases s with ⟨hh, e⟩ | ⟨hh, hf, e⟩ | ⟨hh, w, hf, ⟨er, hd, e⟩ | ⟨i, hd, e⟩⟩
  · rw [e] at h
    cases h
    exact .inl ⟨hh, rfl⟩
  · rw [e, fetchFault_eq] at h
    cases h
    refine .inr (.inl ⟨hh, ?_, hf, rfl⟩)
    by_contra hc
    rw [fetchWord_some (by omega)] at hf
    cases hf
  · rw [e, dispatchFault_eq, State.advancePc_pc_sub] at h
    cases h
    exact .inr (.inr ⟨hh, by have := pc_of_fetchWord hf; omega, w, hf, .inl ⟨er, hd, rfl⟩⟩)
  · rw [e] at h
    refine .inr (.inr ⟨hh, by have := pc_of_fetchWord hf; omega, w, hf, .inr ⟨i, hd, ?_⟩⟩)
    have ha := (exec_answer i s.advancePc).cases
    rw [State.advancePc_pc_sub, h] at ha
    rcases ha with ⟨k, info, hk, e'⟩ | ⟨hi, he, e'⟩ | ⟨t', ht, e'⟩
    · cases e'
      exact .inr (.inl ⟨k, info, hk, rfl⟩)
    · cases e'
      exact .inl ⟨hi, he, rfl⟩
    · cases e'
      exact .inr (.inr ht)

end Sys2Proof.Machine
end

