-- ==== Sys2Proof/Laws/Draw.lean ====
section
/-! SUPPORT. DXYN in the words of Safety.lean: the sprite rows, the cells the set pixels land on, without repetition,
and the three answers of a draw (41_display.md R101 to R103). -/

namespace Sys2Proof.Machine

theorem Params.width_cases (p : Params) : p.width = 64 ∧ p.height = 32 ∨ p.width = 128 ∧ p.height = 64 := by
  unfold Params.width Params.height
  cases p.displayMode <;> simp

/-- The sprite of a draw: its rows, or the MemoryFault's address (41_display.md R101). -/
theorem spriteRows_cases (s : State) (n : Nibble) :
    (s.spriteInMemory n ∧ ∃ rows, s.spriteRows n = .ok rows ∧
      ∀ (r : Nat) (b : Byte), rows[r]? = some b ↔ r < n.val ∧ b = s.mem.read (s.I.toNat + r)) ∨
    (¬ s.spriteInMemory n ∧ s.spriteRows n = .error (max s.I.toNat 0x1000)) := by
  have hm : Config.memSize = 4096 := rfl
  unfold State.spriteInMemory State.spriteRows
  by_cases h0 : n.val = 0
  · refine .inl ⟨.inl h0, [], by simp [h0], fun r b => ?_⟩
    simp [h0]
  · rcases memRead_cases s.mem s.I.toNat n.val with ⟨h, e⟩ | ⟨h, e⟩ <;> simp only [h0, if_false, e]
    · refine .inl ⟨.inr (by omega), _, rfl, fun r b => ?_⟩
      simp only [List.getElem?_map, Option.map_eq_some_iff, List.getElem?_eq_some_iff, List.length_range,
        List.getElem_range]
      grind
    · refine .inr ⟨?_, by rw [hm]⟩
      rintro (h' | h') <;> omega

/-- Where a pixel of a sprite row lands, in the words of `pixelLandsOn`. -/
theorem landing_iff {s : State} {x y : Nibble} {r c cx cy : Nat} (hx : cx < s.params.width) (hy : cy < s.params.height) :
    landing s.params (s.originX x + c, s.originY y + r) = some (cellIndex s.params cx cy) ↔
      s.pixelLandsOn x y r c cx cy := by
  have hw : 0 < s.params.width := by omega
  unfold landing State.pixelLandsOn onDisplay
  simp only [Bool.and_eq_true, decide_eq_true_eq]
  have inj : ∀ {a b : Nat}, a < s.params.width →
      (some (cellIndex s.params a b) = some (cellIndex s.params cx cy) ↔ cx = a ∧ cy = b) := by
    intro a b ha
    rw [Option.some.injEq]
    constructor
    · intro h
      have := cellIndex_inj ha hx h
      exact ⟨this.1.symm, this.2.symm⟩
    · rintro ⟨rfl, rfl⟩
      rfl
  by_cases hd : s.originX x + c < s.params.width ∧ s.originY y + r < s.params.height
  · rw [if_pos hd, inj hd.1]
    cases s.params.drawEdge <;> simp [Nat.mod_eq_of_lt hd.1, Nat.mod_eq_of_lt hd.2]
  · rw [if_neg hd]
    cases s.params.drawEdge
    · simp only [reduceCtorEq, false_iff]
      omega
    · exact inj (Nat.mod_lt _ hw)
    · simp only [reduceCtorEq, false_iff]
      omega

/-- Two set pixels of one sprite never land on one cell: a sprite is narrower and lower than the display. -/
theorem landing_inj {p : Params} {x0 y0 : Nat} {r c r' c' k : Nat} (hx : x0 < p.width)
    (hr : r < 16) (hr' : r' < 16) (hc : c < 8) (hc' : c' < 8)
    (h : landing p (x0 + c, y0 + r) = some k) (h' : landing p (x0 + c', y0 + r') = some k) : c = c' ∧ r = r' := by
  have wrap : ∀ q : Nat × Nat, landing p q = some k →
      (p.drawEdge = .wrap ∧ k = cellIndex p (q.1 % p.width) (q.2 % p.height)) ∨
      (q.1 < p.width ∧ q.2 < p.height ∧ k = cellIndex p q.1 q.2) := by
    intro q hq
    unfold landing at hq
    split at hq
    · rename_i ho
      simp only [onDisplay, Bool.and_eq_true, decide_eq_true_eq] at ho
      exact .inr ⟨ho.1, ho.2, (Option.some.inj hq).symm⟩
    · split at hq
      · cases hq
      · exact .inl ⟨by assumption, (Option.some.inj hq).symm⟩
      · cases hq
  have both : ∀ q : Nat × Nat, landing p q = some k →
      ∃ a b, a < p.width ∧ k = cellIndex p a b ∧ a = q.1 % p.width ∧ b = q.2 % p.height := by
    intro q hq
    rcases wrap q hq with ⟨_, e⟩ | ⟨h1, h2, e⟩
    · exact ⟨_, _, Nat.mod_lt _ (by omega), e, rfl, rfl⟩
    · exact ⟨q.1, q.2, h1, e, (Nat.mod_eq_of_lt h1).symm, (Nat.mod_eq_of_lt h2).symm⟩
  obtain ⟨a, b, ha, e, ea, eb⟩ := both _ h
  obtain ⟨a', b', ha', e', ea', eb'⟩ := both _ h'
  obtain ⟨rfl, rfl⟩ := cellIndex_inj ha ha' (e.symm.trans e')
  simp only at ea eb ea' eb'
  rcases Params.width_cases p with ⟨hw, hh⟩ | ⟨hw, hh⟩ <;> rw [hw] at ea ea' hx <;> rw [hh] at eb eb' <;> omega

theorem State.originX_lt (s : State) (x : Nibble) : s.originX x < s.params.width :=
  Nat.mod_lt _ (by rcases Params.width_cases s.params with h | h <;> omega)

theorem State.originY_lt (s : State) (y : Nibble) : s.originY y < s.params.height :=
  Nat.mod_lt _ (by rcases Params.width_cases s.params with h | h <;> omega)

/-- The first set pixel with a property, in drawing order: rows from the top, columns from the left. -/
theorem find?_spritePixels {x0 y0 : Nat} {rows : List Byte} {P : Nat × Nat → Bool} {q : Nat × Nat}
    (h : (spritePixels x0 y0 rows).find? P = some q) :
    ∃ (r c : Nat) (b : Byte), rows[r]? = some b ∧ c < 8 ∧ b.getLsbD (7 - c) = true ∧ q = (x0 + c, y0 + r) ∧ P q = true ∧
      ∀ (r' c' : Nat) (b' : Byte), rows[r']? = some b' → c' < 8 → b'.getLsbD (7 - c') = true →
        (r' < r ∨ r' = r ∧ c' < c) → P (x0 + c', y0 + r') = false := by
  induction rows generalizing y0 with
  | nil => simp [spritePixels] at h
  | cons b rows ih =>
    rw [spritePixels, List.find?_append, Option.or_eq_some_iff] at h
    have seg : ∀ c, c ∈ rowColumns b → (x0 + c, y0) ∈ (rowColumns b).map (fun c => (x0 + c, y0)) :=
      fun c hc => List.mem_map.mpr ⟨c, hc, rfl⟩
    rcases h with h | ⟨h0, h⟩
    · rw [List.find?_map, Option.map_eq_some_iff] at h
      obtain ⟨c, hc, rfl⟩ := h
      rw [rowColumns, List.find?_filter, List.find?_range_eq_some] at hc
      obtain ⟨hc1, hc2, hc3⟩ := hc
      simp only [Function.comp_apply, decide_eq_true_eq] at hc1
      refine ⟨0, c, b, rfl, by simpa using hc2, hc1.1, rfl, hc1.2, ?_⟩
      rintro r' c' b' hr' hc' hb' (h | ⟨rfl, h⟩)
      · omega
      · have := hc3 c' h
        simp only [List.getElem?_cons_zero, Option.some.injEq] at hr'
        simp_all
    · obtain ⟨r, c, b', h1, h2, h3, rfl, h5, h6⟩ := ih h
      refine ⟨r + 1, c, b', h1, h2, h3, by rw [show y0 + (r + 1) = y0 + 1 + r by omega], h5, ?_⟩
      intro r' c' b'' hr' hc' hb' hlt
      cases r' with
      | zero =>
        simp only [List.getElem?_cons_zero, Option.some.injEq] at hr'
        simpa using List.find?_eq_none.mp h0 _ (seg c' (mem_rowColumns.mpr ⟨hc', hr' ▸ hb'⟩))
      | succ r' =>
        have := h6 r' c' b'' hr' hc' hb' (by omega)
        rwa [show y0 + (r' + 1) = y0 + 1 + r' by omega]

/-- What a draw can answer: MemoryFault, DrawEdgeFault at the first set pixel off the display, or a draw of the cells
`drawHits` names, each once. -/
theorem execDrw_cases (x y n : Nibble) (s : State) :
    (¬ s.spriteInMemory n ∧ execDrw x y n s = raise .memory (.address (max s.I.toNat 0x1000)) (.drw x y n) s) ∨
    (s.spriteInMemory n ∧ s.params.drawEdge = .fault ∧ ∃ r c, r < n.val ∧ c < 8 ∧ s.spriteBit r c = true ∧
      ¬ s.pixelOnDisplay x y r c ∧
      (∀ r' c', c' < 8 → (r' < r ∨ r' = r ∧ c' < c) → s.spriteBit r' c' = true → s.pixelOnDisplay x y r' c') ∧
      execDrw x y n s = raise .drawEdge (.cell (s.originX x + c) (s.originY y + r)) (.drw x y n) s) ∨
    (s.spriteInMemory n ∧
      (s.params.drawEdge = .fault → ∀ r c, r < n.val → c < 8 → s.spriteBit r c = true → s.pixelOnDisplay x y r c) ∧
      ∃ ks : List Nat, ks.Nodup ∧ (∀ k ∈ ks, k < s.params.width * s.params.height) ∧
        (∀ cx cy, cx < s.params.width → cy < s.params.height →
          (cellIndex s.params cx cy ∈ ks ↔ s.drawHits x y n cx cy)) ∧
        execDrw x y n s = .next (s.draw ks)) := by
  unfold execDrw
  rcases spriteRows_cases s n with ⟨hs, rows, e, hrows⟩ | ⟨hs, e⟩ <;> rw [e]
  case inr => exact .inl ⟨hs, rfl⟩
  refine .inr ?_
  have hmem : ∀ q, q ∈ spritePixels (s.originX x) (s.originY y) rows ↔
      ∃ r c, r < n.val ∧ c < 8 ∧ s.spriteBit r c = true ∧ q = (s.originX x + c, s.originY y + r) := by
    intro q
    rw [mem_spritePixels]
    constructor
    · rintro ⟨r, c, b, hr, hc, hb, hq⟩
      obtain ⟨hr1, rfl⟩ := (hrows r b).mp hr
      exact ⟨r, c, hr1, hc, hb, hq⟩
    · rintro ⟨r, c, hr, hc, hb, hq⟩
      exact ⟨r, c, _, (hrows r _).mpr ⟨hr, rfl⟩, hc, hb, hq⟩
  have hon : ∀ r c, onDisplay s.params (s.originX x + c, s.originY y + r) = true ↔ s.pixelOnDisplay x y r c := by
    intro r c
    simp [onDisplay, State.pixelOnDisplay]
  rcases placePixels_cases s.params (spritePixels (s.originX x) (s.originY y) rows) with ⟨h1, h2⟩ | ⟨h1, q, h2, h3⟩
  · refine .inr ⟨hs, ?_, _, ?_, placePixels_lt h2, ?_, by simp only [h2]⟩
    · intro hf r c hr hc hb
      exact (hon r c).mp (h1 hf _ ((hmem _).mpr ⟨r, c, hr, hc, hb, rfl⟩))
    · refine List.pairwise_filterMap.mpr
        ((nodup_spritePixels (s.originX x) (s.originY y) rows).imp_of_mem fun {q q'} hq hq' hne k hk k' hk' hkk => ?_)
      obtain ⟨r, c, hr, hc, _, rfl⟩ := (hmem q).mp hq
      obtain ⟨r', c', hr', hc', _, rfl⟩ := (hmem q').mp hq'
      subst hkk
      have := landing_inj (s.originX_lt x) (by omega) (by omega) hc hc' hk hk'
      exact hne (by rw [this.1, this.2])
    · intro cx cy hx hy
      rw [List.mem_filterMap]
      constructor
      · rintro ⟨q, hq, hl⟩
        obtain ⟨r, c, hr, hc, hb, rfl⟩ := (hmem q).mp hq
        exact ⟨r, c, hr, hc, hb, (landing_iff hx hy).mp hl⟩
      · rintro ⟨r, c, hr, hc, hb, hl⟩
        exact ⟨_, (hmem _).mpr ⟨r, c, hr, hc, hb, rfl⟩, (landing_iff hx hy).mpr hl⟩
  · obtain ⟨r, c, b, hr, hc, hb, rfl, hP, hfirst⟩ := find?_spritePixels h2
    obtain ⟨hr1, rfl⟩ := (hrows r b).mp hr
    refine .inl ⟨hs, h1, r, c, hr1, hc, hb, ?_, ?_, by simp only [h3]⟩
    · rw [← hon]
      simpa using hP
    · intro r' c' hc' hlt hb'
      have := hfirst r' c' _ ((hrows r' _).mpr ⟨by omega, rfl⟩) hc' hb' hlt
      rw [← hon]
      simpa using this

/-! ### The effect of a draw, cell by cell -/

/-- Every element number on the display is a cell's. -/
theorem exists_cell {p : Params} {k : Nat} (hk : k < p.width * p.height) :
    ∃ cx cy, cx < p.width ∧ cy < p.height ∧ k = cellIndex p cx cy := by
  have hw : 0 < p.width := by rcases Params.width_cases p with h | h <;> omega
  refine ⟨k % p.width, k / p.width, Nat.mod_lt _ hw, ?_, ?_⟩
  · rw [Nat.div_lt_iff_lt_mul hw, Nat.mul_comm]
    exact hk
  · unfold cellIndex
    rw [Nat.mul_comm, Nat.div_add_mod]

/-- A draw flips exactly the cells it toggles (41_display.md R101). -/
theorem State.cell_draw_ne {s : State} (hw : Display.wf s.params s.disp = true) {ks : List Nat} (hn : ks.Nodup)
    (hk : ∀ k ∈ ks, k < s.params.width * s.params.height) (cx cy : Nat) :
    (s.draw ks).cell cx cy ≠ s.cell cx cy ↔ cellIndex s.params cx cy ∈ ks := by
  have h := Display.mem_drawCells hw hn hk (cellIndex s.params cx cy)
  have h1 := State.cell_iff (s.draw ks) cx cy
  have h2 := State.cell_iff s cx cy
  rw [State.draw_disp, show (s.draw ks).params = s.params from rfl, h] at h1
  rw [ne_eq, Bool.eq_iff_iff, h1, h2]
  tauto

/-- VF after a draw (41_display.md R103). -/
theorem State.readV_draw_flag (s : State) (ks : List Nat) :
    (s.draw ks).readV 0xF = if (Display.drawCells s.disp ks).2 then 1 else 0 := by
  rw [State.readV_draw, if_pos (show regVF = 0xF from rfl)]

end Sys2Proof.Machine
end

