-- ==== Sys2Proof/Laws/HostFields.lean ====
section
/-! SUPPORT. No instruction reads or writes the pacing state and `paused` (60_exceptions.md R223, R224): a cycle commutes
with replacing them, so a fact about a cycle carries over to the cycles `Update` runs. -/

namespace Sys2Proof.Machine

/-- The state with the fields only the host and `Update` use replaced. -/
def State.withHost (s : State) (ta ca spc : Rat) (b : Bool) : State :=
  { s with timerAcc := ta, cycleAcc := ca, spc := spc, paused := b }

/-- The next state of a result changed by a function. -/
def mapNext (f : State → State) : Result → Result
  | .next s => .next (f s)
  | .fault r => .fault r
  | .refused r => .refused r

theorem skipIf_withHost (s : State) (ta ca spc : Rat) (b c : Bool) :
    (s.withHost ta ca spc b).skipIf c = (s.skipIf c).withHost ta ca spc b := by
  cases c <;> rfl

theorem advanceI_withHost (s : State) (ta ca spc : Rat) (b : Bool) (k : Nat) :
    (s.withHost ta ca spc b).advanceI k = (s.advanceI k).withHost ta ca spc b := by
  unfold State.advanceI
  show (if s.params.ldstIncI = true then _ else _) = _
  cases s.params.ldstIncI <;> rfl

theorem extension_withHost {i : Instr} {s : State} {ta ca spc : Rat} {b : Bool} {r r' : Result}
    (h : r' = mapNext (fun t => t.withHost ta ca spc b) r) :
    extension i (s.withHost ta ca spc b) r' = mapNext (fun t => t.withHost ta ca spc b) (extension i s r) := by
  subst h
  unfold extension
  show (if s.params.extOps = true then _ else _) = _
  cases s.params.extOps <;> rfl

/-- A meaning commutes with replacing the host's fields. -/
theorem exec_withHost (i : Instr) (s : State) (ta ca spc : Rat) (b : Bool) :
    exec i (s.withHost ta ca spc b) = mapNext (fun t => t.withHost ta ca spc b) (exec i s) := by
  cases i with
  | ret =>
    obtain ⟨_, _, _, _, _, stack, _, _, _, _, _, _, _, _, _, _, _, _⟩ := s
    cases stack <;> rfl
  | call n =>
    show execCall n _ = mapNext _ (execCall n s)
    unfold execCall
    show (if s.stackFull = true then _ else _) = _
    cases s.stackFull <;> rfl
  | seImm | sneImm | seReg | sneReg =>
    exact extension_withHost (congrArg Host.Outcome.next (skipIf_withHost _ _ _ _ _ _))
  | rnd | shr | shl | jpV0 | ldF => exact extension_withHost rfl
  | skp x =>
    show execSkp x _ = mapNext _ (execSkp x s)
    unfold execSkp
    rw [show (s.withHost ta ca spc b).keyOf ((s.withHost ta ca spc b).readV x) = s.keyOf (s.readV x) from rfl]
    cases s.keyOf (s.readV x)
    · rfl
    · exact congrArg Host.Outcome.next (skipIf_withHost _ _ _ _ _ _)
  | sknp x =>
    show execSknp x _ = mapNext _ (execSknp x s)
    unfold execSknp
    rw [show (s.withHost ta ca spc b).keyOf ((s.withHost ta ca spc b).readV x) = s.keyOf (s.readV x) from rfl]
    cases s.keyOf (s.readV x)
    · rfl
    · exact congrArg Host.Outcome.next (skipIf_withHost _ _ _ _ _ _)
  | ldVxK x =>
    show execLdVxK x _ = mapNext _ (execLdVxK x s)
    unfold execLdVxK
    rw [show (s.withHost ta ca spc b).firstKey = s.firstKey from rfl]
    cases s.firstKey <;> rfl
  | addI x =>
    obtain ⟨⟨_, _, _, _, _, _, _, _, f, _⟩, _, _, _, _, _, _, _, _, _, _, _, _, _, _, _, _, _⟩ := s
    cases f <;> rfl
  | drw x y n =>
    show execDrw x y n _ = mapNext _ (execDrw x y n s)
    unfold execDrw
    rw [show (s.withHost ta ca spc b).spriteRows n = s.spriteRows n from rfl]
    cases s.spriteRows n with
    | error => rfl
    | ok rows =>
      simp only
      rw [show placePixels (s.withHost ta ca spc b).params (spritePixels ((s.withHost ta ca spc b).originX x)
        ((s.withHost ta ca spc b).originY y) rows) =
          placePixels s.params (spritePixels (s.originX x) (s.originY y) rows) from rfl]
      cases placePixels s.params (spritePixels (s.originX x) (s.originY y) rows) <;> rfl
  | ldB x =>
    refine extension_withHost ?_
    show (match memWrite s.mem s.I.toNat (bcdDigits (s.readV x)) with | .error a => _ | .ok m => _) = _
    cases memWrite s.mem s.I.toNat (bcdDigits (s.readV x)) <;> rfl
  | ldMemVx x =>
    refine extension_withHost ?_
    show (match memWrite s.mem s.I.toNat (s.lowRegs (x.val + 1)) with | .error a => _ | .ok m => _) = _
    cases memWrite s.mem s.I.toNat (s.lowRegs (x.val + 1)) with
    | error a => rfl
    | ok m => exact congrArg Host.Outcome.next (advanceI_withHost { s with mem := m } ta ca spc b (x.val + 1))
  | ldVxMem x =>
    refine extension_withHost ?_
    show (match memRead s.mem s.I.toNat (x.val + 1) with | .error a => _ | .ok m => _) = _
    cases memRead s.mem s.I.toNat (x.val + 1) with
    | error a => rfl
    | ok bytes => exact congrArg Host.Outcome.next (advanceI_withHost (s.loadRegs bytes) ta ca spc b (x.val + 1))
  | _ => rfl

/-- A cycle commutes with replacing the host's fields. -/
theorem step_withHost (s : State) (ta ca spc : Rat) (b : Bool) :
    step (s.withHost ta ca spc b) = mapNext (fun t => t.withHost ta ca spc b) (step s) := by
  unfold step
  rw [show (s.withHost ta ca spc b).halted = s.halted from rfl,
    show fetchWord (s.withHost ta ca spc b) = fetchWord s from rfl]
  cases s.halted
  · simp only [Bool.false_eq_true, if_false]
    cases fetchWord s with
    | none => rfl
    | some w =>
      simp only
      cases decodeWord w with
      | error => rfl
      | ok i => exact exec_withHost i s.advancePc ta ca spc b
  · rfl
/-- The cycles of `Update` commute with replacing the host's fields. -/
theorem runCycles_withHost (n : Nat) (s : State) (ta ca spc : Rat) (b : Bool) :
    runCycles n (s.withHost ta ca spc b) = mapNext (fun t => t.withHost ta ca spc b) (runCycles n s) := by
  induction n generalizing s with
  | zero => rfl
  | succ n ih =>
    simp only [runCycles, step_withHost]
    cases step s with
    | next t => exact ih t
    | fault => rfl
    | refused => rfl

end Sys2Proof.Machine
end

