-- ==== Sys2Proof/Laws/PerInstr.lean ====
section
/-! SUPPORT. For every instruction: the dispatch key of its word is in a configuration's handler set exactly when the
instruction is well formed for that configuration (30_encoding.md R76). -/

namespace Sys2Proof.Laws.HandlerSet

/-- The key of the instruction's word is in the handler set exactly when the configuration implements it. -/
def Statement (i : Instr) : Prop :=
  ∀ extOps : Bool, decodeKey (encode i) ∈ handlerSet extOps ↔ (i.isBaseline || extOps) = true

theorem cls : Statement (.cls) := by
  intro e
  cases e <;> rw [Instr.isBaseline] <;> decide

theorem ret : Statement (.ret) := by
  intro e
  cases e <;> rw [Instr.isBaseline] <;> decide

theorem jp (nnn : Addr12) : Statement (.jp nnn) := by
  intro e
  rw [encode, decodeKey_wordNNN (by decide)]
  cases e <;> rw [Instr.isBaseline] <;> decide

theorem call (nnn : Addr12) : Statement (.call nnn) := by
  intro e
  rw [encode, decodeKey_wordNNN (by decide)]
  cases e <;> rw [Instr.isBaseline] <;> decide

theorem seImm (x : Nibble) (nn : Byte) : Statement (.seImm x nn) := by
  intro e
  rw [encode, decodeKey_wordXNN (by decide)]
  cases e <;> rw [Instr.isBaseline] <;> decide

theorem sneImm (x : Nibble) (nn : Byte) : Statement (.sneImm x nn) := by
  intro e
  rw [encode, decodeKey_wordXNN (by decide)]
  cases e <;> rw [Instr.isBaseline] <;> decide

theorem seReg (x y n : Nibble) : Statement (.seReg x y n) := by
  intro e
  rw [encode, decodeKey_wordXYN (by decide)]
  cases e <;> rw [Instr.isBaseline] <;> decide

theorem ldImm (x : Nibble) (nn : Byte) : Statement (.ldImm x nn) := by
  intro e
  rw [encode, decodeKey_wordXNN (by decide)]
  cases e <;> rw [Instr.isBaseline] <;> decide

theorem addImm (x : Nibble) (nn : Byte) : Statement (.addImm x nn) := by
  intro e
  rw [encode, decodeKey_wordXNN (by decide)]
  cases e <;> rw [Instr.isBaseline] <;> decide

theorem ldReg (x y : Nibble) : Statement (.ldReg x y) := by
  intro e
  rw [encode, decodeKey_wordXYN_eight]
  cases e <;> rw [Instr.isBaseline] <;> decide

theorem orReg (x y : Nibble) : Statement (.orReg x y) := by
  intro e
  rw [encode, decodeKey_wordXYN_eight]
  cases e <;> rw [Instr.isBaseline] <;> decide

theorem andReg (x y : Nibble) : Statement (.andReg x y) := by
  intro e
  rw [encode, decodeKey_wordXYN_eight]
  cases e <;> rw [Instr.isBaseline] <;> decide

theorem xorReg (x y : Nibble) : Statement (.xorReg x y) := by
  intro e
  rw [encode, decodeKey_wordXYN_eight]
  cases e <;> rw [Instr.isBaseline] <;> decide

theorem addReg (x y : Nibble) : Statement (.addReg x y) := by
  intro e
  rw [encode, decodeKey_wordXYN_eight]
  cases e <;> rw [Instr.isBaseline] <;> decide

theorem subReg (x y : Nibble) : Statement (.subReg x y) := by
  intro e
  rw [encode, decodeKey_wordXYN_eight]
  cases e <;> rw [Instr.isBaseline] <;> decide

theorem shr (x y : Nibble) : Statement (.shr x y) := by
  intro e
  rw [encode, decodeKey_wordXYN_eight]
  cases e <;> rw [Instr.isBaseline] <;> decide

theorem subn (x y : Nibble) : Statement (.subn x y) := by
  intro e
  rw [encode, decodeKey_wordXYN_eight]
  cases e <;> rw [Instr.isBaseline] <;> decide

theorem shl (x y : Nibble) : Statement (.shl x y) := by
  intro e
  rw [encode, decodeKey_wordXYN_eight]
  cases e <;> rw [Instr.isBaseline] <;> decide

theorem sneReg (x y n : Nibble) : Statement (.sneReg x y n) := by
  intro e
  rw [encode, decodeKey_wordXYN (by decide)]
  cases e <;> rw [Instr.isBaseline] <;> decide

theorem ldI (nnn : Addr12) : Statement (.ldI nnn) := by
  intro e
  rw [encode, decodeKey_wordNNN (by decide)]
  cases e <;> rw [Instr.isBaseline] <;> decide

theorem jpV0 (nnn : Addr12) : Statement (.jpV0 nnn) := by
  intro e
  rw [encode, decodeKey_wordNNN (by decide)]
  cases e <;> rw [Instr.isBaseline] <;> decide

theorem rnd (x : Nibble) (nn : Byte) : Statement (.rnd x nn) := by
  intro e
  rw [encode, decodeKey_wordXNN (by decide)]
  cases e <;> rw [Instr.isBaseline] <;> decide

theorem drw (x y n : Nibble) : Statement (.drw x y n) := by
  intro e
  rw [encode, decodeKey_wordXYN (by decide)]
  cases e <;> rw [Instr.isBaseline] <;> decide

theorem skp (x : Nibble) : Statement (.skp x) := by
  intro e
  rw [encode, decodeKey_wordXKK (by decide)]
  cases e <;> rw [Instr.isBaseline] <;> decide

theorem sknp (x : Nibble) : Statement (.sknp x) := by
  intro e
  rw [encode, decodeKey_wordXKK (by decide)]
  cases e <;> rw [Instr.isBaseline] <;> decide

theorem ldVxDT (x : Nibble) : Statement (.ldVxDT x) := by
  intro e
  rw [encode, decodeKey_wordXKK (by decide)]
  cases e <;> rw [Instr.isBaseline] <;> decide

theorem ldVxK (x : Nibble) : Statement (.ldVxK x) := by
  intro e
  rw [encode, decodeKey_wordXKK (by decide)]
  cases e <;> rw [Instr.isBaseline] <;> decide

theorem ldDTVx (x : Nibble) : Statement (.ldDTVx x) := by
  intro e
  rw [encode, decodeKey_wordXKK (by decide)]
  cases e <;> rw [Instr.isBaseline] <;> decide

theorem ldSTVx (x : Nibble) : Statement (.ldSTVx x) := by
  intro e
  rw [encode, decodeKey_wordXKK (by decide)]
  cases e <;> rw [Instr.isBaseline] <;> decide

theorem addI (x : Nibble) : Statement (.addI x) := by
  intro e
  rw [encode, decodeKey_wordXKK (by decide)]
  cases e <;> rw [Instr.isBaseline] <;> decide

theorem ldF (x : Nibble) : Statement (.ldF x) := by
  intro e
  rw [encode, decodeKey_wordXKK (by decide)]
  cases e <;> rw [Instr.isBaseline] <;> decide

theorem ldB (x : Nibble) : Statement (.ldB x) := by
  intro e
  rw [encode, decodeKey_wordXKK (by decide)]
  cases e <;> rw [Instr.isBaseline] <;> decide

theorem ldMemVx (x : Nibble) : Statement (.ldMemVx x) := by
  intro e
  rw [encode, decodeKey_wordXKK (by decide)]
  cases e <;> rw [Instr.isBaseline] <;> decide

theorem ldVxMem (x : Nibble) : Statement (.ldVxMem x) := by
  intro e
  rw [encode, decodeKey_wordXKK (by decide)]
  cases e <;> rw [Instr.isBaseline] <;> decide

end Sys2Proof.Laws.HandlerSet
end

