-- ==== Sys2Proof/Laws/Transactions.lean ====
section
/-! SUPPORT. The host transactions: whole periods and remainders, the timers, `LoadROM`, and what `Update` answers. -/

namespace Sys2Proof.Machine

/-! ### The fields of the host's updates, one lemma each -/

@[simp] theorem State.setKeys_params (s : State) (bits : Word) : (s.setKeys bits).params = s.params := rfl
@[simp] theorem State.setKeys_mem (s : State) (bits : Word) : (s.setKeys bits).mem = s.mem := rfl
@[simp] theorem State.setKeys_V (s : State) (bits : Word) : (s.setKeys bits).V = s.V := rfl
@[simp] theorem State.setKeys_I (s : State) (bits : Word) : (s.setKeys bits).I = s.I := rfl
@[simp] theorem State.setKeys_pc (s : State) (bits : Word) : (s.setKeys bits).pc = s.pc := rfl
@[simp] theorem State.setKeys_stack (s : State) (bits : Word) : (s.setKeys bits).stack = s.stack := rfl
@[simp] theorem State.setKeys_DT (s : State) (bits : Word) : (s.setKeys bits).DT = s.DT := rfl
@[simp] theorem State.setKeys_ST (s : State) (bits : Word) : (s.setKeys bits).ST = s.ST := rfl
@[simp] theorem State.setKeys_disp (s : State) (bits : Word) : (s.setKeys bits).disp = s.disp := rfl
@[simp] theorem State.setKeys_keys (s : State) (bits : Word) :
    (s.setKeys bits).keys = Vector.ofFn fun k : Fin 16 => bits.getLsbD k.val := rfl
@[simp] theorem State.setKeys_timerAcc (s : State) (bits : Word) : (s.setKeys bits).timerAcc = s.timerAcc := rfl
@[simp] theorem State.setKeys_cycleAcc (s : State) (bits : Word) : (s.setKeys bits).cycleAcc = s.cycleAcc := rfl
@[simp] theorem State.setKeys_spc (s : State) (bits : Word) : (s.setKeys bits).spc = s.spc := rfl
@[simp] theorem State.setKeys_halted (s : State) (bits : Word) : (s.setKeys bits).halted = s.halted := rfl
@[simp] theorem State.setKeys_fault (s : State) (bits : Word) : (s.setKeys bits).fault = s.fault := rfl
@[simp] theorem State.setKeys_log (s : State) (bits : Word) : (s.setKeys bits).log = s.log := rfl
@[simp] theorem State.setKeys_paused (s : State) (bits : Word) : (s.setKeys bits).paused = s.paused := rfl
@[simp] theorem State.setKeys_rngDraws (s : State) (bits : Word) : (s.setKeys bits).rngDraws = s.rngDraws := rfl

@[simp] theorem State.setPaused_params (s : State) (b : Bool) : (s.setPaused b).params = s.params := rfl
@[simp] theorem State.setPaused_mem (s : State) (b : Bool) : (s.setPaused b).mem = s.mem := rfl
@[simp] theorem State.setPaused_V (s : State) (b : Bool) : (s.setPaused b).V = s.V := rfl
@[simp] theorem State.setPaused_I (s : State) (b : Bool) : (s.setPaused b).I = s.I := rfl
@[simp] theorem State.setPaused_pc (s : State) (b : Bool) : (s.setPaused b).pc = s.pc := rfl
@[simp] theorem State.setPaused_stack (s : State) (b : Bool) : (s.setPaused b).stack = s.stack := rfl
@[simp] theorem State.setPaused_DT (s : State) (b : Bool) : (s.setPaused b).DT = s.DT := rfl
@[simp] theorem State.setPaused_ST (s : State) (b : Bool) : (s.setPaused b).ST = s.ST := rfl
@[simp] theorem State.setPaused_disp (s : State) (b : Bool) : (s.setPaused b).disp = s.disp := rfl
@[simp] theorem State.setPaused_keys (s : State) (b : Bool) : (s.setPaused b).keys = s.keys := rfl
@[simp] theorem State.setPaused_timerAcc (s : State) (b : Bool) : (s.setPaused b).timerAcc = s.timerAcc := rfl
@[simp] theorem State.setPaused_cycleAcc (s : State) (b : Bool) : (s.setPaused b).cycleAcc = s.cycleAcc := rfl
@[simp] theorem State.setPaused_spc (s : State) (b : Bool) : (s.setPaused b).spc = s.spc := rfl
@[simp] theorem State.setPaused_halted (s : State) (b : Bool) : (s.setPaused b).halted = s.halted := rfl
@[simp] theorem State.setPaused_fault (s : State) (b : Bool) : (s.setPaused b).fault = s.fault := rfl
@[simp] theorem State.setPaused_log (s : State) (b : Bool) : (s.setPaused b).log = s.log := rfl
@[simp] theorem State.setPaused_paused (s : State) (b : Bool) : (s.setPaused b).paused = b := rfl
@[simp] theorem State.setPaused_rngDraws (s : State) (b : Bool) : (s.setPaused b).rngDraws = s.rngDraws := rfl

@[simp] theorem State.tickTimers_params (s : State) : (s.tickTimers).params = s.params := rfl
@[simp] theorem State.tickTimers_mem (s : State) : (s.tickTimers).mem = s.mem := rfl
@[simp] theorem State.tickTimers_V (s : State) : (s.tickTimers).V = s.V := rfl
@[simp] theorem State.tickTimers_I (s : State) : (s.tickTimers).I = s.I := rfl
@[simp] theorem State.tickTimers_pc (s : State) : (s.tickTimers).pc = s.pc := rfl
@[simp] theorem State.tickTimers_stack (s : State) : (s.tickTimers).stack = s.stack := rfl
@[simp] theorem State.tickTimers_DT (s : State) :
    (s.tickTimers).DT = timerMinus s.DT (splitTime s.timerAcc s.params.timerTick).1 := rfl
@[simp] theorem State.tickTimers_ST (s : State) :
    (s.tickTimers).ST = timerMinus s.ST (splitTime s.timerAcc s.params.timerTick).1 := rfl
@[simp] theorem State.tickTimers_disp (s : State) : (s.tickTimers).disp = s.disp := rfl
@[simp] theorem State.tickTimers_keys (s : State) : (s.tickTimers).keys = s.keys := rfl
@[simp] theorem State.tickTimers_timerAcc (s : State) :
    (s.tickTimers).timerAcc = (splitTime s.timerAcc s.params.timerTick).2 := rfl
@[simp] theorem State.tickTimers_cycleAcc (s : State) : (s.tickTimers).cycleAcc = s.cycleAcc := rfl
@[simp] theorem State.tickTimers_spc (s : State) : (s.tickTimers).spc = s.spc := rfl
@[simp] theorem State.tickTimers_halted (s : State) : (s.tickTimers).halted = s.halted := rfl
@[simp] theorem State.tickTimers_fault (s : State) : (s.tickTimers).fault = s.fault := rfl
@[simp] theorem State.tickTimers_log (s : State) : (s.tickTimers).log = s.log := rfl
@[simp] theorem State.tickTimers_paused (s : State) : (s.tickTimers).paused = s.paused := rfl
@[simp] theorem State.tickTimers_rngDraws (s : State) : (s.tickTimers).rngDraws = s.rngDraws := rfl

/-! ### Whole periods (60_exceptions.md R221) -/

/-- The whole periods in a time, and the remainder: between 0 and the period. -/
theorem splitTime_spec {acc period : Rat} (hp : 0 < period) (ha : 0 ≤ acc) :
    ((splitTime acc period).1 : Rat) * period ≤ acc ∧ acc < ((splitTime acc period).1 + 1 : Rat) * period ∧
    (splitTime acc period).2 = acc - ((splitTime acc period).1 : Rat) * period := by
  have h0 : 0 ≤ (acc / period).floor := Rat.le_floor_iff.mpr (by simpa using div_nonneg ha hp.le)
  have h1 : (((acc / period).floor.toNat : Nat) : Rat) = ((acc / period).floor : Rat) := by
    have := Int.toNat_of_nonneg h0
    exact_mod_cast congrArg (fun z : Int => (z : Rat)) this
  refine ⟨?_, ?_, rfl⟩
  · show (((acc / period).floor.toNat : Nat) : Rat) * period ≤ acc
    rw [h1]
    exact (le_div_iff₀ hp).mp (Rat.floor_le _)
  · show acc < ((((acc / period).floor.toNat : Nat) : Rat) + 1) * period
    rw [h1]
    exact (div_lt_iff₀ hp).mp (by exact_mod_cast Rat.lt_floor_add_one (acc / period))

/-- The remainder is below the period. -/
theorem splitTime_rest {acc period : Rat} (hp : 0 < period) (ha : 0 ≤ acc) :
    0 ≤ (splitTime acc period).2 ∧ (splitTime acc period).2 < period := by
  obtain ⟨h1, h2, h3⟩ := splitTime_spec hp ha
  rw [h3]
  constructor <;> linarith

/-- The whole periods and the remainder are determined by their bounds. -/
theorem splitTime_unique {acc period : Rat} {n : Nat} (hp : 0 < period) (h1 : (n : Rat) * period ≤ acc)
    (h2 : acc < (n + 1 : Rat) * period) : splitTime acc period = (n, acc - (n : Rat) * period) := by
  have hf : (acc / period).floor = (n : Int) := by
    show ⌊acc / period⌋ = (n : Int)
    rw [Int.floor_eq_iff]
    exact ⟨by rw [le_div_iff₀ hp]; exact_mod_cast h1, by rw [div_lt_iff₀ hp]; exact_mod_cast h2⟩
  simp [splitTime, hf]

/-! ### One call at a time (60_exceptions.md R220) -/

theorem transact_loadROM (s : State) (bytes : List Byte) (cps : Rat) :
    transact (.loadROM bytes cps) s =
      match s.loadROM bytes cps with
      | .ok s' => .next (s', .ok)
      | .error r => .next (s, .loadFault r) := rfl

@[simp] theorem transact_update (s : State) (dt : Rat) : transact (.update dt) s = replyNone (s.update dt) := rfl

@[simp] theorem transact_process (s : State) : transact .process s = replyNone (step s) := rfl

@[simp] theorem replyNone_next (s : State) : replyNone (.next s) = .next (s, .none) := rfl

theorem replyNone_eq_next {r : Result} {t : State} {a : HostReply} :
    replyNone r = .next (t, a) ↔ r = .next t ∧ a = .none := by
  cases r <;> simp [replyNone, eq_comm]

/-! ### Update and its cycles -/

/-- What `Update` answers, its cycles run on the whole accumulator (60_exceptions.md R221). -/
theorem update_cases (s : State) (dt : Rat) :
    (dt < 0 ∧ s.update dt = .fault .negativeDeltaTime) ∨
    (0 ≤ dt ∧ s.paused = true ∧ s.update dt = .next s) ∨
    (0 ≤ dt ∧ s.paused = false ∧
      s.update dt =
        mapNext (fun t => { t with cycleAcc := (splitTime (s.cycleAcc + dt) s.spc).2 })
          (runCycles (splitTime (s.cycleAcc + dt) s.spc).1
            { s with timerAcc := s.timerAcc + dt, cycleAcc := s.cycleAcc + dt }.tickTimers)) := by
  unfold State.update
  split
  · exact .inl ⟨by assumption, rfl⟩
  · rename_i h
    cases hp : s.paused
    · refine .inr (.inr ⟨not_lt.mp h, rfl, ?_⟩)
      rw [if_neg (by simp)]
      simp only [State.tickTimers]
      generalize runCycles _ _ = r
      cases r <;> rfl
    · exact .inr (.inl ⟨not_lt.mp h, rfl, rfl⟩)

/-- A relation that every cycle keeps is kept by any number of cycles. -/
theorem runCycles_induction {P : State → Prop} (hP : ∀ s t, P s → step s = .next t → P t) {n : Nat} {s t : State}
    (hs : P s) (h : runCycles n s = .next t) : P t := by
  induction n generalizing s with
  | zero =>
    cases h
    exact hs
  | succ n ih =>
    unfold runCycles at h
    split at h
    · exact ih (hP _ _ hs (by assumption)) h
    · cases h
    · cases h

/-- What no cycle writes, any number of cycles leave (10_state.md R31, R32, R33). -/
theorem runCycles_hostFields {n : Nat} {s t : State} (h : runCycles n s = .next t) :
    t.params = s.params ∧ t.timerAcc = s.timerAcc ∧ t.cycleAcc = s.cycleAcc ∧ t.spc = s.spc ∧ t.paused = s.paused := by
  refine runCycles_induction (P := fun x => x.params = s.params ∧ x.timerAcc = s.timerAcc ∧ x.cycleAcc = s.cycleAcc ∧
    x.spc = s.spc ∧ x.paused = s.paused) (fun a b ha hab => ?_) ⟨rfl, rfl, rfl, rfl, rfl⟩ h
  rcases step_next hab with ⟨_, rfl⟩ | ⟨_, _, _, rfl⟩ | ⟨_, _, w, _, ⟨_, _, rfl⟩ | ⟨i, _, ⟨_, _, rfl⟩ | ⟨_, _, _, rfl⟩ | he⟩⟩
  any_goals exact ha
  rw [he.params, he.timerAcc, he.cycleAcc, he.spc, he.paused]
  exact ha

/-- Any number of cycles end in a next state. -/
theorem runCycles_total (n : Nat) (s : State) : ∃ t, runCycles n s = .next t := by
  induction n generalizing s with
  | zero => exact ⟨s, rfl⟩
  | succ n ih =>
    unfold runCycles
    rcases step_cases s with ⟨_, e⟩ | ⟨_, _, e⟩ | ⟨_, w, _, ⟨_, _, e⟩ | ⟨i, _, e⟩⟩
    · exact e ▸ ih s
    · rw [e, fetchFault_eq]
      exact ih _
    · rw [e, dispatchFault_eq]
      exact ih _
    · rw [e]
      rcases (exec_answer i s.advancePc).cases with ⟨_, _, _, e'⟩ | ⟨_, _, e'⟩ | ⟨_, _, e'⟩ <;> rw [e'] <;> exact ih _

/-! ### Sequences of Update calls (60_exceptions.md R223) -/

@[simp] theorem updateAll_nil (s : State) : updateAll [] s = .next s := rfl

/-- A first call that answers next hands its state to the rest. -/
theorem updateAll_cons {s u : State} {d : Rat} (h : s.update d = .next u) (ds : List Rat) :
    updateAll (d :: ds) s = updateAll ds u := by
  rw [updateAll, h]

@[simp] theorem updatesRun_nil {s t : State} {ticks n : Nat} :
    updatesRun [] s ticks n t ↔ ticks = 0 ∧ n = 0 ∧ t = s := Iff.rfl

/-- What an `Update` that runs leaves of the pacing state. -/
theorem State.updateRuns_hostFields {s t : State} {dt : Rat} {ticks n : Nat} (h : s.updateRuns dt ticks n t) :
    t.params = s.params ∧ t.timerAcc = s.timerAcc + dt - (ticks : Rat) * s.params.timerTick ∧
    t.cycleAcc = s.cycleAcc + dt - (n : Rat) * s.spc ∧ t.spc = s.spc ∧ t.paused = s.paused := by
  obtain ⟨-, u, hu, rfl⟩ := h
  obtain ⟨h1, h2, -, h4, h5⟩ := runCycles_hostFields hu
  exact ⟨h1, h2, rfl, h4, h5⟩

/-! ### LoadROM and construction (70_reset_and_hazards.md R250 to R253) -/

/-- What `LoadROM` can answer. -/
theorem loadROM_cases (s : State) (bytes : List Byte) (cps : Rat) :
    (bytes.length ≤ 3584 ∧ 0 < cps ∧
      s.loadROM bytes cps = .ok { s with mem := s.mem.writeBytes 0x200 bytes, pc := 0x200, spc := 1 / cps, timerAcc := 0,
                                         cycleAcc := 0, halted := false, fault := none, log := [] }) ∨
    ((bytes.length > 3584 ∨ cps ≤ 0) ∧ s.loadROM bytes cps = .error (loadFaultRecord bytes)) := by
  have hm : Config.romMax = 3584 := rfl
  unfold State.loadROM
  by_cases h : romRefused bytes cps = true
  · rw [if_pos h]
    simp only [romRefused, Bool.or_eq_true, decide_eq_true_eq, hm] at h
    exact .inr ⟨h, rfl⟩
  · rw [if_neg h]
    simp only [romRefused, Bool.or_eq_true, decide_eq_true_eq, hm, not_or, not_lt, not_le] at h
    exact .inl ⟨h.1, h.2, rfl⟩

/-- The memory a power-on leaves is canonical and reads as the font and zeros (70_reset_and_hazards.md R250). -/
theorem read_powerOn {p : Params} (hf : p.font.length = 80) (po : PowerOn) (a : Nat) :
    (State.powerOn p po).mem.wf = true ∧
    (State.powerOn p po).mem.read a =
      if 0x050 ≤ a then (p.font[a - 0x050]?).getD (Memory.unlisted a) else Memory.unlisted a := by
  have hb : Config.fontBase + p.font.length ≤ Config.memSize := by rw [hf]; decide
  refine ⟨Memory.wf_writeBytes rfl _ _ hb, ?_⟩
  exact Memory.read_writeBytes (m := []) rfl _ a _ hb

end Sys2Proof.Machine
end

