-- ==== Sys2Proof/Tests/Slice0.lean ====
section
/-! SUPPORT. The model's own tests: well-formedness smoke tests, words written out from the opcode map, one-step vectors
of spec/95_test_vectors.md, the reset values, and for each statement states that meet its hypotheses. Expected values
come from the spec's rules and vectors, never from a run of the model. -/

namespace Sys2Proof.Tests

open Sys2Proof Sys2Proof.Machine

/-! ### Helpers -/

/-- A state after reset with the first registers set. -/
def sv (vs : List Byte) : State := State.reset.loadRegs vs

/-- The same state with `EXT_OPS = true`. -/
def extOn (s : State) : State := { s with params := { s.params with extOps := true } }

/-- The same state with bytes stored from an address up. -/
def bytesAt (s : State) (a : Nat) (bs : List Byte) : State := { s with mem := s.mem.writeBytes a bs }

/-- The same state with the listed keys pressed. -/
def press (s : State) (ks : List Nibble) : State := { s with keys := Vector.ofFn fun k => ks.contains k }

/-- What one cycle running a word leaves, read by `f`. -/
def look {α : Type} (w : Nat) (s : State) (f : State → α) : Option α :=
  match step (s.withFetchWord 16 w) with
  | .next t => some (f t)
  | .fault _ => none
  | .refused _ => none

/-! ### Well-formedness: each check refuses an ill-formed term -/

theorem test_wf_extension_refused_in_baseline : Instr.wellFormed Params.default (.shr 0 1) = false := by decide

theorem test_wf_extension_accepted_with_extOps :
    Instr.wellFormed { Params.default with extOps := true } (.shr 0 1) = true := by decide

theorem test_wf_baseline_accepted : Instr.wellFormed Params.default (.addReg 0 1) = true := by decide

theorem test_wf_stackDepth_zero_refused : { Params.default with stackDepth := 0 }.wellFormed = false := by decide

theorem test_wf_font_short_refused : { Params.default with font := [0xF0] }.wellFormed = false := by decide

theorem test_wf_timerTick_zero_refused : { Params.default with timerTick := 0 }.wellFormed = false := by
  decide +kernel

theorem test_wf_default_accepted : Params.default.wellFormed = true := by decide +kernel

/-! ### Decoding: the words of 95_test_vectors.md ENC-1 and of every row, bit by bit from the patterns of R79 -/

theorem test_decode_00E0 : decodeWord 0b0000000011100000#16 = .ok .cls := by decide
theorem test_decode_00EE : decodeWord 0b0000000011101110#16 = .ok .ret := by decide
theorem test_decode_1NNN : decodeWord 0b0001101010111100#16 = .ok (.jp 0xABC) := by decide
theorem test_decode_2NNN : decodeWord 0b0010001000001000#16 = .ok (.call 0x208) := by decide
theorem test_decode_3XNN : decodeWord 0b0011001101000010#16 = .ok (.seImm 3 0x42) := by decide
theorem test_decode_4XNN : decodeWord 0b0100001101000010#16 = .ok (.sneImm 3 0x42) := by decide
theorem test_decode_5XYN : decodeWord 0b0101000100100001#16 = .ok (.seReg 1 2 1) := by decide
theorem test_decode_6XNN : decodeWord 0b0110101000010010#16 = .ok (.ldImm 0xA 0x12) := by decide
theorem test_decode_7XNN : decodeWord 0b0111101000000101#16 = .ok (.addImm 0xA 0x05) := by decide
theorem test_decode_8XY0 : decodeWord 0b1000000011110000#16 = .ok (.ldReg 0 0xF) := by decide
theorem test_decode_8XY1 : decodeWord 0b1000000000010001#16 = .ok (.orReg 0 1) := by decide
theorem test_decode_8XY2 : decodeWord 0b1000000000010010#16 = .ok (.andReg 0 1) := by decide
theorem test_decode_8XY3 : decodeWord 0b1000000000010011#16 = .ok (.xorReg 0 1) := by decide
theorem test_decode_8XY4 : decodeWord 0b1000101010110100#16 = .ok (.addReg 0xA 0xB) := by decide
theorem test_decode_8XY5 : decodeWord 0b1000111100000101#16 = .ok (.subReg 0xF 0) := by decide
theorem test_decode_8XY6 : decodeWord 0b1000101010110110#16 = .ok (.shr 0xA 0xB) := by decide
theorem test_decode_8XY7 : decodeWord 0b1000111100000111#16 = .ok (.subn 0xF 0) := by decide
theorem test_decode_8XYE : decodeWord 0b1000101010111110#16 = .ok (.shl 0xA 0xB) := by decide
theorem test_decode_9XYN : decodeWord 0b1001000100100001#16 = .ok (.sneReg 1 2 1) := by decide
theorem test_decode_ANNN : decodeWord 0b1010001100000000#16 = .ok (.ldI 0x300) := by decide
theorem test_decode_BNNN : decodeWord 0b1011001100000000#16 = .ok (.jpV0 0x300) := by decide
theorem test_decode_CXNN : decodeWord 0b1100001100001111#16 = .ok (.rnd 3 0x0F) := by decide
theorem test_decode_DXYN : decodeWord 0b1101000100100011#16 = .ok (.drw 1 2 3) := by decide
theorem test_decode_EX9E : decodeWord 0b1110000110011110#16 = .ok (.skp 1) := by decide
theorem test_decode_EXA1 : decodeWord 0b1110000110100001#16 = .ok (.sknp 1) := by decide
theorem test_decode_FX07 : decodeWord 0b1111001100000111#16 = .ok (.ldVxDT 3) := by decide
theorem test_decode_FX0A : decodeWord 0b1111001000001010#16 = .ok (.ldVxK 2) := by decide
theorem test_decode_FX15 : decodeWord 0b1111001100010101#16 = .ok (.ldDTVx 3) := by decide
theorem test_decode_FX18 : decodeWord 0b1111001100011000#16 = .ok (.ldSTVx 3) := by decide
theorem test_decode_FX1E : decodeWord 0b1111001000011110#16 = .ok (.addI 2) := by decide
theorem test_decode_FX29 : decodeWord 0b1111001000101001#16 = .ok (.ldF 2) := by decide
theorem test_decode_FX33 : decodeWord 0b1111010100110011#16 = .ok (.ldB 5) := by decide
theorem test_decode_FX55 : decodeWord 0b1111000101010101#16 = .ok (.ldMemVx 1) := by decide
theorem test_decode_FX65 : decodeWord 0b1111010001100101#16 = .ok (.ldVxMem 4) := by decide

/-- ENC-1: the words with no handler in any configuration, and two bytes are needed. -/
theorem test_decode_rejects :
    ([0x00E1, 0x0000, 0x0123, 0x8AB8, 0xE1A2, 0xF1FF] : List Word).map decodeWord =
      [.error (.noHandler 0x00E1), .error (.noHandler 0x0000), .error (.noHandler 0x0123), .error (.noHandler 0x8008),
        .error (.noHandler 0xE0A2), .error (.noHandler 0xF0FF)] := by decide

theorem test_decodeBytes_big_endian : decodeBytes [0xA3, 0x00, 0x77] = .ok (.ldI 0x300, [0x77]) := by decide

theorem test_decodeBytes_truncated : decodeBytes [0xA3] = .error .truncated := by decide

theorem test_decodeTableWord : decodeTableWord 16 0xD123 = some (.drw 1 2 3) := by decide

/-- ENC-1: the dispatch keys. -/
theorem test_decodeKey :
    ([0x0123, 0x1ABC, 0x5121, 0x8ABE, 0xE19E, 0xF21E] : List Word).map decodeKey =
      [0x0123, 0x1000, 0x5000, 0x800E, 0xE09E, 0xF01E] := by decide

/-! ### Reset (10_state.md R35) -/

theorem test_reset_pc_and_status :
    (State.reset.pc, State.reset.halted, State.reset.fault, State.reset.log, State.reset.paused) =
      (0x200, false, none, [], false) := by decide

/-- 20_memory.md R52: the first and the last glyph, and zero beside the font. -/
theorem test_reset_font :
    ([0x04F, 0x050, 0x051, 0x09B, 0x09F, 0x0A0].map State.reset.mem.read) =
      [0x00, 0xF0, 0x90, 0xF0, 0x80, 0x00] := by decide

theorem test_reset_spc : State.reset.spc = 1 / 700 := by decide +kernel

/-! ### Fetch and dispatch (95_test_vectors.md ENC-2 to ENC-6) -/

/-- ENC-2. -/
theorem test_enc2_dispatchFault :
    look 0x0000 State.reset (fun t => (t.log, t.pc, t.halted)) =
      some ([⟨.dispatch, some 0x200, some 0x0000, .none⟩], 0x202, false) := by decide

/-- ENC-3: the last fetchable word. -/
theorem test_enc3_last_word :
    look 0x6001 { State.reset with pc := 0xFFE } (fun t => (t.readV 0, t.pc)) = some (0x01, 0x1000) := by decide

/-- ENC-4: a fetch at FFF. -/
theorem test_enc4_fetchFault :
    look 0x6001 { State.reset with pc := 0xFFF } (fun t => (t.fault, t.pc, t.halted)) =
      some (some ⟨.fetch, some 0xFFF, none, .none⟩, 0xFFF, true) := by decide

/-- ENC-1: the extension 8AB6 in the baseline. -/
theorem test_ext_in_baseline :
    look 0x8AB6 State.reset (fun t => (t.log, t.pc)) =
      some ([⟨.dispatch, some 0x200, some 0x8AB6, .none⟩], 0x202) := by decide

/-! ### Display (DISP-1 to DISP-12) -/

/-- DISP-1: cells (0, 0), (5, 7), (63, 31). -/
theorem test_disp1_cls : look 0x00E0 { State.reset with disp := [0, 453, 2047] } (fun t => t.disp) = some [] := by decide

/-- DISP-2: mem[300] = 81 at (10, 5) turns on (10, 5) and (17, 5). -/
theorem test_disp2_draw :
    look 0xD231 { bytesAt (sv [0, 0, 0x0A, 0x05]) 0x300 [0x81] with I := 0x300 }
      (fun t => (t.cell 10 5, t.cell 17 5, t.disp.length, t.readV 0xF)) = some (true, true, 2, 0) := by decide

/-- DISP-4: the collision at (17, 5). -/
theorem test_disp4_collision :
    look 0xD231 { bytesAt (sv [0, 0, 0x11, 0x05]) 0x300 [0x81] with I := 0x300, disp := [330, 337] }
      (fun t => (t.cell 10 5, t.cell 17 5, t.cell 24 5, t.readV 0xF)) = some (true, false, true, 1) := by decide

/-- DISP-3: glyph 0 of the font, 14 cells. -/
theorem test_disp3_font :
    look 0xD015 { State.reset with I := 0x050 }
      (fun t => (t.cell 0 0, t.cell 3 1, t.cell 1 1, t.cell 3 4, t.disp.length)) =
      some (true, true, false, true, 14) := by decide

/-- DISP-6 under `FAULT`: nothing changes but the fault. -/
theorem test_disp6_edge_fault :
    look 0xD231 { bytesAt (sv [0, 0, 0x3E, 0]) 0x300 [0xF0] with I := 0x300 } (fun t => (t.fault, t.disp, t.pc)) =
      some (some ⟨.drawEdge, some 0x200, some 0xD231, .cell 64 0⟩, [], 0x202) := by decide

/-- DISP-6 under `WRAP` and `CLIP`. -/
theorem test_disp6_edge_wrap_and_clip :
    ([DrawEdge.wrap, .clip].map fun m =>
      look 0xD231 { bytesAt (sv [0, 0, 0x3E, 0]) 0x300 [0xF0] with
        I := 0x300, params := { Params.default with drawEdge := m } } (fun t => t.disp)) =
      [some [0, 1, 62, 63], some [62, 63]] := by decide

/-- DISP-11: MemoryFault before DrawEdgeFault. -/
theorem test_disp11_memory_first :
    look 0xD233 { bytesAt (sv [0, 0, 0x3E, 0]) 0xFFE [0xFF, 0xFF] with I := 0xFFE } (fun t => t.fault) =
      some (some ⟨.memory, some 0x200, some 0xD233, .address 0x1000⟩) := by decide

/-- DISP-9: N = 0 reads nothing and clears VF. -/
theorem test_disp9_no_rows :
    look 0xD230 { State.reset.writeV 0xF 1 with I := 0xFFFF } (fun t => (t.readV 0xF, t.fault)) = some (0, none) := by
  decide

/-! ### Control flow (CF-1 to CF-9) -/

theorem test_cf1_call : look 0x2208 State.reset (fun t => (t.stack, t.pc)) = some ([0x202], 0x208) := by decide

theorem test_cf1_return :
    look 0x00EE { State.reset with stack := [0x204] } (fun t => (t.stack, t.pc)) = some ([], 0x204) := by decide

theorem test_cf2_underflow :
    look 0x00EE State.reset (fun t => (t.fault, t.pc, t.halted)) =
      some (some ⟨.stackUnderflow, some 0x200, some 0x00EE, .none⟩, 0x202, true) := by decide

theorem test_cf3_overflow :
    look 0x2300 { State.reset with stack := List.replicate 16 0x202 } (fun t => (t.fault, t.pc, t.stack.length)) =
      some (some ⟨.stackOverflow, some 0x200, some 0x2300, .none⟩, 0x202, 16) := by decide

theorem test_cf5_jump : look 0x1FFF State.reset (fun t => t.pc) = some 0xFFF := by decide

theorem test_cf8_skips_immediate :
    [look 0x3342 (extOn (sv [0, 0, 0, 0x42])) (fun t => t.pc), look 0x3342 (extOn (sv [0, 0, 0, 0x43])) (fun t => t.pc),
      look 0x4342 (extOn (sv [0, 0, 0, 0x42])) (fun t => t.pc),
      look 0x4342 (extOn (sv [0, 0, 0, 0x43])) (fun t => t.pc)] =
      [some 0x204, some 0x202, some 0x202, some 0x204] := by decide

theorem test_cf8_skips_register :
    [look 0x5121 (extOn (sv [0, 7, 7])) (fun t => t.pc), look 0x5120 (extOn (sv [0, 7, 8])) (fun t => t.pc),
      look 0x9120 (extOn (sv [0, 7, 8])) (fun t => t.pc), look 0x9120 (extOn (sv [0, 7, 7])) (fun t => t.pc)] =
      [some 0x204, some 0x202, some 0x204, some 0x202] := by decide

theorem test_cf9_offset_jump :
    ([JumpOffset.v0, .vx].map fun m =>
      look 0xB300 { sv [0x10, 0, 0, 0x20] with params := { Params.default with extOps := true, jumpOffset := m } }
        (fun t => t.pc)) = [some 0x310, some 0x320] := by decide

/-! ### Registers and ALU (SRC-1, SRC-2, ALU-1 to ALU-11) -/

theorem test_alu1_load : look 0x6A12 State.reset (fun t => t.readV 0xA) = some 0x12 := by decide

theorem test_alu2_add_wraps_no_flag :
    look 0x7A01 ((State.reset.writeV 0xA 0xFF).writeV 0xF 0x55) (fun t => (t.readV 0xA, t.readV 0xF)) =
      some (0x00, 0x55) := by decide

theorem test_alu4_copy : look 0x80F0 (State.reset.writeV 0xF 0x01) (fun t => t.readV 0) = some 0x01 := by decide

theorem test_alu5_logic :
    ([(0x8011, [0x0F, 0xF0]), (0x8012, [0x3C, 0x0F]), (0x8013, [0x3C, 0x0F])].map fun c =>
      look c.1 ((sv c.2).writeV 0xF 1) (fun t => (t.readV 0, t.readV 0xF))) =
      [some (0xFF, 0x01), some (0x0C, 0x01), some (0x33, 0x01)] := by decide

theorem test_src1_add :
    ([[0xFF, 0x01], [0xFF, 0x00], [0x80, 0x80], [0x7F, 0x80]].map fun c =>
      look 0x8014 (sv c) (fun t => (t.readV 0, t.readV 0xF))) =
      [some (0x00, 1), some (0xFF, 0), some (0x00, 1), some (0xFF, 0)] := by decide

/-- ALU-6: the flag wins with X = F. -/
theorem test_alu6_add_flag_wins :
    look 0x8F14 ((sv [0, 0x90]).writeV 0xF 0x80) (fun t => t.readV 0xF) = some 1 := by decide

theorem test_src2_sub :
    ([[0x05, 0x07], [0x07, 0x05], [0x05, 0x05], [0x00, 0x01]].map fun c =>
      look 0x8015 (sv c) (fun t => (t.readV 0, t.readV 0xF))) =
      [some (0xFE, 0), some (0x02, 1), some (0x00, 1), some (0xFF, 0)] := by decide

theorem test_src2_subn :
    ([[0x05, 0x07], [0x07, 0x05], [0x05, 0x05], [0xFF, 0x00]].map fun c =>
      look 0x8017 (sv c) (fun t => (t.readV 0, t.readV 0xF))) =
      [some (0x02, 1), some (0xFE, 0), some (0x00, 1), some (0x01, 0)] := by decide

/-- ALU-10 with `SHIFT_SRC = VY`. -/
theorem test_alu10_shift_vy :
    [look 0x8016 (extOn (sv [0, 0x05])) (fun t => (t.readV 0, t.readV 0xF)),
      look 0x801E (extOn (sv [0, 0x81])) (fun t => (t.readV 0, t.readV 0xF))] = [some (0x02, 1), some (0x02, 1)] := by
  decide

/-- ALU-10 with `SHIFT_SRC = VX`. -/
theorem test_alu10_shift_vx :
    ([(0x8016, [0x04, 0x05]), (0x801E, [0x40, 0x81])].map fun c =>
      look c.1 { sv c.2 with params := { Params.default with extOps := true, shiftSrc := .vx } }
        (fun t => (t.readV 0, t.readV 0xF))) = [some (0x02, 0), some (0x80, 0)] := by decide

/-- ALU-11: a zero mask gives zero, whatever the draw. -/
theorem test_alu11_random_mask_zero :
    look 0xC300 (extOn (sv [0, 0, 0, 0x55])) (fun t => (t.readV 3, t.rngDraws)) = some (0x00, 1) := by
  show some (Config.rng 0 &&& 0, 1) = some (0x00, 1)
  simp

/-! ### Index and memory (IDX-1 to IDX-7) -/

theorem test_idx1_load : look 0xAFFF State.reset (fun t => t.I) = some 0xFFF := by decide

theorem test_idx2_add :
    ([false, true].map fun f =>
      look 0xF21E { (sv [0, 0, 0x01]).writeV 0xF 7 with I := 0xFFFF, params := { Params.default with fx1eSetsVF := f } }
        (fun t => (t.I, t.readV 0xF))) = [some (0x0000, 7), some (0x0000, 1)] := by decide

theorem test_idx4_font :
    ([0x00, 0x0A, 0x0F, 0x1A].map fun b => look 0xF429 (extOn (sv [0, 0, 0, 0, b])) (fun t => t.I)) =
      [some 0x050, some 0x082, some 0x09B, some 0x082] := by decide

theorem test_idx5_bcd :
    look 0xF533 { extOn (sv [0, 0, 0, 0, 0, 0x9C]) with I := 0xFFD }
      (fun t => [0xFFD, 0xFFE, 0xFFF].map t.mem.read) = some [1, 5, 6] := by decide

theorem test_idx5_bcd_fault :
    look 0xF533 { extOn State.reset with I := 0x1FF } (fun t => t.fault) =
      some (some ⟨.memory, some 0x200, some 0xF533, .address 0x1FF⟩) := by decide

theorem test_idx6_store :
    ([false, true].map fun b =>
      look 0xF155 { sv [1, 2, 3] with
        I := 0x300, params := { Params.default with extOps := true, ldstIncI := b } }
        (fun t => ([0x300, 0x301, 0x302].map t.mem.read, t.I))) =
      [some ([1, 2, 0], 0x300), some ([1, 2, 0], 0x302)] := by decide

theorem test_idx7_load :
    look 0xF465 { extOn (sv [0, 0, 0, 0, 0, 0x77]) with I := 0x050 }
      (fun t => ([0, 1, 2, 3, 4, 5].map t.readV, t.I)) = some ([0xF0, 0x90, 0x90, 0x90, 0xF0, 0x77], 0x050) := by decide

theorem test_idx7_load_fault :
    look 0xF165 { extOn State.reset with I := 0xFFF } (fun t => t.fault) =
      some (some ⟨.memory, some 0x200, some 0xF165, .address 0x1000⟩) := by decide

/-! ### Keypad and timers (KT-1 to KT-6, TIM-2, TIM-5) -/

theorem test_kt1_skp :
    [look 0xE19E (press (sv [0, 3]) [3]) (fun t => t.pc), look 0xE19E (press (sv [0, 3]) [2]) (fun t => t.pc)] =
      [some 0x204, some 0x202] := by decide

theorem test_kt2_sknp :
    [look 0xE1A1 (press (sv [0, 3]) [3]) (fun t => t.pc), look 0xE1A1 (press (sv [0, 3]) [2]) (fun t => t.pc)] =
      [some 0x202, some 0x204] := by decide

theorem test_kt3_key_index :
    look 0xE19E (sv [0, 0x10]) (fun t => (t.fault, t.pc)) =
      some (some ⟨.keyIndex, some 0x200, some 0xE19E, .index 0x10⟩, 0x202) := by decide

theorem test_kt4_read_timer : look 0xF307 { State.reset with DT := 9 } (fun t => t.readV 3) = some 9 := by decide

theorem test_kt5_write_timers :
    [look 0xF315 (sv [0, 0, 0, 0x3C]) (fun t => (t.DT, t.ST)), look 0xF318 (sv [0, 0, 0, 0x3C]) (fun t => (t.DT, t.ST))] =
      [some (0x3C, 0), some (0, 0x3C)] := by decide

theorem test_kt6_key_wait :
    ([[], [9, 5], [0xF]].map fun ks => look 0xF20A (press (sv [0, 0, 0x77]) ks) (fun t => (t.readV 2, t.pc))) =
      [some (0x77, 0x200), some (0x05, 0x202), some (0x0F, 0x202)] := by decide

/-- TIM-2: two whole seconds of 5/2. -/
theorem test_tim2_ticks :
    (fun t : State => (t.DT, t.ST, t.timerAcc))
        { State.reset with DT := 0x0A, ST := 0x03, timerAcc := 5 / 2 }.tickTimers = (0x08, 0x01, 1 / 2) := by
  decide +kernel

/-- SRC-5: 1/3 of a second at 700 cycles per second is 233 cycles, 1/2100 left. -/
theorem test_src5_pacing : splitTime (1 / 3) (1 / 700) = (233, 1 / 2100) := by decide +kernel

/-! ### Load (LOAD-1 to LOAD-4) -/

theorem test_load4_reload :
    (match (bytesAt (State.reset.writeV 0 3) 0x200 [0x60, 0x01, 0x70, 0x02]).loadROM [0x12, 0x00] 700 with
      | .ok t => ([0x200, 0x201, 0x202, 0x203].map t.mem.read, t.readV 0, t.pc)
      | .error _ => ([], 0, 0)) = ([0x12, 0x00, 0x70, 0x02], 0x03, 0x200) := by decide +kernel

theorem test_load3_rate_zero : romRefused [] 0 = true := by decide +kernel

/-! ### Witnesses: for each statement with hypotheses, states and operands that meet all of them together -/

/-- A state with one word at 0x200, where `pc` stands. -/
def at200 (w : Nat) (s : State) : State := s.withFetchWord 16 w

/-- What one cycle leaves. -/
def after (s : State) : State :=
  match step s with
  | .next t => t
  | .fault _ => s
  | .refused _ => s

/-- The rows: each key matches its own row's mask, for every decodesRow clause and OpcodeMapRowsPartitionWords. -/
theorem witness_decodesRow : ∀ r ∈ opcodeMap, r.key &&& r.mask = r.key := by decide

theorem witness_StepRunsDecodedInstruction :
    ∃ (s : State) (w : Word) (i : Instr), s.halted = false ∧ fetchWord s = some w ∧ decodeWord w = .ok i :=
  ⟨at200 0x8014 State.reset, 0x8014, .addReg 0 1, by decide⟩

/-- The two clauses at their boundary, `pc` = 0xFFE and 0xFFF. -/
theorem witness_FetchReadsBigEndianOrFaults :
    (∃ s : State, s.halted = false ∧ s.pc.toNat = 0xFFE) ∧ ∃ s : State, s.halted = false ∧ s.pc.toNat = 0xFFF :=
  ⟨⟨{ State.reset with pc := 0xFFE }, by decide⟩, ⟨{ State.reset with pc := 0xFFF }, by decide⟩⟩

theorem witness_DispatchRunsHandlerOrLogsAndSkips :
    (∃ (s : State) (w : Word), s.halted = false ∧ fetchWord s = some w ∧ decodeKey w ∈ handlerSet s.params.extOps) ∧
    (∃ (s : State) (w : Word), s.halted = false ∧ fetchWord s = some w ∧ decodeKey w ∉ handlerSet s.params.extOps ∧
      decodeKey w ∈ handlerSet true) ∧
    (∃ (s : State) (w : Word), s.halted = false ∧ fetchWord s = some w ∧ decodeKey w ∉ handlerSet true) :=
  ⟨⟨at200 0x8AB6 (extOn State.reset), 0x8AB6, by decide⟩, ⟨at200 0x8AB6 State.reset, 0x8AB6, by decide⟩,
    ⟨at200 0x8AB8 (extOn State.reset), 0x8AB8, by decide⟩⟩

theorem witness_ExtensionsRaiseDispatchFaultInBaseline :
    ∃ (i : Instr) (s : State), i.isBaseline = false ∧ s.params.extOps = false := ⟨.shl 0 1, State.reset, by decide⟩

theorem witness_HaltedRunsNothingUntilLoad :
    ∃ s : State, s.halted = true ∧ s.paused = false ∧ (0 : Rat) ≤ 5 / 2 ∧
      ∃ t r, transact (.loadROM [] 700) s = .next (t, r) ∧ t.halted = false :=
  ⟨{ State.reset with halted := true }, rfl, rfl, by norm_num, _, _,
    by rw [transact, State.loadROM, if_neg (by decide +kernel)], rfl⟩

/-- A fetch that faults, and a handler that does. -/
theorem witness_FatalFaultWritesNothingElse :
    (∃ s t : State, step s = .next t ∧ s.halted = false ∧ t.halted = true) ∧
    (∃ s t : State, step s = .next t ∧ s.halted = false ∧ t.halted = true ∧ fetchWord s = some 0x00EE) :=
  ⟨⟨{ State.reset with pc := 0x1000 }, after { State.reset with pc := 0x1000 }, rfl, rfl, rfl⟩,
    ⟨at200 0x00EE State.reset, after (at200 0x00EE State.reset), rfl, rfl, rfl, by decide⟩⟩

theorem witness_LogGrowsByDispatchFaultOnly : ∃ s t : State, step s = .next t ∧ t.log ≠ s.log :=
  ⟨State.reset, after State.reset, rfl, by decide⟩

/-- A state after some cycles that has the invariant. -/
def running : State := { State.reset with pc := 0x202, stack := [0x1000], V := Vector.replicate 16 7 }

theorem running_inv : running.Inv := by
  constructor
  · decide +kernel
  · rfl
  · intro a ha
    exact unlisted_eq_lowByte a
  · decide
  · decide
  · simp [running]
  · decide
  · decide +kernel
  · decide +kernel
  · rfl
  · simp [running, State.reset]
  · simp [running, State.reset]

theorem witness_CycleKeepsInvariant : ∃ s t : State, s.Inv ∧ step s = .next t :=
  ⟨running, after running, running_inv, rfl⟩

theorem witness_TransactionsKeepInvariant :
    ∃ (c : HostCall) (s t : State) (r : HostReply), s.Inv ∧ transact c s = .next (t, r) :=
  ⟨.setKeys 0x8001, running, _, _, running_inv, rfl⟩

theorem witness_ConstructionHasInvariant :
    ∃ (p : Params) (po : PowerOn), p.wellFormed = true ∧ Display.wf p po.disp = true :=
  ⟨Params.default, { PowerOn.zeroed with disp := [0, 2047] }, by decide +kernel⟩

theorem witness_ParametersNeverChange :
    ∃ (c : HostCall) (s t : State) (r : HostReply), transact c s = .next (t, r) :=
  ⟨.setPaused true, State.reset, _, _, rfl⟩

theorem witness_FontAndReservedRangeNeverChange :
    (∃ s t : State, s.params.extOps = false ∧ step s = .next t) ∧ (0x1FF < 0x200) ∧
    ∃ (c : HostCall) (s t : State) (r : HostReply), s.mem.wf = true ∧ transact c s = .next (t, r) :=
  ⟨⟨running, after running, rfl, rfl⟩, by decide, ⟨.process, running, after running, .none, rfl, rfl⟩⟩

theorem witness_DisplayChangesOnlyByClearAndDraw :
    (∃ s t : State, step s = .next t ∧ t.disp ≠ s.disp) ∧
    ∃ (c : HostCall) (s t : State) (r : HostReply), transact c s = .next (t, r) ∧ t.disp ≠ s.disp :=
  ⟨⟨at200 0x00E0 { State.reset with disp := [5] }, after (at200 0x00E0 { State.reset with disp := [5] }), rfl, by decide⟩,
    ⟨.process, at200 0xD005 { State.reset with I := 0x050 }, after (at200 0xD005 { State.reset with I := 0x050 }), .none,
      rfl, by decide⟩⟩

theorem witness_StackChangesOnlyByCallAndReturn :
    (∃ s t : State, step s = .next t ∧ t.stack.length = s.stack.length + 1) ∧
    ∃ s t : State, step s = .next t ∧ t.stack.length + 1 = s.stack.length :=
  ⟨⟨at200 0x2208 State.reset, after (at200 0x2208 State.reset), rfl, by decide⟩,
    ⟨at200 0x00EE { State.reset with stack := [0x204] }, after (at200 0x00EE { State.reset with stack := [0x204] }), rfl,
      by decide⟩⟩

theorem witness_CycleLeavesHostStateAlone :
    (∃ s t : State, step s = .next t ∧ t.DT ≠ s.DT) ∧ ∃ s t : State, step s = .next t ∧ t.ST ≠ s.ST :=
  ⟨⟨at200 0xF015 (sv [9]), after (at200 0xF015 (sv [9])), rfl, by decide⟩,
    ⟨at200 0xF018 (sv [9]), after (at200 0xF018 (sv [9])), rfl, by decide⟩⟩

theorem witness_BaselineIgnoresOpenParameters : ∃ s t : State, s.params.extOps = false ∧ step s = .next t :=
  ⟨at200 0xF21E (sv [0, 0, 9]), after (at200 0xF21E (sv [0, 0, 9])), rfl, rfl⟩

theorem witness_EncodeOfDecodeIsSame : ∃ (w : Word) (i : Instr), decodeWord w = .ok i :=
  ⟨0x5121, .seReg 1 2 1, by decide⟩

/-- DISP-6 without its fault: a sprite of four set pixels from column 62 on. -/
def edgeState (m : DrawEdge) : State :=
  { bytesAt (sv [0, 0, 0x3E, 0]) 0x300 [0xF0] with I := 0x300, params := { Params.default with drawEdge := m } }

/-- A sprite with set pixels up to the right edge under `FAULT`, and past it under `WRAP` and `CLIP`. -/
theorem witness_DrawFlipsTheSpriteCells :
    (∃ (x y n : Nibble) (s : State), Display.wf s.params s.disp = true ∧ s.spriteInMemory n ∧
      s.params.drawEdge = .fault ∧ s.spriteBit 0 1 = true ∧
      ∀ r c, r < n.val → c < 8 → s.spriteBit r c = true → s.pixelOnDisplay x y r c) ∧
    ∀ m ∈ [DrawEdge.wrap, .clip], Display.wf (edgeState m).params (edgeState m).disp = true ∧
      (edgeState m).spriteInMemory 1 ∧ (edgeState m).params.drawEdge = m ∧ m ≠ .fault ∧
      (edgeState m).spriteBit 0 3 = true ∧ ¬ (edgeState m).pixelOnDisplay 2 3 0 3 := by
  refine ⟨⟨2, 3, 1, { bytesAt (sv [0, 0, 0x3E, 0]) 0x300 [0xC0] with I := 0x300, disp := [62] }, by decide,
    .inr (by decide), rfl, by decide, ?_⟩, ?_⟩
  · unfold State.pixelOnDisplay
    intro r c hr
    obtain rfl : r = 0 := by simpa using hr
    revert c
    decide
  · unfold State.spriteInMemory State.pixelOnDisplay
    decide

/-- The last byte of the sprite at 0x1000, and the first set pixel in column 64. -/
theorem witness_DrawFaultsBeforeWriting :
    (∃ (n : Nibble) (s : State), ¬ s.spriteInMemory n ∧ s.I.toNat + n.val - 1 = 0x1000) ∧
    ∃ (x y n : Nibble) (s : State) (r c : Nat), s.spriteInMemory n ∧ s.params.drawEdge = .fault ∧ r < n.val ∧ c < 8 ∧
      s.spriteBit r c = true ∧ ¬ s.pixelOnDisplay x y r c ∧
      ∀ r' c', c' < 8 → (r' < r ∨ r' = r ∧ c' < c) → s.spriteBit r' c' = true → s.pixelOnDisplay x y r' c' := by
  refine ⟨⟨3, { State.reset with I := 0xFFE }, ?_, by decide⟩,
    ⟨2, 3, 1, { bytesAt (sv [0, 0, 0x3E, 0]) 0x300 [0xF0] with I := 0x300 }, 0, 2, .inr (by decide), rfl, by decide,
      by decide, by decide, ?_, ?_⟩⟩
  · unfold State.spriteInMemory
    decide
  · unfold State.pixelOnDisplay
    decide
  · unfold State.pixelOnDisplay
    rintro r' c' hc' (h | ⟨rfl, h⟩)
    · omega
    · revert c'
      decide

/-- The drawing state of DISP-4. -/
def drawing : State := { bytesAt (sv [0, 0, 0x11, 0x05]) 0x300 [0x81] with I := 0x300, disp := [330, 337] }

/-- The state its draw leaves. -/
def drawn : State :=
  match exec (.drw 2 3 1) drawing with
  | .next t => t
  | .fault _ => drawing
  | .refused _ => drawing

theorem witness_DrawFlagReportsCollision :
    Display.wf drawing.params drawing.disp = true ∧ drawing.halted = false ∧ exec (.drw 2 3 1) drawing = .next drawn ∧
      drawn.halted = false := ⟨by decide, rfl, rfl, by decide⟩

theorem witness_DrawTwiceRestoresDisplay :
    Display.wf drawing.params drawing.disp = true ∧ drawing.halted = false ∧ exec (.drw 2 3 1) drawing = .next drawn ∧
      drawn.halted = false ∧ drawn.readV 2 = drawing.readV 2 ∧ drawn.readV 3 = drawing.readV 3 :=
  ⟨by decide, rfl, rfl, by decide, by decide, by decide⟩

theorem witness_ReturnPopsOrUnderflows :
    (∃ (s : State) (a : Word) (rest : List Word), s.stack = a :: rest) ∧ ∃ s : State, s.stack = [] :=
  ⟨⟨{ State.reset with stack := [0x204] }, 0x204, [], rfl⟩, ⟨State.reset, rfl⟩⟩

/-- The stack one entry from full, and full. -/
theorem witness_CallPushesOrOverflows :
    (∃ s : State, s.stack.length + 1 = s.params.stackDepth ∧ s.stack.length < s.params.stackDepth) ∧
    ∃ s : State, s.stack.length = s.params.stackDepth :=
  ⟨⟨{ State.reset with stack := List.replicate 15 0x202 }, by decide⟩,
    ⟨{ State.reset with stack := List.replicate 16 0x202 }, by decide⟩⟩

/-- `EXT_OPS = true`, the one hypothesis of the statements about 3XNN, 4XNN, 5XYN, 9XYN, CXNN and FX29. -/
theorem witness_extOps : ∃ s : State, s.params.extOps = true := ⟨extOn State.reset, rfl⟩

theorem witness_OffsetJumpAddsRegister :
    (∃ s : State, s.params.extOps = true ∧ s.params.jumpOffset = .v0) ∧
    ∃ (nnn : Addr12) (s : State) (x : Nibble), s.params.extOps = true ∧ s.params.jumpOffset = .vx ∧
      x.val = nnn.toNat / 256 :=
  ⟨⟨extOn State.reset, rfl, rfl⟩,
    ⟨0xFFF, { State.reset with params := { Params.default with extOps := true, jumpOffset := .vx } }, 0xF, by decide⟩⟩

/-- `1200` at 0x200. -/
theorem witness_ParkedStateStays : ∃ s : State, s.parked = true := ⟨at200 0x1200 State.reset, by decide⟩

theorem witness_ShiftsMoveOneBitOut :
    (∃ (y z : Nibble) (s : State), s.params.extOps = true ∧ s.params.shiftSrc = .vy ∧ z = y) ∧
    ∃ (x z : Nibble) (s : State), s.params.extOps = true ∧ s.params.shiftSrc = .vx ∧ z = x :=
  ⟨⟨1, 1, extOn State.reset, by decide⟩,
    ⟨0, 0, { State.reset with params := { Params.default with extOps := true, shiftSrc := .vx } }, by decide⟩⟩

theorem witness_AddIndexWrapsAtSixteenBits :
    (∃ s : State, s.params.fx1eSetsVF = false) ∧ ∃ s : State, s.params.fx1eSetsVF = true :=
  ⟨⟨State.reset, rfl⟩, ⟨{ State.reset with params := { Params.default with fx1eSetsVF := true } }, rfl⟩⟩

/-- An extension state with I at an address. -/
def extAt (a : Word) : State := { extOn State.reset with I := a }

theorem extAt_ok (a : Word) : (extAt a).params.extOps = true ∧ (extAt a).mem.wf = true ∧ (extAt a).I = a :=
  ⟨rfl, rfl, rfl⟩

/-- I = 0x200 and 0xFFD store, 0x1FF and 0xFFE fault. -/
theorem witness_BcdStoresDigitsOrFaults :
    (0x200 ≤ (extAt 0x200).I.toNat ∧ (extAt 0x200).I.toNat + 2 ≤ 0xFFF) ∧
    (0x200 ≤ (extAt 0xFFD).I.toNat ∧ (extAt 0xFFD).I.toNat + 2 ≤ 0xFFF) ∧
    (extAt 0x1FF).I.toNat < 0x200 ∧ (extAt 0xFFE).I.toNat + 2 > 0xFFF := by decide

/-- With X = F: I = 0xFF0 stores, 0xFF1 and 0x1FF fault. -/
theorem witness_BlockStoreWritesRegistersOrFaults :
    (0x200 ≤ (extAt 0xFF0).I.toNat ∧ (extAt 0xFF0).I.toNat + (0xF : Nibble).val ≤ 0xFFF) ∧
    (extAt 0xFF1).I.toNat + (0xF : Nibble).val > 0xFFF ∧ (extAt 0x1FF).I.toNat < 0x200 := by decide

/-- With X = 0: I = 0xFFF loads, with X = 1 it faults. -/
theorem witness_BlockLoadReadsRegistersOrFaults :
    (extAt 0xFFF).I.toNat + (0 : Nibble).val ≤ 0xFFF ∧ (extAt 0xFFF).I.toNat + (1 : Nibble).val > 0xFFF := by decide

/-- V0 = 0x0F names key F, V0 = 0x10 none. -/
theorem witness_KeySkipsTestTheKey :
    ((sv [0x0F]).readV 0).toNat = (0xF : Nibble).val ∧ ((sv [0x10]).readV 0).toNat > 0x0F := by decide

theorem witness_KeyWaitTakesLowestKey :
    (∃ s : State, ∀ k : Nibble, s.keys[k] = false) ∧
    ∃ (s : State) (k : Nibble), s.keys[k] = true ∧ ∀ j : Nibble, j < k → s.keys[j] = false :=
  ⟨⟨State.reset, by decide⟩, ⟨press State.reset [9, 5], 5, by decide⟩⟩

theorem witness_PowerOnSetsEveryItem : ∃ p : Params, p.wellFormed = true := ⟨Params.default, by decide +kernel⟩

/-- A ROM of 3584 bytes at a positive rate, one of 3585, and a rate of 0: also for ConstructionLoadsOrHalts. -/
theorem witness_LoadRomReplacesProgramOrNothing :
    (∃ (s : State) (bytes : List Byte) (cps : Rat), s.mem.wf = true ∧ bytes.length ≤ 3584 ∧ 0 < cps) ∧
    (∃ bytes : List Byte, bytes.length > 3584) ∧ ∃ cps : Rat, cps ≤ 0 :=
  ⟨⟨State.reset, List.replicate 3584 0, 700, rfl, List.length_replicate.le, by norm_num⟩,
    ⟨List.replicate 3585 0, by rw [List.length_replicate]; omega⟩,
    ⟨0, le_refl _⟩⟩

theorem witness_UpdateTicksThenRunsWholeCycles :
    (∃ (s : State) (dt : Rat), s.Inv ∧ 0 ≤ dt ∧ s.paused = false) ∧
    ∃ (s : State) (dt : Rat), s.Inv ∧ 0 ≤ dt ∧ s.paused = true :=
  ⟨⟨running, 5 / 2, running_inv, by norm_num, rfl⟩,
    ⟨{ running with paused := true }, 7,
      ⟨running_inv.1, running_inv.2, running_inv.3, running_inv.4, running_inv.5, running_inv.6, running_inv.7,
        running_inv.8, running_inv.9, running_inv.10, running_inv.11, running_inv.12⟩, by norm_num, rfl⟩⟩

theorem witness_PacingIsExactUnderSplitting :
    ∃ (s : State) (dts : List Rat), s.Inv ∧ s.paused = false ∧ (∀ d ∈ dts, 0 ≤ d) ∧ dts = [1 / 3, 0, 2 / 3] :=
  ⟨running, [1 / 3, 0, 2 / 3], running_inv, rfl, by norm_num, rfl⟩

/-- TIM-2: two calls, of 5/2 and 1/2 seconds, lower the timers by three. -/
theorem test_tim2_two_updates :
    (match updateAll [5 / 2, 1 / 2] { State.reset with DT := 0x0A, ST := 0x03, halted := true, spc := 10 } with
      | .next t => (t.DT, t.ST, t.timerAcc, t.cycleAcc)
      | .fault _ => (0, 0, 0, 0)
      | .refused _ => (0, 0, 0, 0)) = (0x07, 0x00, 0, 3) := by decide +kernel

theorem witness_PausedGatesUpdateOnly :
    (∃ (s : State) (dt : Rat), s.paused = true ∧ 0 ≤ dt) ∧ ∃ s t : State, step s = .next t :=
  ⟨⟨{ State.reset with paused := true }, 7, rfl, by norm_num⟩, ⟨running, after running, rfl⟩⟩

theorem witness_OnlyNegativeTimeHasNoStep :
    (∃ (c : HostCall) (dt : Rat), dt < 0 ∧ c = .update dt) ∧
    ∃ c : HostCall, (∀ dt : Rat, c = .update dt → 0 ≤ dt) ∧ c = .update 0 :=
  ⟨⟨.update (-1), -1, by norm_num, rfl⟩,
    ⟨.update 0, fun dt h => by
      injection h with h
      rw [← h], rfl⟩⟩

end Sys2Proof.Tests
end

/-! ## The encoding family: fetch and dispatch (30_encoding.md R74 to R77) -/

namespace Sys2Proof

/-! ### The word at `pc` (30_encoding.md R74) -/

/-- The big-endian word is 256 times its high byte plus its low byte (20_memory.md R56). -/
theorem wordOfBytes_toNat (hi lo : Byte) : (wordOfBytes hi lo).toNat = 256 * hi.toNat + lo.toNat := by
  rw [wordOfBytes, BitVec.toNat_append, ← Nat.shiftLeft_add_eq_or_of_lt lo.isLt, Nat.shiftLeft_eq]
  omega

/-! ### From the value of a dispatch key back to the word (30_encoding.md R79) -/

/-- The key of a word, from the value the decoder matches on. -/
theorem decodeKey_of_toNat {w : Word} {n : Nat} (h : (decodeKey w).toNat = n) : decodeKey w = BitVec.ofNat 16 n := by
  rw [← h, BitVec.ofNat_toNat, BitVec.setWidth_eq]

/-- In class 0 the key is the word. -/
theorem word_of_key_zero {w k : Word} (h : decodeKey w = k) (hk : leadingNibble k = 0x0) : k = w := by
  rw [← h, decodeKey_of_zero ((leadingNibble_of_key h).trans hk)]

/-- In class 8 the word has the key's sub-operation nibble. -/
theorem wordXYN_of_key_eight {w k : Word} (h : decodeKey w = k) (hk : leadingNibble k = 0x8) {n : Nibble}
    (hn : fieldN k = n) : wordXYN 0x8 (fieldX w) (fieldY w) n = w := by
  rw [← hn, ← fieldN_of_key_eight h hk]
  exact wordXYN_of_key h hk

/-- In classes E and F the word has the key's sub-operation byte. -/
theorem wordXNN_of_key_EF {w k : Word} (h : decodeKey w = k) {op : BitVec 4} (hk : leadingNibble k = op.toNat)
    (ho : op.toNat = 0xE ∨ op.toNat = 0xF) {nn : Byte} (hn : fieldNN k = nn) : wordXNN op (fieldX w) nn = w := by
  rw [← hn, ← fieldNN_of_key_EF h (by rwa [hk])]
  exact wordXNN_of_key h hk

/-- Decoding loses no bit of a word with a handler. The cases are the rows of the opcode map, in the order of the
decoder, grouped by format (30_encoding.md R73, R79). -/
theorem encode_of_decodeWord {w : Word} {i : Instr} (h : decodeWord w = .ok i) : encode i = w := by
  unfold decodeWord at h
  split at h <;> cases h
  case h_1 hk | h_2 hk => exact word_of_key_zero (decodeKey_of_toNat hk) (by decide)
  case h_3 hk | h_4 hk | h_20 hk | h_21 hk => exact wordNNN_of_key (decodeKey_of_toNat hk) (by decide)
  case h_5 hk | h_6 hk | h_8 hk | h_9 hk | h_22 hk => exact wordXNN_of_key (decodeKey_of_toNat hk) (by decide)
  case h_7 hk | h_19 hk | h_23 hk => exact wordXYN_of_key (decodeKey_of_toNat hk) (by decide)
  case h_10 hk | h_11 hk | h_12 hk | h_13 hk | h_14 hk | h_15 hk | h_16 hk | h_17 hk | h_18 hk =>
    exact wordXYN_of_key_eight (decodeKey_of_toNat hk) (by decide) (by decide)
  case h_24 hk | h_25 hk | h_26 hk | h_27 hk | h_28 hk | h_29 hk | h_30 hk | h_31 hk | h_32 hk | h_33 hk | h_34 hk =>
    exact wordXNN_of_key_EF (decodeKey_of_toNat hk) (by decide) (by decide) (by decide)

/-! ### The handler set of a configuration (30_encoding.md R76) -/

/-- The handlers of any configuration are among all handlers (30_encoding.md R76). -/
theorem mem_handlerSet_true {k : Word} {extOps : Bool} (h : k ∈ handlerSet extOps) : k ∈ handlerSet true := by
  cases extOps with
  | false => exact handlerSet_mono h
  | true => exact h

/-- The key of a decoded word is in the handler set of a configuration exactly when the instruction is well formed for
it (30_encoding.md R76). -/
theorem key_mem_iff_wellFormed {w : Word} {i : Instr} (h : decodeWord w = .ok i) (p : Params) :
    decodeKey w ∈ handlerSet p.extOps ↔ i.wellFormed p = true := by
  obtain ⟨htrue, hbase⟩ := decodeKey_mem_of_ok h
  cases he : p.extOps with
  | false => simp [Instr.wellFormed, he, hbase]
  | true => simp [Instr.wellFormed, he, htrue]

end Sys2Proof

namespace Sys2Proof.Machine

/-! ### What dispatch and the cycle do (30_encoding.md R74, R77, R78) -/

/-- In the baseline the meaning of each of the 12 extensions is the DispatchFault of its word (00_scope.md R5). -/
theorem exec_extension_off {i : Instr} {s : State} (hi : i.isBaseline = false) (he : s.params.extOps = false) :
    exec i s = dispatchFault (encode i) s := by
  cases i with
  | seImm | sneImm | seReg | sneReg | shr | shl | jpV0 | rnd | ldF | ldB | ldMemVx | ldVxMem =>
    exact extension_off he _ _
  | _ => cases hi

/-- A DispatchFault right after the fetch logs the fetched address and keeps the advance of `pc`, and nothing else
changes (60_exceptions.md R213). -/
theorem dispatchFault_advancePc (w : Word) (s : State) :
    dispatchFault w s.advancePc =
      .next { s with pc := s.pc + 2, log := s.log ++ [⟨.dispatch, some s.pc, some w, .none⟩] } := by
  rw [dispatchFault_eq, State.advancePc_pc_sub]
  rfl

/-- What a cycle does with a fetched word: it logs a word that does not decode, or runs the instruction
(30_encoding.md R77, R78). -/
theorem step_of_fetchWord {s : State} {w : Word} (hh : s.halted = false) (hf : fetchWord s = some w) :
    (∃ e, decodeWord w = .error e ∧ step s = dispatchFault w s.advancePc) ∨
    (∃ i, decodeWord w = .ok i ∧ step s = exec i s.advancePc) := by
  rcases step_cases s with ⟨hh', -⟩ | ⟨-, hf', -⟩ | ⟨-, w', hf', hr⟩
  · rw [hh] at hh'
    cases hh'
  · rw [hf] at hf'
    cases hf'
  · obtain rfl : w = w' := Option.some.inj (hf.symm.trans hf')
    exact hr

/-- A cycle at `pc ≥ 0xFFF` raises FetchFault (30_encoding.md R74). -/
theorem step_of_fetchWord_none {s : State} (hh : s.halted = false) (hf : fetchWord s = none) :
    step s = fetchFault s := by
  rcases step_cases s with ⟨hh', -⟩ | ⟨-, -, e⟩ | ⟨-, w, hf', -⟩
  · rw [hh] at hh'
    cases hh'
  · exact e
  · rw [hf] at hf'
    cases hf'

/-- A cycle that fetches a word raises no FetchFault: whatever it does keeps `halted` clear or stores the record of a
handler's fault (30_encoding.md R74). -/
theorem step_ne_fetchFault {s : State} (hh : s.halted = false) (hpc : s.pc.toNat < 0xFFF) : step s ≠ fetchFault s := by
  intro h
  rw [fetchFault_eq] at h
  rcases step_next h with ⟨hh', -⟩ | ⟨-, hpc', -⟩ |
    ⟨-, -, w, -, ⟨e, -, ht⟩ | ⟨i, -, ⟨-, -, ht⟩ | ⟨kind, info, hk, ht⟩ | hr⟩⟩
  · rw [hh] at hh'
    cases hh'
  · omega
  · have := congrArg State.halted ht
    simp [hh] at this
  · have := congrArg State.halted ht
    simp [hh] at this
  · have hkind := congrArg (fun t => t.fault.map FaultRecord.kind) ht
    obtain rfl : FaultKind.fetch = kind := Option.some.inj hkind
    exact hk (by decide)
  · have := hr.halted
    simp [hh] at this

/-! ### The obligations -/

/-- Settles O2: the cases of the fetch are those of `fetchWord`, and a cycle past the fetch never ends in the state of
a FetchFault. -/
theorem fetchReadsBigEndianOrFaults : Obligations.FetchReadsBigEndianOrFaults := by
  unfold Obligations.FetchReadsBigEndianOrFaults
  intro s hh
  refine ⟨fun hpc => step_of_fetchWord_none hh (fetchWord_none hpc), fun hpc => ?_⟩
  have hf := fetchWord_some (s := s) (by omega)
  exact ⟨_, hf, wordOfBytes_toNat _ _, step_ne_fetchFault hh hpc, State.advancePc_pc_toNat hpc,
    (step_of_fetchWord hh hf).symm⟩

/-- Settles O3: a word with a handler decodes without loss, and the two ways a word is outside the handler set, a word
that does not decode and an extension in the baseline, are logged alike. -/
theorem dispatchRunsHandlerOrLogsAndSkips : Obligations.DispatchRunsHandlerOrLogsAndSkips := by
  unfold Obligations.DispatchRunsHandlerOrLogsAndSkips
  intro s w hh hf
  rcases step_of_fetchWord hh hf with ⟨e, hd, hs⟩ | ⟨i, hd, hs⟩
  · exact ⟨fun hm => absurd (mem_handlerSet_true hm) (decodeKey_not_mem_of_error hd),
      fun _ => hs.trans (dispatchFault_advancePc w s)⟩
  · have henc := encode_of_decodeWord hd
    rw [key_mem_iff_wellFormed hd]
    refine ⟨fun hw => ⟨i, hd, hw, henc, hs⟩, fun hw => ?_⟩
    obtain ⟨hb, he⟩ : i.isBaseline = false ∧ s.params.extOps = false := by simpa [Instr.wellFormed] using hw
    rw [hs, exec_extension_off (s := s.advancePc) hb he, henc, dispatchFault_advancePc]

end Sys2Proof.Machine

/-! ## The display family: 00E0 and DXYN (41_display.md R100 to R104) -/

namespace Sys2Proof.Machine

/-! ### 00E0 (41_display.md R100) -/

/-- 0x00E0 is the only word of its row, and it decodes to the clear (30_encoding.md R79). -/
theorem decodesRow_cls : decodesRow 0xFFFF 0x00E0 (fun _ => .cls) := by
  intro w hw
  obtain rfl : w = 0x00E0 := (BitVec.and_allOnes (x := w)).symm.trans hw
  exact decodeWord_00E0 (by decide)

/-! ### A draw that does not fault (41_display.md R101, R103) -/

/-- A fault raised by a handler leaves the machine halted (60_exceptions.md R212). -/
theorem halted_of_raise {kind : FaultKind} {info : FaultInfo} {i : Instr} {s t : State}
    (h : raise kind info i s = .next t) : t.halted = true := by
  rw [raise_eq] at h
  cases h
  rfl

/-- Dispatch runs a draw's handler: DXYN is of the baseline (00_scope.md R5). -/
theorem exec_drw (x y n : Nibble) (s : State) : exec (.drw x y n) s = execDrw x y n s := rfl

/-- A draw that leaves the machine running toggled cells of the display, each once: those its set pixels land on. -/
theorem exec_drw_running {x y n : Nibble} {s t : State} (h : exec (.drw x y n) s = .next t) (ht : t.halted = false) :
    ∃ ks : List Nat, ks.Nodup ∧ (∀ k ∈ ks, k < s.params.width * s.params.height) ∧
      (∀ cx cy, cx < s.params.width → cy < s.params.height →
        (cellIndex s.params cx cy ∈ ks ↔ s.drawHits x y n cx cy)) ∧
      t = s.draw ks := by
  rw [exec_drw] at h
  rcases execDrw_cases x y n s with ⟨-, e⟩ | ⟨-, -, r, c, -, -, -, -, -, e⟩ | ⟨-, -, ks, hn, hk, hhit, e⟩ <;> rw [e] at h
  case inl => simp [halted_of_raise h] at ht
  case inr.inl => simp [halted_of_raise h] at ht
  case inr.inr =>
    cases h
    exact ⟨ks, hn, hk, hhit, rfl⟩

/-- The collision of a draw, in columns and rows: some cell it toggles was on before it (41_display.md R103). -/
theorem State.draw_hit_iff {s : State} (hw : Display.wf s.params s.disp = true) {ks : List Nat} (hn : ks.Nodup)
    (hk : ∀ k ∈ ks, k < s.params.width * s.params.height) :
    (Display.drawCells s.disp ks).2 = true ↔ ∃ cx cy, cx < s.params.width ∧ cy < s.params.height ∧
      cellIndex s.params cx cy ∈ ks ∧ s.cell cx cy = true := by
  rw [Display.drawCells_hit hw hn hk]
  constructor
  · rintro ⟨k, hkm, hkd⟩
    obtain ⟨cx, cy, hx, hy, rfl⟩ := exists_cell (hk k hkm)
    exact ⟨cx, cy, hx, hy, hkm, (s.cell_iff cx cy).mpr hkd⟩
  · rintro ⟨cx, cy, -, -, hkm, hc⟩
    exact ⟨_, hkm, (s.cell_iff cx cy).mp hc⟩

/-! ### The obligations -/

/-- Settles O24: the display is left with no element number, and no other field is written. -/
theorem clearTurnsEveryCellOff : Obligations.ClearTurnsEveryCellOff := by
  unfold Obligations.ClearTurnsEveryCellOff
  exact ⟨decodesRow_cls, fun s => ⟨{ s with disp := [] }, rfl, fun _ _ => rfl, fun _ _ => rfl, fun _ => rfl, rfl⟩⟩

/-- Settles O27: the draw's changed cells are those it toggles, and VF is the collision of the pixel loop over them. -/
theorem drawFlagReportsCollision : Obligations.DrawFlagReportsCollision := by
  unfold Obligations.DrawFlagReportsCollision
  intro x y n s t hw _ he ht
  obtain ⟨ks, hn, hk, -, rfl⟩ := exec_drw_running he ht
  simp only [State.cell_draw_ne hw hn hk, State.readV_draw_flag]
  have hit := State.draw_hit_iff hw hn hk
  cases hb : (Display.drawCells s.disp ks).2 with
  | true => exact .inl ⟨rfl, hit.mp hb⟩
  | false =>
    exact .inr ⟨rfl, fun cx cy hx hy hm =>
      Bool.eq_false_iff.mpr fun hc => by simp [hit.mpr ⟨cx, cy, hx, hy, hm, hc⟩] at hb⟩

end Sys2Proof.Machine

/-! ## The control-flow family: 00EE, 1NNN, 2NNN (42_control_flow.md R120 to R122) -/

namespace Sys2Proof.Machine

/-! ### The rows of the family (30_encoding.md R79) -/

/-- 0x00EE is the return. -/
theorem decodesRow_ret : decodesRow 0xFFFF 0x00EE (fun _ => .ret) :=
  fun _ hw => decodeWord_00EE (decodeKey_of_mask_FFFF hw (by decide))

/-- Every word 1NNN is the jump to its address field. -/
theorem decodesRow_jp : decodesRow 0xF000 0x1000 (fun w => .jp (fieldNNN w)) :=
  fun _ hw => decodeWord_1000 (decodeKey_of_mask_F000 hw (by decide))

/-- Every word 2NNN is the call of its address field. -/
theorem decodesRow_call : decodesRow 0xF000 0x2000 (fun w => .call (fieldNNN w)) :=
  fun _ hw => decodeWord_2000 (decodeKey_of_mask_F000 hw (by decide))

/-! ### 00EE (42_control_flow.md R120) -/

/-- A return with an address on top of the stack pops it into `pc`. -/
theorem exec_ret_of_cons {s : State} {a : Word} {rest : List Word} (h : s.stack = a :: rest) :
    exec .ret s = .next ({ s with stack := rest }.setPc a) := by
  show execRet s = _
  simp only [execRet, h]

/-- A return on an empty stack raises StackUnderflow. -/
theorem exec_ret_of_nil {s : State} (h : s.stack = []) : exec .ret s = raise .stackUnderflow .none .ret s := by
  show execRet s = _
  simp only [execRet, h]

/-! ### 1NNN (42_control_flow.md R121) -/

/-- A jump writes its zero-extended address to `pc`. -/
theorem exec_jp (nnn : Addr12) (s : State) : exec (.jp nnn) s = .next (s.setPc (zext16 nnn)) := rfl

/-- Writing `pc` changes `pc` only. -/
theorem onlyPc_setPc (s : State) (a : Word) : onlyPc s (s.setPc a) := ⟨fun _ _ => rfl, fun _ => rfl, rfl⟩

/-! ### 2NNN (42_control_flow.md R122) -/

/-- The stack is full from `STACK_DEPTH` entries on (log 12). -/
theorem State.stackFull_iff {s : State} : s.stackFull = true ↔ s.params.stackDepth ≤ s.stack.length :=
  decide_eq_true_iff

/-- A call below `STACK_DEPTH` pushes `pc`, the return address, and jumps. -/
theorem exec_call_of_lt {s : State} (h : s.stack.length < s.params.stackDepth) (nnn : Addr12) :
    exec (.call nnn) s = .next ((s.push s.pc).setPc (zext16 nnn)) :=
  if_neg (State.stackFull_iff.not.mpr (Nat.not_le.mpr h))

/-- A call on a full stack raises StackOverflow. -/
theorem exec_call_of_full {s : State} (h : s.params.stackDepth ≤ s.stack.length) (nnn : Addr12) :
    exec (.call nnn) s = raise .stackOverflow .none (.call nnn) s :=
  if_pos (State.stackFull_iff.mpr h)

/-! ### The obligations -/

/-- Settles O31: whether the stack is full decides between the push with the jump and the fault. -/
theorem callPushesOrOverflows : Obligations.CallPushesOrOverflows := by
  unfold Obligations.CallPushesOrOverflows
  refine ⟨decodesRow_call, fun nnn s => ⟨fun hlt => ?_, fun hfull => ?_⟩⟩
  · exact ⟨_, exec_call_of_lt hlt nnn, zext16_toNat nnn, rfl, fun _ _ => rfl, fun _ => rfl, rfl⟩
  · exact (exec_call_of_full hfull.ge nnn).trans (raise_eq ..)

/-- Settles O29: a non-empty stack gives up its top, an empty one raises the fault with the word of `ret`. -/
theorem returnPopsOrUnderflows : Obligations.ReturnPopsOrUnderflows := by
  unfold Obligations.ReturnPopsOrUnderflows
  refine ⟨decodesRow_ret, fun s => ⟨fun a rest hcons => exec_ret_of_cons hcons, fun hnil => ?_⟩⟩
  exact (exec_ret_of_nil hnil).trans (raise_eq ..)

/-- Settles O30: the jump is one write of `pc`, and zero extension keeps the address. -/
theorem jumpSetsPc : Obligations.JumpSetsPc := by
  unfold Obligations.JumpSetsPc
  exact ⟨decodesRow_jp, fun nnn s => ⟨_, exec_jp nnn s, zext16_toNat nnn, onlyPc_setPc s _⟩⟩

end Sys2Proof.Machine

/-! ## The ALU family: 6XNN, 7XNN, 8XY0 to 8XY5, 8XY7 (43_alu.md R140 to R149) -/

namespace Sys2Proof.Machine

/-! ### The rows of the family (30_encoding.md R79) -/

/-- Every word 6XNN is the load of its immediate. -/
theorem decodesRow_ldImm : decodesRow 0xF000 0x6000 (fun w => .ldImm (fieldX w) (fieldNN w)) :=
  fun _ hw => decodeWord_6000 (decodeKey_of_mask_F000 hw (by decide))

/-- Every word 7XNN is the addition of its immediate. -/
theorem decodesRow_addImm : decodesRow 0xF000 0x7000 (fun w => .addImm (fieldX w) (fieldNN w)) :=
  fun _ hw => decodeWord_7000 (decodeKey_of_mask_F000 hw (by decide))

/-- Every word 8XY0 is the copy. -/
theorem decodesRow_ldReg : decodesRow 0xF00F 0x8000 (fun w => .ldReg (fieldX w) (fieldY w)) :=
  fun _ hw => decodeWord_8000 (decodeKey_of_mask_F00F hw (by decide))

/-- Every word 8XY1 is the OR. -/
theorem decodesRow_orReg : decodesRow 0xF00F 0x8001 (fun w => .orReg (fieldX w) (fieldY w)) :=
  fun _ hw => decodeWord_8001 (decodeKey_of_mask_F00F hw (by decide))

/-- Every word 8XY2 is the AND. -/
theorem decodesRow_andReg : decodesRow 0xF00F 0x8002 (fun w => .andReg (fieldX w) (fieldY w)) :=
  fun _ hw => decodeWord_8002 (decodeKey_of_mask_F00F hw (by decide))

/-- Every word 8XY3 is the XOR. -/
theorem decodesRow_xorReg : decodesRow 0xF00F 0x8003 (fun w => .xorReg (fieldX w) (fieldY w)) :=
  fun _ hw => decodeWord_8003 (decodeKey_of_mask_F00F hw (by decide))

/-- Every word 8XY4 is the addition of registers. -/
theorem decodesRow_addReg : decodesRow 0xF00F 0x8004 (fun w => .addReg (fieldX w) (fieldY w)) :=
  fun _ hw => decodeWord_8004 (decodeKey_of_mask_F00F hw (by decide))

/-- Every word 8XY5 is the subtraction. -/
theorem decodesRow_subReg : decodesRow 0xF00F 0x8005 (fun w => .subReg (fieldX w) (fieldY w)) :=
  fun _ hw => decodeWord_8005 (decodeKey_of_mask_F00F hw (by decide))

/-- Every word 8XY7 is the reversed subtraction. -/
theorem decodesRow_subn : decodesRow 0xF00F 0x8007 (fun w => .subn (fieldX w) (fieldY w)) :=
  fun _ hw => decodeWord_8007 (decodeKey_of_mask_F00F hw (by decide))

/-! ### What dispatch runs: one write of V[X], or of V[X] and then VF (43_alu.md R140) -/

theorem exec_ldImm (x : Nibble) (nn : Byte) (s : State) : exec (.ldImm x nn) s = .next (s.writeV x nn) := rfl

theorem exec_addImm (x : Nibble) (nn : Byte) (s : State) :
    exec (.addImm x nn) s = .next (s.writeV x (s.readV x + nn)) := rfl

theorem exec_ldReg (x y : Nibble) (s : State) : exec (.ldReg x y) s = .next (s.writeV x (s.readV y)) := rfl

theorem exec_orReg (x y : Nibble) (s : State) :
    exec (.orReg x y) s = .next (s.writeV x (s.readV x ||| s.readV y)) := rfl

theorem exec_andReg (x y : Nibble) (s : State) :
    exec (.andReg x y) s = .next (s.writeV x (s.readV x &&& s.readV y)) := rfl

theorem exec_xorReg (x y : Nibble) (s : State) :
    exec (.xorReg x y) s = .next (s.writeV x (s.readV x ^^^ s.readV y)) := rfl

theorem exec_addReg (x y : Nibble) (s : State) :
    exec (.addReg x y) s =
      .next (s.writeWithFlag x (s.readV x + s.readV y) (carryFlag (s.readV x) (s.readV y))) := rfl

theorem exec_subReg (x y : Nibble) (s : State) :
    exec (.subReg x y) s =
      .next (s.writeWithFlag x (s.readV x - s.readV y) (noBorrowFlag (s.readV x) (s.readV y))) := rfl

theorem exec_subn (x y : Nibble) (s : State) :
    exec (.subn x y) s =
      .next (s.writeWithFlag x (s.readV y - s.readV x) (noBorrowFlag (s.readV y) (s.readV x))) := rfl

/-! ### The flags and the difference as numbers (43_alu.md R147 to R149) -/

theorem carryFlag_iff {a b : Byte} : carryFlag a b = true ↔ a.toNat + b.toNat > 255 := decide_eq_true_iff

theorem noBorrowFlag_iff {a b : Byte} : noBorrowFlag a b = true ↔ a.toNat ≥ b.toNat := decide_eq_true_iff

/-- A byte difference modulo 256, with the 256 added before the subtraction so that it is exact. -/
theorem toNat_byte_sub (a b : Byte) : (a - b).toNat = (a.toNat + 256 - b.toNat) % 256 := by
  rw [BitVec.toNat_sub, ← Nat.sub_add_comm b.isLt.le, Nat.add_comm]

/-- A flagged result, as numbers: V[X] takes the value unless X = F, VF takes the condition the flag decides also with
X = F, and nothing else changes (43_alu.md R140). -/
theorem writeWithFlag_result_flag_frame (s : State) (x : Nibble) {b : Byte} {n : Nat} (hb : b.toNat = n) {c : Bool}
    {p : Prop} [Decidable p] (hc : c = true ↔ p) :
    (x ≠ 0xF → ((s.writeWithFlag x b c).readV x).toNat = n) ∧
      (s.writeWithFlag x b c).readV 0xF = (if p then 1 else 0) ∧ onlyRegs [x, 0xF] s (s.writeWithFlag x b c) := by
  refine ⟨fun hx => ?_, ?_, onlyRegs_writeWithFlag s x b c⟩
  · rw [State.readV_writeWithFlag_result s hx, hb]
  · simp only [State.readV_writeWithFlag_flag, hc]

/-! ### The obligations -/

/-- Settles O38: the three are one write of V[X], whose bits are those of the operation on the two bytes. -/
theorem logicWorksBitByBit : Obligations.LogicWorksBitByBit := by
  unfold Obligations.LogicWorksBitByBit
  refine ⟨decodesRow_orReg, decodesRow_andReg, decodesRow_xorReg, fun x y s => ⟨?_, ?_, ?_⟩⟩
  · exact ⟨_, exec_orReg x y s, onlyRegs_writeV s x _, fun k => by
      rw [State.readV_writeV_same, BitVec.getLsbD_or]⟩
  · exact ⟨_, exec_andReg x y s, onlyRegs_writeV s x _, fun k => by
      rw [State.readV_writeV_same, BitVec.getLsbD_and]⟩
  · exact ⟨_, exec_xorReg x y s, onlyRegs_writeV s x _, fun k => by
      rw [State.readV_writeV_same, BitVec.getLsbD_xor]⟩

/-- Settles O39: the sum of the old bytes with its carry is one flagged write. -/
theorem addSetsCarry : Obligations.AddSetsCarry := by
  unfold Obligations.AddSetsCarry
  exact ⟨decodesRow_addReg, fun x y s =>
    ⟨_, exec_addReg x y s, writeWithFlag_result_flag_frame s x (BitVec.toNat_add ..) carryFlag_iff⟩⟩

/-- Settles O40: both differences of the old bytes, each with its borrow, are one flagged write. -/
theorem subtractsSetNoBorrow : Obligations.SubtractsSetNoBorrow := by
  unfold Obligations.SubtractsSetNoBorrow
  refine ⟨decodesRow_subReg, decodesRow_subn, fun x y s => ⟨?_, ?_⟩⟩
  · exact ⟨_, exec_subReg x y s, writeWithFlag_result_flag_frame s x (toNat_byte_sub ..) noBorrowFlag_iff⟩
  · exact ⟨_, exec_subn x y s, writeWithFlag_result_flag_frame s x (toNat_byte_sub ..) noBorrowFlag_iff⟩

/-- Settles O36: both loads are one write of V[X]. -/
theorem loadsWriteRegister : Obligations.LoadsWriteRegister := by
  unfold Obligations.LoadsWriteRegister
  refine ⟨decodesRow_ldImm, decodesRow_ldReg, fun x y nn s => ⟨?_, ?_⟩⟩
  · exact ⟨_, exec_ldImm x nn s, State.readV_writeV_same s x nn, onlyRegs_writeV s x nn⟩
  · exact ⟨_, exec_ldReg x y s, State.readV_writeV_same s x _, onlyRegs_writeV s x _⟩

/-- Settles O37: the sum is written to V[X] and no flag is. -/
theorem addImmediateWrapsWithoutFlag : Obligations.AddImmediateWrapsWithoutFlag := by
  unfold Obligations.AddImmediateWrapsWithoutFlag
  refine ⟨decodesRow_addImm, fun x nn s => ⟨_, exec_addImm x nn s, ?_, onlyRegs_writeV s x _⟩⟩
  rw [State.readV_writeV_same, BitVec.toNat_add]

end Sys2Proof.Machine

/-! ## The index family: ANNN (44_index_memory.md R170) -/

namespace Sys2Proof.Machine

/-- Every word ANNN is the index load of its address field (30_encoding.md R79). -/
theorem decodesRow_ldI : decodesRow 0xF000 0xA000 (fun w => .ldI (fieldNNN w)) :=
  fun _ hw => decodeWord_A000 (decodeKey_of_mask_F000 hw (by decide))

/-- An index load writes its zero-extended address to I. -/
theorem exec_ldI (nnn : Addr12) (s : State) : exec (.ldI nnn) s = .next (s.setI (zext16 nnn)) := rfl

/-- Writing I changes I only. -/
theorem onlyI_setI (s : State) (a : Word) : onlyI s (s.setI a) :=
  ⟨fun r _ => State.readV_setI s a r, fun _ => rfl, rfl⟩

/-- Settles O43: the load is one write of I, and zero extension keeps the address. -/
theorem loadIndexWritesI : Obligations.LoadIndexWritesI := by
  unfold Obligations.LoadIndexWritesI
  exact ⟨decodesRow_ldI, fun nnn s => ⟨_, exec_ldI nnn s, zext16_toNat nnn, onlyI_setI s _⟩⟩

end Sys2Proof.Machine

/-! ## The keypad and timer family: EX9E, EXA1, FX07, FX15, FX18, FX0A (45_keys_timers.md R190 to R196) -/

namespace Sys2Proof.Machine

/-! ### The rows of the family (30_encoding.md R79) -/

/-- Every word EX9E is the skip on a pressed key. -/
theorem decodesRow_skp : decodesRow 0xF0FF 0xE09E (fun w => .skp (fieldX w)) :=
  fun _ hw => decodeWord_E09E (decodeKey_of_mask_F0FF hw (by decide))

/-- Every word EXA1 is the skip on a released key. -/
theorem decodesRow_sknp : decodesRow 0xF0FF 0xE0A1 (fun w => .sknp (fieldX w)) :=
  fun _ hw => decodeWord_E0A1 (decodeKey_of_mask_F0FF hw (by decide))

/-- Every word FX07 is the read of the delay timer. -/
theorem decodesRow_ldVxDT : decodesRow 0xF0FF 0xF007 (fun w => .ldVxDT (fieldX w)) :=
  fun _ hw => decodeWord_F007 (decodeKey_of_mask_F0FF hw (by decide))

/-- Every word FX0A is the wait for a key. -/
theorem decodesRow_ldVxK : decodesRow 0xF0FF 0xF00A (fun w => .ldVxK (fieldX w)) :=
  fun _ hw => decodeWord_F00A (decodeKey_of_mask_F0FF hw (by decide))

/-- Every word FX15 is the write of the delay timer. -/
theorem decodesRow_ldDTVx : decodesRow 0xF0FF 0xF015 (fun w => .ldDTVx (fieldX w)) :=
  fun _ hw => decodeWord_F015 (decodeKey_of_mask_F0FF hw (by decide))

/-- Every word FX18 is the write of the sound timer. -/
theorem decodesRow_ldSTVx : decodesRow 0xF0FF 0xF018 (fun w => .ldSTVx (fieldX w)) :=
  fun _ hw => decodeWord_F018 (decodeKey_of_mask_F0FF hw (by decide))

/-! ### EX9E and EXA1 (45_keys_timers.md R190 to R192) -/

/-- A register that holds the number of key `k` names the keypad entry of `k`. -/
theorem State.keyOf_of_toNat {s : State} {b : Byte} {k : Nibble} (h : b.toNat = k.val) :
    s.keyOf b = some s.keys[k] := by
  rw [State.keyOf_some (h.trans_lt k.isLt)]
  simp only [h, Fin.getElem_fin]

/-- EX9E on a register that names a key skips when the entry is set. -/
theorem exec_skp_of_key {x : Nibble} {s : State} {c : Bool} (h : s.keyOf (s.readV x) = some c) :
    exec (.skp x) s = .next (s.skipIf c) := by
  show execSkp x s = _
  simp only [execSkp, h]

/-- EX9E on a register that names no key raises KeyIndexFault. -/
theorem exec_skp_of_no_key {x : Nibble} {s : State} (h : s.keyOf (s.readV x) = none) :
    exec (.skp x) s = raise .keyIndex (.index (s.readV x)) (.skp x) s := by
  show execSkp x s = _
  simp only [execSkp, h]

/-- EXA1 on a register that names a key skips when the entry is clear. -/
theorem exec_sknp_of_key {x : Nibble} {s : State} {c : Bool} (h : s.keyOf (s.readV x) = some c) :
    exec (.sknp x) s = .next (s.skipIf (!c)) := by
  show execSknp x s = _
  simp only [execSknp, h]

/-- EXA1 on a register that names no key raises KeyIndexFault. -/
theorem exec_sknp_of_no_key {x : Nibble} {s : State} (h : s.keyOf (s.readV x) = none) :
    exec (.sknp x) s = raise .keyIndex (.index (s.readV x)) (.sknp x) s := by
  show execSknp x s = _
  simp only [execSknp, h]

/-- A skip on the negated condition stays where the condition holds and skips otherwise. -/
theorem State.skipIf_not_pc (s : State) (c : Bool) :
    (s.skipIf (!c)).pc = if c = true then s.pc else s.pc + 2 := by
  cases c <;> rfl

/-! ### FX0A (45_keys_timers.md R196) -/

/-- A wait with no key pressed takes `pc` back by 2. -/
theorem exec_ldVxK_of_none {s : State} (h : s.firstKey = none) (x : Nibble) :
    exec (.ldVxK x) s = .next (s.setPc (s.pc - 2)) := by
  show execLdVxK x s = _
  simp only [execLdVxK, h]

/-- A wait with a key pressed writes the number of the lowest one to V[X]. -/
theorem exec_ldVxK_of_some {s : State} {k : Nibble} (h : s.firstKey = some k) (x : Nibble) :
    exec (.ldVxK x) s = .next (s.writeV x (BitVec.ofNat 8 k.val)) := by
  show execLdVxK x s = _
  simp only [execLdVxK, h]

/-- A key number fits in a byte. -/
theorem toNat_byte_of_nibble (k : Nibble) : (BitVec.ofNat 8 k.val).toNat = k.val := by
  rw [BitVec.toNat_ofNat, Nat.mod_eq_of_lt (by omega)]

/-! ### FX07, FX15 and FX18 (45_keys_timers.md R193 to R195) -/

theorem exec_ldVxDT (x : Nibble) (s : State) : exec (.ldVxDT x) s = .next (s.writeV x s.DT) := rfl

theorem exec_ldDTVx (x : Nibble) (s : State) : exec (.ldDTVx x) s = .next (s.setDT (s.readV x)) := rfl

theorem exec_ldSTVx (x : Nibble) (s : State) : exec (.ldSTVx x) s = .next (s.setST (s.readV x)) := rfl

/-! ### The obligations -/

/-- Settles O49: whether V[X] names a keypad entry decides between the two skips, on the entry and on its negation,
and the fault. -/
theorem keySkipsTestTheKey : Obligations.KeySkipsTestTheKey := by
  unfold Obligations.KeySkipsTestTheKey
  refine ⟨decodesRow_skp, decodesRow_sknp, fun x s => ⟨fun k hk => ?_, fun habove => ?_⟩⟩
  · have hkey := State.keyOf_of_toNat (s := s) hk
    exact ⟨⟨_, exec_skp_of_key hkey, onlyPc_skipIf s _, State.skipIf_pc s _⟩,
      ⟨_, exec_sknp_of_key hkey, onlyPc_skipIf s _, State.skipIf_not_pc s _⟩⟩
  · have hnone := State.keyOf_none (s := s) habove
    exact ⟨(exec_skp_of_no_key hnone).trans (raise_eq ..), (exec_sknp_of_no_key hnone).trans (raise_eq ..)⟩

/-- Settles O51: the search from key 0 up finds nothing exactly when no key is pressed, and else the lowest pressed
key, whose number is written to V[X]. -/
theorem keyWaitTakesLowestKey : Obligations.KeyWaitTakesLowestKey := by
  unfold Obligations.KeyWaitTakesLowestKey
  refine ⟨decodesRow_ldVxK, fun x s => ⟨fun hnone => ?_, fun k hpressed hlowest => ?_⟩⟩
  · exact exec_ldVxK_of_none (State.firstKey_none.mpr hnone) x
  · refine ⟨_, exec_ldVxK_of_some (State.firstKey_some.mpr ⟨hpressed, hlowest⟩) x, ?_, onlyRegs_writeV s x _⟩
    rw [State.readV_writeV_same, toNat_byte_of_nibble]

/-- Settles O50: FX07 is one write of V[X], FX15 and FX18 are one write of their timer and of no register, and none
writes the accumulator. -/
theorem timerMovesCopyOneByte : Obligations.TimerMovesCopyOneByte := by
  unfold Obligations.TimerMovesCopyOneByte
  refine ⟨decodesRow_ldVxDT, decodesRow_ldDTVx, decodesRow_ldSTVx, fun x s => ⟨?_, ?_, ?_⟩⟩
  · exact ⟨_, exec_ldVxDT x s, State.readV_writeV_same s x _, onlyRegs_writeV s x _⟩
  · exact ⟨_, exec_ldDTVx x s, State.setDT_DT s _, fun r _ => State.readV_setDT s _ r, fun _ => rfl, rfl⟩
  · exact ⟨_, exec_ldSTVx x s, State.setST_ST s _, fun r _ => State.readV_setST s _ r, fun _ => rfl, rfl⟩

end Sys2Proof.Machine

/-! ## The exceptions family: fatal faults, `halted`, `paused` and `Update` (60_exceptions.md R212, R214, R221, R224) -/

namespace Sys2Proof.Machine

/-! ### A halted machine runs no cycle (60_exceptions.md R214) -/

/-- A cycle of a halted machine changes nothing (60_exceptions.md R214). -/
theorem step_of_halted {s : State} (hh : s.halted = true) : step s = .next s := by
  rcases step_cases s with ⟨-, e⟩ | ⟨hh', -⟩ | ⟨hh', -⟩
  · exact e
  · simp [hh] at hh'
  · simp [hh] at hh'

/-- Any number of cycles of a halted machine change nothing (60_exceptions.md R214). -/
theorem runCycles_of_halted {s : State} (hh : s.halted = true) (n : Nat) : runCycles n s = .next s := by
  induction n with
  | zero => rfl
  | succ n ih =>
    rw [runCycles, step_of_halted hh]
    exact ih

/-! ### The two cases of an `Update` that has a step (60_exceptions.md R221) -/

/-- A paused `Update` changes nothing (60_exceptions.md R221, R224). -/
theorem update_of_paused {s : State} {dt : Rat} (hp : s.paused = true) (hd : 0 ≤ dt) : s.update dt = .next s := by
  rcases update_cases s dt with ⟨hd', -⟩ | ⟨-, -, e⟩ | ⟨-, hp', -⟩
  · exact absurd hd' (not_lt.mpr hd)
  · exact e
  · simp [hp] at hp'

/-- An unpaused `Update` whose cycles, run in the ticked state, end in `t` leaves `t` with the remainder of the cycle
budget (60_exceptions.md R221). -/
theorem update_of_runCycles {s t : State} {dt : Rat} (hp : s.paused = false) (hd : 0 ≤ dt)
    (h : runCycles (splitTime (s.cycleAcc + dt) s.spc).1
      { s with timerAcc := s.timerAcc + dt, cycleAcc := s.cycleAcc + dt }.tickTimers = .next t) :
    s.update dt = .next { t with cycleAcc := (splitTime (s.cycleAcc + dt) s.spc).2 } := by
  rcases update_cases s dt with ⟨hd', -⟩ | ⟨-, hp', -⟩ | ⟨-, -, e⟩
  · exact absurd hd' (not_lt.mpr hd)
  · simp [hp] at hp'
  · rw [e, h, mapNext]

/-- A halted, unpaused `Update` ticks the timers and consumes its cycle budget (60_exceptions.md R214). -/
theorem update_of_halted {s : State} {dt : Rat} (hh : s.halted = true) (hp : s.paused = false) (hd : 0 ≤ dt) :
    s.update dt = .next
      { { s with timerAcc := s.timerAcc + dt, cycleAcc := s.cycleAcc + dt }.tickTimers with
        cycleAcc := (splitTime (s.cycleAcc + dt) s.spc).2 } :=
  update_of_runCycles hp hd (runCycles_of_halted (by exact hh) _)

/-! ### Only `LoadROM` clears `halted` (60_exceptions.md R214) -/

/-- No `Update` clears `halted`. -/
theorem update_keeps_halted {s t : State} {dt : Rat} (hh : s.halted = true) (h : s.update dt = .next t) :
    t.halted = true := by
  rcases update_cases s dt with ⟨-, e⟩ | ⟨-, -, e⟩ | ⟨hd, hp, -⟩
  · rw [e] at h
    cases h
  · rw [e] at h
    cases h
    exact hh
  · rw [update_of_halted hh hp hd] at h
    cases h
    exact hh

/-- A transaction that clears `halted` is a `LoadROM` that answered ok. -/
theorem transact_clears_halted {c : HostCall} {s t : State} {r : HostReply} (hh : s.halted = true)
    (h : transact c s = .next (t, r)) (ht : t.halted = false) : ∃ bytes cps, c = .loadROM bytes cps ∧ r = .ok := by
  suffices hc : (∃ bytes cps, c = .loadROM bytes cps ∧ r = .ok) ∨ t.halted = true from
    hc.resolve_right (by simp [ht])
  cases c with
  | loadROM bytes cps =>
    rw [transact_loadROM] at h
    rcases loadROM_cases s bytes cps with ⟨-, -, e⟩ | ⟨-, e⟩ <;> rw [e] at h <;> cases h
    · exact .inl ⟨bytes, cps, rfl, rfl⟩
    · exact .inr hh
  | update dt => exact .inr (update_keeps_halted hh (replyNone_eq_next.mp h).1)
  | process =>
    rw [transact_process, step_of_halted hh] at h
    cases h
    exact .inr hh
  | setKeys | setPaused | readDisplay | readState =>
    cases h
    exact .inr hh

/-! ### The pacing state and `paused` in a cycle (60_exceptions.md R223, R224) -/

/-- What no cycle writes (10_state.md R31, R32, R33). -/
theorem step_hostFields {s t : State} (h : step s = .next t) :
    t.params = s.params ∧ t.timerAcc = s.timerAcc ∧ t.cycleAcc = s.cycleAcc ∧ t.spc = s.spc ∧ t.paused = s.paused :=
  runCycles_hostFields (n := 1) (by simp only [runCycles, h])

/-- A cycle commutes with replacing `paused` (60_exceptions.md R224). -/
theorem step_with_paused {s t : State} (h : step s = .next t) (b : Bool) :
    step { s with paused := b } = .next { t with paused := b } := by
  obtain ⟨-, hta, hca, hspc, -⟩ := step_hostFields h
  calc step { s with paused := b }
    _ = mapNext (fun u => u.withHost s.timerAcc s.cycleAcc s.spc b) (step s) := step_withHost s _ _ _ b
    _ = .next (t.withHost t.timerAcc t.cycleAcc t.spc b) := by rw [h, hta, hca, hspc, mapNext]

/-! ### Both periods are positive (60_exceptions.md R222, R223) -/

theorem State.Inv.timerTick_pos {s : State} (h : s.Inv) : 0 < s.params.timerTick :=
  h.timer_acc.1.trans_lt h.timer_acc.2

theorem State.Inv.spc_pos {s : State} (h : s.Inv) : 0 < s.spc := h.cycle_acc.1.trans_lt h.cycle_acc.2

/-! ### The obligations -/

/-- Settles O5: every cycle of a halted machine answers the same state, so an `Update` is its tick and its remainder,
and of the host's calls only `LoadROM` writes `halted`. -/
theorem haltedRunsNothingUntilLoad : Obligations.HaltedRunsNothingUntilLoad := by
  unfold Obligations.HaltedRunsNothingUntilLoad
  intro s hh
  exact ⟨step_of_halted hh, fun dt hd hp => update_of_halted hh hp hd, fun c t r => transact_clears_halted hh⟩

/-- Settles O7: of what a cycle can do, only a fetch fault and a handler's fault set `halted`, and the word of a
handler's record is the fetched word, since decoding loses no bit of it. -/
theorem fatalFaultWritesNothingElse : Obligations.FatalFaultWritesNothingElse := by
  unfold Obligations.FatalFaultWritesNothingElse
  intro s t h hs ht
  rcases step_next h with ⟨hh, -⟩ | ⟨-, -, hf, rfl⟩ |
    ⟨-, -, w, hf, ⟨e, -, rfl⟩ | ⟨i, hd, ⟨-, -, rfl⟩ | ⟨kind, info, hk, rfl⟩ | hr⟩⟩
  · simp [hs] at hh
  · exact ⟨⟨.fetch, some s.pc, none, .none⟩, rfl, hf.symm, by simp, rfl⟩
  · simp [hs] at ht
  · simp [hs] at ht
  · simp only [List.mem_cons, List.not_mem_nil, or_false, not_or] at hk
    obtain ⟨hload, hfetch, hdispatch⟩ := hk
    refine ⟨⟨kind, some s.pc, some (encode i), info⟩, rfl, ?_, by simp [hload, hdispatch], by simp [hfetch]⟩
    rw [hf, encode_of_decodeWord hd]
  · have := hr.halted
    simp [hs, ht] at this

/-- Settles O56: the whole ticks and cycles are those of `splitTime`, whose bounds hold since both periods are positive,
and the cycles always end in a next state. -/
theorem updateTicksThenRunsWholeCycles : Obligations.UpdateTicksThenRunsWholeCycles := by
  unfold Obligations.UpdateTicksThenRunsWholeCycles
  intro s dt hs hd
  refine ⟨fun hp => update_of_paused hp hd, fun hp => ?_⟩
  obtain ⟨htick, htick', -⟩ := splitTime_spec hs.timerTick_pos (add_nonneg hs.timer_acc.1 hd)
  obtain ⟨hcycle, hcycle', -⟩ := splitTime_spec hs.spc_pos (add_nonneg hs.cycle_acc.1 hd)
  obtain ⟨t, ht⟩ := runCycles_total (splitTime (s.cycleAcc + dt) s.spc).1
    { s with timerAcc := s.timerAcc + dt, cycleAcc := s.cycleAcc + dt }.tickTimers
  exact ⟨_, _, t, htick, htick', hcycle, hcycle', ht, update_of_runCycles hp hd ht⟩

/-- Settles O58: `Update` tests `paused` first, and a cycle commutes with replacing it. -/
theorem pausedGatesUpdateOnly : Obligations.PausedGatesUpdateOnly := by
  unfold Obligations.PausedGatesUpdateOnly
  exact ⟨fun s dt => update_of_paused, fun s t b h => step_with_paused h b⟩

end Sys2Proof.Machine

/-! ## The reset family: `LoadROM` and construction (70_reset_and_hazards.md R251 to R253) -/

namespace Sys2Proof.Machine

/-! ### The two answers of `LoadROM` (70_reset_and_hazards.md R252, R253) -/

/-- The state a successful `LoadROM` leaves (70_reset_and_hazards.md R252). -/
def State.loaded (s : State) (bytes : List Byte) (cps : Rat) : State :=
  { s with
    mem := s.mem.writeBytes 0x200 bytes, pc := 0x200, spc := 1 / cps, timerAcc := 0, cycleAcc := 0, halted := false,
    fault := none, log := [] }

/-- A ROM that fits, at a positive rate, is loaded (70_reset_and_hazards.md R252). -/
theorem loadROM_of_fits {bytes : List Byte} {cps : Rat} (hlen : bytes.length ≤ 3584) (hcps : 0 < cps) (s : State) :
    s.loadROM bytes cps = .ok (s.loaded bytes cps) := by
  rcases loadROM_cases s bytes cps with ⟨-, -, e⟩ | ⟨hlong | hrate, -⟩
  · exact e
  · exact absurd hlong hlen.not_gt
  · exact absurd hrate hcps.not_ge

/-- A ROM that is too long, or a rate that is not positive, is refused (70_reset_and_hazards.md R253). -/
theorem loadROM_of_refused {bytes : List Byte} {cps : Rat} (h : bytes.length > 3584 ∨ cps ≤ 0) (s : State) :
    s.loadROM bytes cps = .error (loadFaultRecord bytes) := by
  rcases loadROM_cases s bytes cps with ⟨hlen, hcps, -⟩ | ⟨-, e⟩
  · exact (h.elim hlen.not_gt hcps.not_ge).elim
  · exact e

/-- After a load of a ROM that fits, the ROM's bytes stand from 0x200 on and every other byte reads as before
(70_reset_and_hazards.md R252). -/
theorem read_loaded {s : State} (hw : s.mem.wf = true) {bytes : List Byte} (hlen : bytes.length ≤ 3584) (cps : Rat)
    (a : Nat) :
    (s.loaded bytes cps).mem.read a =
      if 0x200 ≤ a ∧ a < 0x200 + bytes.length then (bytes[a - 0x200]?).getD 0 else s.mem.read a := by
  have hfit : 0x200 + bytes.length ≤ Config.memSize := by
    have hsize : Config.memSize = 4096 := rfl
    omega
  rw [State.loaded, Memory.read_writeBytes hw _ _ _ hfit]
  by_cases hin : 0x200 ≤ a ∧ a < 0x200 + bytes.length
  · have hidx : a - 0x200 < bytes.length := by omega
    rw [if_pos hin.1, if_pos hin, List.getElem?_eq_getElem hidx, Option.getD_some, Option.getD_some]
  · rw [if_neg hin]
    split
    · have hidx : bytes.length ≤ a - 0x200 := by omega
      rw [List.getElem?_eq_none hidx, Option.getD_none]
    · rfl

/-! ### Construction, by the answer of its `LoadROM` (70_reset_and_hazards.md R251) -/

/-- The default period of a cycle is 1/700 of a second (70_reset_and_hazards.md R251). -/
theorem defaultSpc_eq : Config.defaultSpc = 1 / 700 := by
  rw [Config.defaultSpc, Rat.mk_eq_divInt, Rat.divInt_eq_div]
  norm_num

/-- A construction whose `LoadROM` succeeds is the loaded state. -/
theorem construct_of_ok {p : Params} {po : PowerOn} {bytes : List Byte} {cps : Rat} {t : State}
    (h : (State.powerOn p po).loadROM bytes cps = .ok t) : State.construct p po bytes cps = t := by
  simp only [State.construct, h]

/-- A construction whose `LoadROM` fails takes the record as a fatal fault. -/
theorem construct_of_error {p : Params} {po : PowerOn} {bytes : List Byte} {cps : Rat} {r : FaultRecord}
    (h : (State.powerOn p po).loadROM bytes cps = .error r) :
    State.construct p po bytes cps = (State.powerOn p po).takeFatal r := by
  simp only [State.construct, h]

/-! ### The obligations -/

/-- Settles O53: construction follows the answer of `LoadROM` on the power-on state, whose `spc` is already 1/700. -/
theorem constructionLoadsOrHalts : Obligations.ConstructionLoadsOrHalts := by
  unfold Obligations.ConstructionLoadsOrHalts
  refine fun p po bytes cps => ⟨fun hlen hcps => ?_, fun hrefused => ?_⟩
  · have hload := loadROM_of_fits hlen hcps (State.powerOn p po)
    rw [construct_of_ok hload, hload]
  · rw [construct_of_error (loadROM_of_refused hrefused _), ← defaultSpc_eq]
    rfl

/-- Settles O55: the transaction answers what `LoadROM` does, and at most 3584 bytes from 0x200 up stay inside memory,
so each byte stored is read back. -/
theorem loadRomReplacesProgramOrNothing : Obligations.LoadRomReplacesProgramOrNothing := by
  unfold Obligations.LoadRomReplacesProgramOrNothing
  refine fun s bytes cps hw => ⟨fun hlen hcps => ?_, fun hrefused => ?_⟩
  · refine ⟨s.loaded bytes cps, ?_, read_loaded hw hlen cps, rfl⟩
    rw [transact_loadROM, loadROM_of_fits hlen hcps]
  · rw [transact_loadROM, loadROM_of_refused hrefused, loadFaultRecord]

end Sys2Proof.Machine

/-! ## The encoding round trip and the opcode map (30_encoding.md R73, R79, R81) -/

namespace Sys2Proof

/-! ### Decoding an encoded instruction (30_encoding.md R73, R79) -/

/-- The decoder inverts the encoder: the key of an assembled word selects its row, and the fields of the row's format
are read back. The cases are the formats `NNN`, `XNN`, `XYN`, class 8 and `XKK`. -/
theorem decodeWord_encode (i : Instr) : decodeWord (encode i) = .ok i := by
  cases i with
  | cls | ret => rfl
  | jp | call | ldI | jpV0 =>
    rw [encode, decodeWord, decodeKey_wordNNN (by decide), fieldNNN_wordNNN]
    rfl
  | seImm | sneImm | ldImm | addImm | rnd =>
    rw [encode, decodeWord, decodeKey_wordXNN (by decide), fieldX_wordXNN, fieldNN_wordXNN]
    rfl
  | seReg | sneReg | drw =>
    rw [encode, decodeWord, decodeKey_wordXYN (by decide), fieldX_wordXYN, fieldY_wordXYN, fieldN_wordXYN]
    rfl
  | ldReg | orReg | andReg | xorReg | addReg | subReg | shr | subn | shl =>
    rw [encode, decodeWord, decodeKey_wordXYN_eight, fieldX_wordXYN, fieldY_wordXYN]
    rfl
  | skp | sknp | ldVxDT | ldVxK | ldDTVx | ldSTVx | addI | ldF | ldB | ldMemVx | ldVxMem =>
    rw [encode, decodeWord, decodeKey_wordXKK (by decide), fieldX_wordXNN]
    rfl

/-! ### The rows of the opcode map and the dispatch key (30_encoding.md R75, R79) -/

/-- The mask of the dispatch key, by leading nibble (30_encoding.md R75). -/
def keyMask : Nat → Word
  | 0x0 => 0xFFFF
  | 0x8 => 0xF00F
  | 0xE => 0xF0FF
  | 0xF => 0xF0FF
  | _ => 0xF000

theorem decodeKey_eq_and_keyMask (w : Word) : decodeKey w = w &&& keyMask (leadingNibble w) := by
  rcases decodeKey_cases w with ⟨hn, e⟩ | ⟨hn, e⟩ | ⟨hn | hn, e⟩ | ⟨hn, e⟩
  · rw [e, hn]
    exact (BitVec.and_allOnes (x := w)).symm
  · rw [e, hn]
    rfl
  · rw [e, hn]
    rfl
  · rw [e, hn]
    rfl
  · rw [e]
    unfold keyMask
    split <;> simp_all

/-- A row's mask is the key's mask of its class, and it keeps the top nibble. -/
theorem opcodeMap_mask : ∀ r ∈ opcodeMap,
    r.mask = keyMask (leadingNibble r.key) ∧ r.mask.extractLsb' 12 4 = 0xF#4 := by decide

/-- No two rows of the opcode map have one key. -/
theorem opcodeMap_key_inj : ∀ r ∈ opcodeMap, ∀ r' ∈ opcodeMap, r.key = r'.key → r = r' := by decide

/-- A word matches a row exactly when its dispatch key is the row's: either way both have one leading nibble, so the
two masks are one. -/
theorem matches_row_iff {r : OpcodeRow} (hr : r ∈ opcodeMap) (w : Word) : w &&& r.mask = r.key ↔ decodeKey w = r.key := by
  obtain ⟨hmask, htop⟩ := opcodeMap_mask r hr
  rw [decodeKey_eq_and_keyMask]
  constructor
  · intro h
    have hn : leadingNibble w = leadingNibble r.key := by rw [← h, leadingNibble_mask w htop]
    rw [hn, ← hmask, h]
  · intro h
    have hn : leadingNibble w = leadingNibble r.key := leadingNibble_of_key ((decodeKey_eq_and_keyMask w).trans h)
    rw [hmask, ← hn, h]

/-- The keys with a handler are those of the rows the configuration implements (30_encoding.md R76). -/
theorem mem_handlerSet_iff {k : Word} {extOps : Bool} :
    k ∈ handlerSet extOps ↔ ∃ r ∈ opcodeMap, (r.baseline || extOps) = true ∧ r.key = k := by
  simp only [handlerSet, List.mem_map, List.mem_filter, and_assoc]

/-- A word decodes exactly when its key has a handler in some configuration (30_encoding.md R77). -/
theorem decodes_iff_key_mem (w : Word) : (∃ i, decodeWord w = .ok i) ↔ decodeKey w ∈ handlerSet true := by
  constructor
  · rintro ⟨i, hi⟩
    exact (decodeKey_mem_of_ok hi).1
  · intro hm
    cases hd : decodeWord w with
    | ok i => exact ⟨i, rfl⟩
    | error e => exact absurd hm (decodeKey_not_mem_of_error hd)

theorem rejects_iff_key_not_mem (w : Word) : (∃ e, decodeWord w = .error e) ↔ decodeKey w ∉ handlerSet true := by
  rw [← decodes_iff_key_mem]
  cases decodeWord w <;> simp

/-- The instruction of a row's word is of the baseline exactly when the row is. -/
theorem isBaseline_eq_row {w : Word} {i : Instr} (h : decodeWord w = .ok i) {r : OpcodeRow} (hr : r ∈ opcodeMap)
    (hw : decodeKey w = r.key) : i.isBaseline = r.baseline := by
  rw [Bool.eq_iff_iff, (decodeKey_mem_of_ok h).2, mem_handlerSet_iff]
  constructor
  · rintro ⟨r', hr', hb, hk⟩
    rw [← opcodeMap_key_inj r' hr' r hr (hk.trans hw)]
    simpa using hb
  · intro hb
    exact ⟨r, hr, by simp [hb], hw.symm⟩

/-! ### The keys with a handler, class by class (30_encoding.md R76, R81) -/

section Classes

variable {w : Word} {extOps : Bool}

/-- In class 0 the key is the word, and two rows are of the class. -/
theorem key_mem_zero (hw : leadingNibble w = 0x0) :
    decodeKey w ∈ handlerSet extOps ↔ w = 0x00E0 ∨ w = 0x00EE := by
  have hrows : ∀ r ∈ opcodeMap, leadingNibble r.key = 0x0 → r.key = 0x00E0 ∨ r.key = 0x00EE := by decide
  rw [decodeKey_of_zero hw]
  constructor
  · intro hm
    obtain ⟨r, hr, -, rfl⟩ := mem_handlerSet_iff.mp hm
    exact hrows r hr hw
  · rintro (rfl | rfl) <;> cases extOps <;> decide

/-- In class 8 the sub-operation nibble decides. -/
theorem key_mem_eight (hw : leadingNibble w = 0x8) :
    decodeKey w ∈ handlerSet extOps ↔ wordXYN 0x8 0 0 (fieldN w) ∈ handlerSet extOps := by
  rw [← decodeKey_wordXYN_eight (fieldX w) (fieldY w),
    show wordXYN 0x8 (fieldX w) (fieldY w) (fieldN w) = w from wordXYN_of_key (k := decodeKey w) rfl
      (by rwa [leadingNibble_decodeKey])]

/-- The sub-operation nibbles of class 8 with no handler, in full and in the baseline. -/
theorem eight_not_mem (n : Nibble) :
    (wordXYN 0x8 0 0 n ∉ handlerSet true ↔ n.val ∈ [0x8, 0x9, 0xA, 0xB, 0xC, 0xD, 0xF]) ∧
    (wordXYN 0x8 0 0 n ∉ handlerSet false ↔ n.val ∈ [0x6, 0x8, 0x9, 0xA, 0xB, 0xC, 0xD, 0xE, 0xF]) := by
  revert n
  decide

/-- In classes E and F the sub-operation byte decides: `L` holds those of the class's rows. -/
theorem key_mem_EF {op : BitVec 4} (hop : op = 0xE ∨ op = 0xF) (hw : leadingNibble w = op.toNat) {L : List Nat}
    (hrows : ∀ r ∈ opcodeMap, (r.baseline || extOps) = true → leadingNibble r.key = op.toNat → (fieldNN r.key).toNat ∈ L)
    (hL : ∀ n ∈ L, wordXNN op 0 (BitVec.ofNat 8 n) ∈ handlerSet extOps) :
    decodeKey w ∈ handlerSet extOps ↔ (fieldNN w).toNat ∈ L := by
  have hEF : leadingNibble w = 0xE ∨ leadingNibble w = 0xF := by
    rcases hop with rfl | rfl
    · exact .inl hw
    · exact .inr hw
  constructor
  · intro hm
    obtain ⟨r, hr, hb, hk⟩ := mem_handlerSet_iff.mp hm
    have hn := leadingNibble_of_key hk.symm
    rw [fieldNN_of_key_EF hk.symm (by rwa [← hn])]
    exact hrows r hr hb (hn.symm.trans hw)
  · intro hn
    have := hL _ hn
    rwa [BitVec.ofNat_toNat, BitVec.setWidth_eq, ← decodeKey_wordXKK hop (fieldX w),
      show wordXNN op (fieldX w) (fieldNN w) = w from wordXNN_of_key (k := decodeKey w) rfl
        (by rwa [leadingNibble_decodeKey])] at this

/-- In every other class the leading nibble decides: all are in the full set, six are extensions. -/
theorem key_mem_other (hw : leadingNibble w ∉ [0x0, 0x8, 0xE, 0xF]) :
    decodeKey w ∈ handlerSet extOps ↔ (extOps = true ∨ leadingNibble w ∉ [0x3, 0x4, 0x5, 0x9, 0xB, 0xC]) := by
  have hops : ∀ op : BitVec 4, op.toNat ∉ [0x0, 0x8, 0xE, 0xF] → ∀ e : Bool,
      (wordNNN op 0 ∈ handlerSet e ↔ (e = true ∨ op.toNat ∉ [0x3, 0x4, 0x5, 0x9, 0xB, 0xC])) := by decide
  have hkey : decodeKey w = wordNNN (w.extractLsb' 12 4) 0 := by
    rw [decodeKey_of_other hw]
    conv_lhs => rw [word_eq_wordNNN w, mask_F000_wordNNN]
  rw [hkey]
  exact hops _ hw extOps

end Classes

/-! ### The obligations -/

end Sys2Proof

namespace Sys2Proof.Machine

/-- Settles O19: the decoder inverts the encoder, format by format. -/
theorem decodeOfEncodeIsSame : Obligations.DecodeOfEncodeIsSame := by
  unfold Obligations.DecodeOfEncodeIsSame
  exact decodeWord_encode

/-- Settles O20: the fields of a row's format and its key hold every bit of the word. -/
theorem encodeOfDecodeIsSame : Obligations.EncodeOfDecodeIsSame := by
  unfold Obligations.EncodeOfDecodeIsSame
  exact fun w i => encode_of_decodeWord

/-- Settles O21: matching a row is having its key, no two rows have one key, and the words that decode are those whose
key is some row's. -/
theorem opcodeMapRowsPartitionWords : Obligations.OpcodeMapRowsPartitionWords := by
  unfold Obligations.OpcodeMapRowsPartitionWords
  refine fun w => ⟨fun r hr => matches_row_iff hr w, fun r hr r' hr' h h' => ?_, ?_, fun i hi r hr h => ?_⟩
  · rw [matches_row_iff hr] at h
    rw [matches_row_iff hr'] at h'
    exact opcodeMap_key_inj r hr r' hr' (h.symm.trans h')
  · rw [decodes_iff_key_mem, mem_handlerSet_iff]
    refine exists_congr fun r => and_congr_right fun hr => ?_
    rw [matches_row_iff hr, Bool.or_true, eq_comm (a := r.key)]
    exact and_iff_right rfl
  · exact isBaseline_eq_row hi hr ((matches_row_iff hr w).mp h)

/-- Settles O22: in each class of leading nibbles the key's membership is read off the field that the class's mask
keeps, and the classes exclude each other. -/
theorem wordsWithoutHandlerAreTheListed : Obligations.WordsWithoutHandlerAreTheListed := by
  unfold Obligations.WordsWithoutHandlerAreTheListed
  intro w
  refine ⟨rejects_iff_key_not_mem w, ?_⟩
  by_cases h0 : leadingNibble w = 0x0
  · simp [key_mem_zero h0, h0]
  by_cases h8 : leadingNibble w = 0x8
  · simp only [key_mem_eight h8, eight_not_mem]
    simp [h8]
  by_cases hE : leadingNibble w = 0xE
  · have hkey (e : Bool) : decodeKey w ∈ handlerSet e ↔ (fieldNN w).toNat ∈ [0x9E, 0xA1] :=
      key_mem_EF (.inl rfl) hE (by cases e <;> decide) (by cases e <;> decide)
    simp [hkey, hE]
  by_cases hF : leadingNibble w = 0xF
  · have hfull := key_mem_EF (extOps := true) (L := [0x07, 0x0A, 0x15, 0x18, 0x1E, 0x29, 0x33, 0x55, 0x65])
      (.inr rfl) hF (by decide) (by decide)
    have hbase := key_mem_EF (extOps := false) (L := [0x07, 0x0A, 0x15, 0x18, 0x1E]) (.inr rfl) hF (by decide) (by decide)
    rw [hfull, hbase]
    simp [hF]
  · have hother : leadingNibble w ∉ [0x0, 0x8, 0xE, 0xF] := by simp [h0, h8, hE, hF]
    simp only [key_mem_other hother, h0, h8, hE, hF, Bool.false_eq_true, true_or, not_true, not_not, false_and,
      false_or, or_false, and_self]

/-- Settles O23: the key of each word, evaluated, is its row's or has no row. -/
theorem writtenWordsDecodeAsListed : Obligations.WrittenWordsDecodeAsListed := by
  unfold Obligations.WrittenWordsDecodeAsListed
  decide

end Sys2Proof.Machine

/-! ## Every cycle: what it answers, what it may change (30_encoding.md R78, 60_exceptions.md R212, R213) -/

namespace Sys2Proof.Machine

/-- A cycle whose word decodes runs the instruction (30_encoding.md R78). -/
theorem step_of_ok {s : State} {w : Word} {i : Instr} (hh : s.halted = false) (hf : fetchWord s = some w)
    (hi : decodeWord w = .ok i) : step s = exec i s.advancePc := by
  rcases step_of_fetchWord hh hf with ⟨e, hd, -⟩ | ⟨j, hd, hs⟩ <;> rw [hi] at hd <;> cases hd
  exact hs

/-- A cycle whose word does not decode logs it (30_encoding.md R77). -/
theorem step_of_error {s : State} {w : Word} {e : DecodeReject} (hh : s.halted = false) (hf : fetchWord s = some w)
    (he : decodeWord w = .error e) : step s = dispatchFault w s.advancePc := by
  rcases step_of_fetchWord hh hf with ⟨e, -, hs⟩ | ⟨i, hd, -⟩
  · exact hs
  · rw [he] at hd
    cases hd

/-- No cycle makes the model stop or refuse. -/
theorem step_total (s : State) : ∃ t, step s = .next t := by
  obtain ⟨t, ht⟩ := runCycles_total 1 s
  rw [runCycles] at ht
  split at ht
  · exact ⟨_, by assumption⟩
  · cases ht
  · cases ht

/-- A cycle that changes a part of the state other than `pc`, `halted`, `fault` and `log` took no fault: it ran the own
effect of the instruction it fetched. -/
theorem effect_of_step_changes {α : Type} (f : State → α)
    (hf : ∀ (u : State) (pc : Word) (b : Bool) (fault : Option FaultRecord) (log : List FaultRecord),
      f { u with pc := pc, halted := b, fault := fault, log := log } = f u)
    {s t : State} (h : step s = .next t) (hne : f t ≠ f s) :
    ∃ w i, fetchWord s = some w ∧ decodeWord w = .ok i ∧ HandlerEffect i s.advancePc t := by
  rcases step_next h with ⟨-, rfl⟩ | ⟨-, -, -, rfl⟩ |
    ⟨-, -, w, hw, ⟨e, -, rfl⟩ | ⟨i, hi, ⟨-, -, rfl⟩ | ⟨kind, info, -, rfl⟩ | he⟩⟩
  · exact absurd rfl hne
  · exact absurd (hf s s.pc _ _ s.log) hne
  · exact absurd (hf s _ s.halted s.fault _) hne
  · exact absurd (hf s _ s.halted s.fault _) hne
  · exact absurd (hf s _ _ _ s.log) hne
  · exact ⟨w, i, hw, hi, he⟩

/-- No cycle changes the keypad (10_state.md R30). -/
theorem step_keys {s t : State} (h : step s = .next t) : t.keys = s.keys := by
  by_contra hne
  obtain ⟨w, i, -, -, he⟩ := effect_of_step_changes State.keys (fun _ _ _ _ _ => rfl) h hne
  exact hne he.keys

/-- In the baseline no cycle changes memory (20_memory.md R53). -/
theorem step_mem_of_baseline {s t : State} (hb : s.params.extOps = false) (h : step s = .next t) : t.mem = s.mem := by
  by_contra hne
  obtain ⟨w, i, -, -, he⟩ := effect_of_step_changes State.mem (fun _ _ _ _ _ => rfl) h hne
  rcases he.mem with hm | ⟨hext, -⟩
  · exact hne hm
  · simp [hb] at hext

/-! ### A jump to itself (70_reset_and_hazards.md R256) -/

/-- An address of the array is its low 12 bits (30_encoding.md R72). -/
theorem zext16_fieldNNN {a : Word} (ha : a.toNat < 0x1000) : zext16 (fieldNNN a) = a := by
  apply BitVec.eq_of_toNat_eq
  rw [zext16_toNat, fieldNNN, BitVec.extractLsb'_toNat, Nat.shiftRight_zero, Nat.mod_eq_of_lt ha]

/-- `0x1000 | a` for an address `a` of the array is the word of the jump to `a`. -/
theorem or_1000_eq_encode_jp {a : Word} (ha : a.toNat < 0x1000) : 0x1000#16 ||| a = encode (.jp (fieldNNN a)) := by
  have htop : a.extractLsb' 12 4 = 0#4 := by
    apply BitVec.eq_of_toNat_eq
    rw [BitVec.extractLsb'_toNat, Nat.shiftRight_eq_div_pow, Nat.div_eq_of_lt ha]
    rfl
  calc 0x1000#16 ||| a
    _ = (0x1#4 ++ 0x000#12) ||| (0x0#4 ++ fieldNNN a) := by
      conv_lhs => rw [word_eq_wordNNN a, htop]
      rfl
    _ = encode (.jp (fieldNNN a)) := by
      rw [BitVec.or_append, BitVec.zero_or]
      rfl

/-- A parked machine's cycle runs the jump to its own address. -/
theorem step_of_parked {s : State} (h : s.parked = true) : step s = .next s := by
  simp only [State.parked, Bool.and_eq_true, Bool.not_eq_true', decide_eq_true_eq, beq_iff_eq] at h
  obtain ⟨⟨hh, hpc⟩, hf⟩ := h
  have hpc' : s.pc.toNat < 0x1000 := by omega
  rw [or_1000_eq_encode_jp hpc'] at hf
  rw [step_of_ok hh hf (decodeWord_encode _), exec_jp, zext16_fieldNNN hpc']
  rfl

/-! ### The obligations -/

/-- Settles O1: of the answers to a fetched word, the one for a word that decodes. -/
theorem stepRunsDecodedInstruction : Obligations.StepRunsDecodedInstruction := by
  unfold Obligations.StepRunsDecodedInstruction
  exact fun s w i => step_of_ok

/-- Settles O4: the gate of an extension is closed in the baseline. -/
theorem extensionsRaiseDispatchFaultInBaseline : Obligations.ExtensionsRaiseDispatchFaultInBaseline := by
  unfold Obligations.ExtensionsRaiseDispatchFaultInBaseline
  exact fun i s hi he => (exec_extension_off hi he).trans (dispatchFault_eq ..)

/-- Settles O6: every fault of the spec is a next state (log 7). -/
theorem everyCycleAnswersNext : Obligations.EveryCycleAnswersNext := by
  unfold Obligations.EveryCycleAnswersNext
  exact step_total

/-- Settles O8: of what a cycle can do, only dispatch writes `log`, for a word that does not decode and for an extension
in the baseline, whose encoding is the fetched word. -/
theorem logGrowsByDispatchFaultOnly : Obligations.LogGrowsByDispatchFaultOnly := by
  unfold Obligations.LogGrowsByDispatchFaultOnly
  intro s t h hlog
  rcases step_next h with ⟨-, rfl⟩ | ⟨-, -, -, rfl⟩ |
    ⟨-, -, w, hw, ⟨e, -, rfl⟩ | ⟨i, hi, ⟨-, -, rfl⟩ | ⟨kind, info, -, rfl⟩ | he⟩⟩
  · exact absurd rfl hlog
  · exact absurd rfl hlog
  · exact ⟨w, hw, rfl⟩
  · exact ⟨w, hw, by rw [encode_of_decodeWord hi]⟩
  · exact absurd rfl hlog
  · exact absurd he.log hlog

/-- Settles O16: a changed stack is an instruction's own effect, and of these only a call and a return write it. -/
theorem stackChangesOnlyByCallAndReturn : Obligations.StackChangesOnlyByCallAndReturn := by
  unfold Obligations.StackChangesOnlyByCallAndReturn
  intro s t h hne
  obtain ⟨w, i, hw, hi, he⟩ := effect_of_step_changes State.stack (fun _ _ _ _ _ => rfl) h hne
  rcases he.stack with hs | ⟨⟨nnn, rfl⟩, -, hs⟩ | ⟨rfl, a, hs, -⟩
  · exact absurd hs hne
  · exact ⟨w, hw, .inl ⟨nnn, hi, hs⟩⟩
  · exact ⟨w, hw, .inr ⟨hi, a, hs⟩⟩

/-- Settles O17: no instruction's own effect writes a host field, and of these only FX15 and FX18 write a timer. -/
theorem cycleLeavesHostStateAlone : Obligations.CycleLeavesHostStateAlone := by
  unfold Obligations.CycleLeavesHostStateAlone
  intro s t h
  obtain ⟨hparams, hta, hca, hspc, hpaused⟩ := step_hostFields h
  refine ⟨step_keys h, hta, hca, hspc, hpaused, hparams, fun hne => ?_, fun hne => ?_⟩
  · obtain ⟨w, i, hw, hi, he⟩ := effect_of_step_changes State.DT (fun _ _ _ _ _ => rfl) h hne
    rcases he.DT with hs | ⟨x, rfl⟩
    · exact absurd hs hne
    · exact ⟨w, x, hw, hi⟩
  · obtain ⟨w, i, hw, hi, he⟩ := effect_of_step_changes State.ST (fun _ _ _ _ _ => rfl) h hne
    rcases he.ST with hs | ⟨x, rfl⟩
    · exact absurd hs hne
    · exact ⟨w, x, hw, hi⟩

/-- Settles O35: the word at `pc` of a parked machine is the jump to `pc`. -/
theorem parkedStateStays : Obligations.ParkedStateStays := by
  unfold Obligations.ParkedStateStays
  exact fun s => step_of_parked

end Sys2Proof.Machine

/-! ## The OPEN parameters and the oracle in a baseline cycle (00_scope.md R6, log 1, log 5) -/

namespace Sys2Proof.Machine

/-- The state with the three OPEN parameters and the draw counter replaced. -/
def State.withOpen (s : State) (src : ShiftSrc) (off : JumpOffset) (inc : Bool) (n : Nat) : State :=
  { s with params := { s.params with shiftSrc := src, jumpOffset := off, ldstIncI := inc }, rngDraws := n }

section WithOpen

variable (s : State) (src : ShiftSrc) (off : JumpOffset) (inc : Bool) (n : Nat)

theorem skipIf_withOpen (c : Bool) : (s.withOpen src off inc n).skipIf c = (s.skipIf c).withOpen src off inc n := by
  cases c <;> rfl

/-- A draw commutes with the replacement: the sprite and the cells depend on no OPEN parameter. -/
theorem execDrw_withOpen (x y k : Nibble) :
    execDrw x y k (s.withOpen src off inc n) = mapNext (fun t => t.withOpen src off inc n) (execDrw x y k s) := by
  have hplace (rows : List Byte) : placePixels (s.withOpen src off inc n).params
      (spritePixels ((s.withOpen src off inc n).originX x) ((s.withOpen src off inc n).originY y) rows) =
        placePixels s.params (spritePixels (s.originX x) (s.originY y) rows) :=
    placePixels_congr (p := (s.withOpen src off inc n).params) (p' := s.params) rfl rfl _
  unfold execDrw
  rw [show (s.withOpen src off inc n).spriteRows k = s.spriteRows k from rfl]
  cases s.spriteRows k with
  | error => rfl
  | ok rows =>
    simp only [hplace]
    cases placePixels s.params (spritePixels (s.originX x) (s.originY y) rows) <;> rfl

variable {s src off inc n} in
/-- A meaning commutes with the replacement when its answers in the two states do. -/
theorem exec_withOpen_of_answers {i : Instr} {r r' : Result} (h : exec i s = r)
    (h' : exec i (s.withOpen src off inc n) = r') (hr : r' = mapNext (fun t => t.withOpen src off inc n) r) :
    exec i (s.withOpen src off inc n) = mapNext (fun t => t.withOpen src off inc n) (exec i s) := by
  rw [h, h', hr]

/-- In the baseline a meaning commutes with the replacement: an extension is logged before it reads anything, and no
other instruction reads the replaced fields. -/
theorem exec_withOpen (he : s.params.extOps = false) (i : Instr) :
    exec i (s.withOpen src off inc n) = mapNext (fun t => t.withOpen src off inc n) (exec i s) := by
  cases i with
  | seImm | sneImm | seReg | sneReg | shr | shl | jpV0 | rnd | ldF | ldB | ldMemVx | ldVxMem =>
    exact exec_withOpen_of_answers (exec_extension_off rfl he) (exec_extension_off rfl he) rfl
  | ret =>
    cases hs : s.stack with
    | nil => exact exec_withOpen_of_answers (exec_ret_of_nil hs) (exec_ret_of_nil hs) rfl
    | cons a rest => exact exec_withOpen_of_answers (exec_ret_of_cons hs) (exec_ret_of_cons hs) rfl
  | call nnn =>
    rcases Nat.lt_or_ge s.stack.length s.params.stackDepth with hs | hs
    · exact exec_withOpen_of_answers (exec_call_of_lt hs nnn)
        (exec_call_of_lt (s := s.withOpen src off inc n) hs nnn) rfl
    · exact exec_withOpen_of_answers (exec_call_of_full hs nnn)
        (exec_call_of_full (s := s.withOpen src off inc n) hs nnn) rfl
  | skp x =>
    cases hk : s.keyOf (s.readV x) with
    | none => exact exec_withOpen_of_answers (exec_skp_of_no_key hk) (exec_skp_of_no_key hk) rfl
    | some c =>
      exact exec_withOpen_of_answers (exec_skp_of_key hk) (exec_skp_of_key hk)
        (congrArg Host.Outcome.next (skipIf_withOpen s src off inc n c))
  | sknp x =>
    cases hk : s.keyOf (s.readV x) with
    | none => exact exec_withOpen_of_answers (exec_sknp_of_no_key hk) (exec_sknp_of_no_key hk) rfl
    | some c =>
      exact exec_withOpen_of_answers (exec_sknp_of_key hk) (exec_sknp_of_key hk)
        (congrArg Host.Outcome.next (skipIf_withOpen s src off inc n !c))
  | ldVxK x =>
    cases hk : s.firstKey with
    | none =>
      exact exec_withOpen_of_answers (exec_ldVxK_of_none hk x)
        (exec_ldVxK_of_none (s := s.withOpen src off inc n) hk x) rfl
    | some k =>
      exact exec_withOpen_of_answers (exec_ldVxK_of_some hk x)
        (exec_ldVxK_of_some (s := s.withOpen src off inc n) hk x) rfl
  | addI x =>
    show execAddI x _ = mapNext _ (execAddI x s)
    unfold execAddI
    rw [show (s.withOpen src off inc n).params.fx1eSetsVF = s.params.fx1eSetsVF from rfl]
    cases s.params.fx1eSetsVF <;> rfl
  | drw x y k => exact execDrw_withOpen s src off inc n x y k
  | cls | jp | ldImm | addImm | ldReg | orReg | andReg | xorReg | addReg | subReg | subn | ldI | ldVxDT | ldDTVx
    | ldSTVx => rfl

/-- A baseline cycle commutes with the replacement. -/
theorem step_withOpen (he : s.params.extOps = false) :
    step (s.withOpen src off inc n) = mapNext (fun t => t.withOpen src off inc n) (step s) := by
  rcases step_cases s with ⟨hh, e⟩ | ⟨hh, hf, e⟩ | ⟨hh, w, hf, ⟨er, hd, e⟩ | ⟨i, hd, e⟩⟩ <;> rw [e]
  · exact step_of_halted (s := s.withOpen src off inc n) hh
  · exact step_of_fetchWord_none (s := s.withOpen src off inc n) hh hf
  · exact step_of_error (s := s.withOpen src off inc n) hh hf hd
  · rw [step_of_ok (s := s.withOpen src off inc n) hh hf hd]
    exact exec_withOpen s.advancePc src off inc n he i

end WithOpen

/-- Settles O18: a baseline cycle commutes with replacing the OPEN parameters and the draw counter, and it leaves the
parameters as they are. -/
theorem baselineIgnoresOpenParameters : Obligations.BaselineIgnoresOpenParameters := by
  unfold Obligations.BaselineIgnoresOpenParameters
  intro s t src off inc n he h
  obtain ⟨hparams, -⟩ := step_hostFields h
  calc step (s.withOpen src off inc n)
    _ = mapNext (fun u => u.withOpen src off inc n) (step s) := step_withOpen s src off inc n he
    _ = .next (t.withOpen src off inc n) := by rw [h, mapNext]
    _ = _ := by rw [State.withOpen, hparams]

end Sys2Proof.Machine

/-! ## Host transactions (60_exceptions.md R220, R221) -/

namespace Sys2Proof.Machine

/-- MemWrite of a range that leaves 0x200 to 0xFFF names its first address (20_memory.md R55, log 10). -/
theorem memWrite_error {m : Memory} {a : Nat} {bs : List Byte}
    (h : a < Config.romBase ∨ a + bs.length > Config.memSize) : memWrite m a bs = .error a := by
  rcases memWrite_cases m a bs with ⟨⟨hlo, hhi⟩, -⟩ | ⟨-, e⟩
  · omega
  · exact e

/-! ### What a transaction can leave (60_exceptions.md R220) -/

/-- The state in which `Update` runs its cycles, its whole accounting done: the ticks taken off the timers, and both
remainders in the accumulators (60_exceptions.md R221). -/
def State.paced (s : State) (dt : Rat) : State :=
  { s with
    DT := timerMinus s.DT (splitTime (s.timerAcc + dt) s.params.timerTick).1
    ST := timerMinus s.ST (splitTime (s.timerAcc + dt) s.params.timerTick).1
    timerAcc := (splitTime (s.timerAcc + dt) s.params.timerTick).2
    cycleAcc := (splitTime (s.cycleAcc + dt) s.spc).2 }

/-- Cycles leave `cycleAcc` alone, so `Update` may as well store its remainder before it runs them. -/
theorem update_eq_runCycles_paced {s : State} {dt : Rat} (hp : s.paused = false) (hd : 0 ≤ dt) :
    s.update dt = runCycles (splitTime (s.cycleAcc + dt) s.spc).1 (s.paced dt) := by
  obtain ⟨t, ht⟩ := runCycles_total (splitTime (s.cycleAcc + dt) s.spc).1
    { s with timerAcc := s.timerAcc + dt, cycleAcc := s.cycleAcc + dt }.tickTimers
  obtain ⟨-, hta, -, hspc, hpaused⟩ := runCycles_hostFields ht
  rw [update_of_runCycles hp hd ht]
  calc Host.Outcome.next { t with cycleAcc := (splitTime (s.cycleAcc + dt) s.spc).2 }
    _ = mapNext (fun u => u.withHost t.timerAcc (splitTime (s.cycleAcc + dt) s.spc).2 t.spc t.paused) (.next t) := rfl
    _ = runCycles (splitTime (s.cycleAcc + dt) s.spc).1 (s.paced dt) := by
      rw [← ht, hta, hspc, hpaused, ← runCycles_withHost]
      rfl

theorem update_of_neg {s : State} {dt : Rat} (hd : dt < 0) : s.update dt = .fault .negativeDeltaTime := if_pos hd

/-- Every `Update` with a time that is not negative answers a next state. -/
theorem update_total (s : State) {dt : Rat} (hd : 0 ≤ dt) : ∃ t, s.update dt = .next t := by
  cases hp : s.paused with
  | true => exact ⟨s, update_of_paused hp hd⟩
  | false =>
    rw [update_eq_runCycles_paced hp hd]
    exact runCycles_total _ _

/-- A property that the accounting of `Update` and every cycle keep is kept by `Update`. -/
theorem update_induction {P : State → Prop} (hstep : ∀ a b, P a → step a = .next b → P b) {s t : State} {dt : Rat}
    (hs : P s) (hpaced : 0 ≤ dt → P (s.paced dt)) (h : s.update dt = .next t) : P t := by
  rcases update_cases s dt with ⟨-, e⟩ | ⟨-, -, e⟩ | ⟨hd, hp, -⟩
  · rw [e] at h
    cases h
  · rw [e] at h
    cases h
    exact hs
  · rw [update_eq_runCycles_paced hp hd] at h
    exact runCycles_induction hstep (hpaced hd) h

/-- What a transaction leaves: a loaded ROM, an `Update`'s state, a cycle's, the host's writes, or the state as it
was. -/
theorem transact_next {c : HostCall} {s t : State} {r : HostReply} (h : transact c s = .next (t, r)) :
    (∃ bytes cps, c = .loadROM bytes cps ∧ bytes.length ≤ 3584 ∧ 0 < cps ∧ t = s.loaded bytes cps) ∨
    (∃ dt, c = .update dt ∧ s.update dt = .next t) ∨
    (c = .process ∧ step s = .next t) ∨
    (∃ bits, t = s.setKeys bits) ∨ (∃ b, t = s.setPaused b) ∨ t = s := by
  cases c with
  | loadROM bytes cps =>
    rw [transact_loadROM] at h
    rcases loadROM_cases s bytes cps with ⟨hlen, hcps, e⟩ | ⟨-, e⟩ <;> rw [e] at h <;> cases h
    · exact .inl ⟨bytes, cps, rfl, hlen, hcps, rfl⟩
    · simp
  | update dt => exact .inr (.inl ⟨dt, rfl, (replyNone_eq_next.mp h).1⟩)
  | process => exact .inr (.inr (.inl ⟨rfl, (replyNone_eq_next.mp h).1⟩))
  | setKeys bits =>
    cases h
    exact .inr (.inr (.inr (.inl ⟨bits, rfl⟩)))
  | setPaused b =>
    cases h
    exact .inr (.inr (.inr (.inr (.inl ⟨b, rfl⟩))))
  | readDisplay | readState =>
    cases h
    simp

/-- Every transaction but an `Update` with a negative time answers a next state (60_exceptions.md R220). -/
theorem transact_total {c : HostCall} (s : State) (hc : ∀ dt : Rat, c = .update dt → 0 ≤ dt) :
    ∃ t r, transact c s = .next (t, r) := by
  cases c with
  | loadROM bytes cps =>
    rw [transact_loadROM]
    cases s.loadROM bytes cps <;> exact ⟨_, _, rfl⟩
  | update dt =>
    obtain ⟨t, ht⟩ := update_total s (hc dt rfl)
    exact ⟨t, .none, by rw [transact_update, ht, replyNone]⟩
  | process =>
    obtain ⟨t, ht⟩ := step_total s
    exact ⟨t, .none, by rw [transact_process, ht, replyNone]⟩
  | setKeys | setPaused | readDisplay | readState => exact ⟨_, _, rfl⟩

/-- A property that a cycle, a load, the accounting of `Update` and the host's writes keep is kept by every
transaction. -/
theorem transact_induction {P : State → Prop} (hstep : ∀ a b, P a → step a = .next b → P b)
    {c : HostCall} {s t : State} {r : HostReply} (hs : P s)
    (hload : ∀ bytes cps, bytes.length ≤ 3584 → 0 < cps → P (s.loaded bytes cps))
    (hpaced : ∀ dt, 0 ≤ dt → P (s.paced dt)) (hkeys : ∀ bits, P (s.setKeys bits)) (hpaused : ∀ b, P (s.setPaused b))
    (h : transact c s = .next (t, r)) : P t := by
  rcases transact_next h with ⟨bytes, cps, -, hlen, hcps, rfl⟩ | ⟨dt, -, hu⟩ | ⟨-, hst⟩ | ⟨bits, rfl⟩ | ⟨b, rfl⟩ | rfl
  · exact hload bytes cps hlen hcps
  · exact update_induction hstep hs (hpaced dt) hu
  · exact hstep s t hs hst
  · exact hkeys bits
  · exact hpaused b
  · exact hs

/-- A cycle keeps memory in canonical form and writes no byte below 0x200 (20_memory.md R53). -/
theorem step_low_memory {s t : State} (hw : s.mem.wf = true) (h : step s = .next t) :
    t.mem.wf = true ∧ ∀ a, a < Config.romBase → t.mem.read a = s.mem.read a := by
  by_cases hm : t.mem = s.mem
  · rw [hm]
    exact ⟨hw, fun _ _ => rfl⟩
  · obtain ⟨w, i, -, -, he⟩ := effect_of_step_changes State.mem (fun _ _ _ _ _ => rfl) h hm
    exact he.mem_wf hw

/-- A load keeps memory in canonical form. -/
theorem wf_loaded {s : State} (hw : s.mem.wf = true) {bytes : List Byte} (hlen : bytes.length ≤ 3584) (cps : Rat) :
    (s.loaded bytes cps).mem.wf = true :=
  Memory.wf_writeBytes hw _ _ (by have : Config.memSize = 4096 := rfl; omega)

/-! ### The invariant (60_exceptions.md R212, R213, 10_state.md R20 to R33) -/

/-- A write of `pc` below 0x1100 keeps the invariant. -/
theorem State.Inv.setPc {s : State} (h : s.Inv) {a : Word} (ha : a.toNat < 0x1100) : (s.setPc a).Inv :=
  { h with pc_bound := ha }

/-- Taking a fatal fault keeps the invariant. -/
theorem State.Inv.takeFatal {s : State} (h : s.Inv) {r : FaultRecord} (hr : r.kind ≠ .dispatch) : (s.takeFatal r).Inv :=
  { h with
    halted_fault := rfl
    fault_kind := by simpa using hr }

/-- Taking a logged fault keeps the invariant. -/
theorem State.Inv.takeLogged {s : State} (h : s.Inv) {r : FaultRecord} (hr : r.kind = .dispatch) :
    (s.takeLogged r).Inv :=
  { h with
    log_kind := by
      intro r' hr'
      rcases List.mem_append.mp hr' with hl | hl
      · exact h.log_kind r' hl
      · rw [List.mem_singleton.mp hl, hr] }

theorem HandlerEffect.stack_bound {i : Instr} {s t : State} (he : HandlerEffect i s t)
    (h : s.stack.length ≤ s.params.stackDepth) : t.stack.length ≤ s.params.stackDepth := by
  rcases he.stack with hs | ⟨-, hlt, hs⟩ | ⟨-, a, hs, -⟩
  · rwa [hs]
  · rw [hs]
    exact hlt
  · rw [hs] at h
    exact (Nat.le_succ _).trans h

theorem HandlerEffect.stack_addrs {i : Instr} {s t : State} (he : HandlerEffect i s t) (hpc : s.pc.toNat ≤ 0x1000)
    (h : ∀ a ∈ s.stack, a.toNat ≤ 0x1000) : ∀ a ∈ t.stack, a.toNat ≤ 0x1000 := by
  rcases he.stack with hs | ⟨-, -, hs⟩ | ⟨-, a, hs, -⟩
  · rwa [hs]
  · rw [hs]
    exact List.forall_mem_cons.mpr ⟨hpc, h⟩
  · rw [hs] at h
    exact (List.forall_mem_cons.mp h).2

/-- A handler that starts right past a fetched word leaves `pc` below 0x1100 (10_state.md R26). -/
theorem HandlerEffect.pc_bound {i : Instr} {s t : State} (he : HandlerEffect i s t) (hlo : 2 ≤ s.pc.toNat)
    (hpc : s.pc.toNat ≤ 0x1000) (h : ∀ a ∈ s.stack, a.toNat ≤ 0x1000) : t.pc.toNat < 0x1100 := by
  rcases he.pc with hp | hp | hp | hp | ⟨-, a, hs, hp⟩
  · rw [hp]
    omega
  · have h2 : (2 : Word).toNat = 2 := rfl
    rw [hp, BitVec.toNat_add]
    omega
  · have h2 : (2 : Word).toNat = 2 := rfl
    rw [hp, BitVec.toNat_sub]
    omega
  · omega
  · rw [hp]
    have := h a (by simp [hs])
    omega

/-- An instruction's own effect keeps the invariant. -/
theorem State.Inv.effect {i : Instr} {s t : State} (h : s.Inv) (he : HandlerEffect i s t) (hlo : 2 ≤ s.pc.toNat)
    (hpc : s.pc.toNat ≤ 0x1000) : t.Inv where
  params_ok := by rw [he.params]; exact h.params_ok
  mem_wf := (he.mem_wf h.mem_wf).1
  low_memory a ha := by rw [he.params, (he.mem_wf h.mem_wf).2 a ha]; exact h.low_memory a ha
  disp_wf := by rw [he.params]; exact he.disp_wf h.disp_wf
  stack_bound := by rw [he.params]; exact he.stack_bound h.stack_bound
  stack_addrs := he.stack_addrs hpc h.stack_addrs
  pc_bound := he.pc_bound hlo hpc h.stack_addrs
  timer_acc := by rw [he.timerAcc, he.params]; exact h.timer_acc
  cycle_acc := by rw [he.cycleAcc, he.spc]; exact h.cycle_acc
  halted_fault := by rw [he.halted, he.fault]; exact h.halted_fault
  fault_kind := by rw [he.fault]; exact h.fault_kind
  log_kind := by rw [he.log]; exact h.log_kind

/-- Every cycle keeps the invariant. -/
theorem State.Inv.of_step {s t : State} (h : s.Inv) (hst : step s = .next t) : t.Inv := by
  rcases step_next hst with ⟨-, rfl⟩ | ⟨-, -, -, rfl⟩ | ⟨-, hpc, w, -, hr⟩
  · exact h
  · exact h.takeFatal (r := ⟨.fetch, some s.pc, none, .none⟩) (by simp)
  have hadv := State.advancePc_pc_toNat hpc
  have ha : s.advancePc.Inv := h.setPc (a := s.pc + 2) (by rw [State.advancePc_pc] at hadv; omega)
  rcases hr with ⟨e, -, rfl⟩ | ⟨i, -, ⟨-, -, rfl⟩ | ⟨kind, info, hk, rfl⟩ | he⟩
  · exact ha.takeLogged (r := ⟨.dispatch, some s.pc, some w, .none⟩) rfl
  · exact ha.takeLogged (r := ⟨.dispatch, some s.pc, some (encode i), .none⟩) rfl
  · exact ha.takeFatal (r := ⟨kind, some s.pc, some (encode i), info⟩) fun hd => hk (by simp [show kind = .dispatch from hd])
  · exact ha.effect he (by omega) (by omega)

/-- The accounting of `Update` keeps the invariant: each remainder is below its period (60_exceptions.md R221). -/
theorem State.Inv.paced {s : State} (h : s.Inv) {dt : Rat} (hd : 0 ≤ dt) : (s.paced dt).Inv :=
  { h with
    timer_acc := splitTime_rest h.timerTick_pos (add_nonneg h.timer_acc.1 hd)
    cycle_acc := splitTime_rest h.spc_pos (add_nonneg h.cycle_acc.1 hd) }

/-- A successful load keeps the invariant (70_reset_and_hazards.md R252). -/
theorem State.Inv.loaded {s : State} (h : s.Inv) {bytes : List Byte} {cps : Rat} (hlen : bytes.length ≤ 3584)
    (hcps : 0 < cps) : (s.loaded bytes cps).Inv where
  params_ok := h.params_ok
  mem_wf := wf_loaded h.mem_wf hlen cps
  low_memory a ha := by
    have hrom : Config.romBase = 0x200 := rfl
    rw [read_loaded h.mem_wf hlen, if_neg (by omega)]
    exact h.low_memory a ha
  disp_wf := h.disp_wf
  stack_bound := h.stack_bound
  stack_addrs := h.stack_addrs
  pc_bound := by simp [State.loaded]
  timer_acc := ⟨le_rfl, h.timerTick_pos⟩
  cycle_acc := ⟨le_rfl, one_div_pos.mpr hcps⟩
  halted_fault := rfl
  fault_kind := by simp [State.loaded]
  log_kind := by simp [State.loaded]

/-- The invariant does not speak of the keypad. -/
theorem State.Inv.withKeys {s : State} (h : s.Inv) (keys : Vector Bool 16) : { s with keys := keys }.Inv := { h with }

theorem State.Inv.setKeys {s : State} (h : s.Inv) (bits : Word) : (s.setKeys bits).Inv := h.withKeys _

/-- The invariant does not speak of `paused`. -/
theorem State.Inv.setPaused {s : State} (h : s.Inv) (b : Bool) : (s.setPaused b).Inv := { h with }

/-- Every transaction keeps the invariant. -/
theorem State.Inv.of_transact {c : HostCall} {s t : State} {r : HostReply} (h : s.Inv)
    (ht : transact c s = .next (t, r)) : t.Inv :=
  transact_induction (fun _ _ => State.Inv.of_step) h (fun _ _ => h.loaded) (fun _ => h.paced) h.setKeys h.setPaused ht

/-- An unpaused `Update` from a state with the invariant, with its ticks and cycles counted (60_exceptions.md R221). -/
theorem update_runs {s : State} {dt : Rat} (hs : s.Inv) (hp : s.paused = false) (hd : 0 ≤ dt) :
    ∃ ticks n t, s.update dt = .next t ∧ s.updateRuns dt ticks n t ∧ t.Inv := by
  obtain ⟨ticks, n, u, -, -, -, -, hrun, hupd⟩ := (updateTicksThenRunsWholeCycles s dt hs hd).2 hp
  refine ⟨ticks, n, _, hupd, ⟨hupd, u, hrun, rfl⟩, hs.of_transact (c := .update dt) (r := .none) ?_⟩
  rw [transact_update, hupd, replyNone]

/-! ### The display the host reads (60_exceptions.md R225) -/

theorem State.readDisplay_length (s : State) : s.readDisplay.length = s.params.width * s.params.height := by
  rw [State.readDisplay, List.length_map, List.length_range]

/-- The cells are read row-major (10_state.md R29). -/
theorem State.readDisplay_getElem? (s : State) {x y : Nat} (hx : x < s.params.width) (hy : y < s.params.height) :
    s.readDisplay[y * s.params.width + x]? = some (s.cell x y) := by
  show s.readDisplay[cellIndex s.params x y]? = _
  rw [State.readDisplay, List.getElem?_map, List.getElem?_range (cellIndex_lt hx hy)]
  rfl

/-! ### Power-on and construction (70_reset_and_hazards.md R250, R251) -/

/-- Above the font an unlisted address reads as zero, as it does below (20_memory.md R51). -/
theorem unlisted_eq_zero {a : Nat} (h : a < 0x050 ∨ 0x0A0 ≤ a) : Memory.unlisted a = 0 := by
  have hbase : Config.fontBase = 0x050 := rfl
  have hlen : Config.defaultFont.length = 80 := rfl
  unfold Memory.unlisted
  split
  · rw [List.getElem?_eq_none (by omega), Option.getD_none]
  · rfl

/-- Power-on leaves the font at 0x050 to 0x09F and zero elsewhere (70_reset_and_hazards.md R250). -/
theorem read_powerOn_eq {p : Params} (hf : p.font.length = 80) (po : PowerOn) (a : Nat) :
    (State.powerOn p po).mem.read a = if 0x050 ≤ a ∧ a ≤ 0x09F then (p.font[a - 0x050]?).getD 0 else 0 := by
  rw [(read_powerOn hf po a).2]
  rcases Nat.lt_or_ge a 0x050 with hlo | hlo
  · rw [if_neg (by omega), if_neg (by omega), unlisted_eq_zero (.inl hlo)]
  rw [if_pos hlo]
  rcases Nat.lt_or_ge 0x09F a with hhi | hhi
  · rw [if_neg (by omega), List.getElem?_eq_none (by omega), Option.getD_none, unlisted_eq_zero (.inr hhi)]
  · rw [if_pos ⟨hlo, hhi⟩, List.getElem?_eq_getElem (by omega), Option.getD_some, Option.getD_some]

/-- The power-on byte of an address is the font's, or zero (20_memory.md R51). -/
theorem lowByte_eq {p : Params} (hf : p.font.length = 80) (a : Nat) :
    p.lowByte a = if 0x050 ≤ a ∧ a ≤ 0x09F then (p.font[a - 0x050]?).getD 0 else 0 := by
  have hbase : Config.fontBase = 0x050 := rfl
  rw [Params.lowByte, hbase]
  rcases Nat.lt_or_ge 0x09F a with hhi | hhi
  · rw [List.getElem?_eq_none (by omega), if_neg (c := _ ∧ _) (by omega)]
    exact ite_self _
  · simp only [hhi, and_true]

theorem Params.wellFormed_iff {p : Params} :
    p.wellFormed = true ↔ 0 < p.stackDepth ∧ p.font.length = 80 ∧ 0 < p.timerTick := by
  simp [Params.wellFormed, Params.stackDepthOk, Params.fontOk, Params.timerTickOk, Config.fontSize, and_assoc]

/-- Power-on has the invariant. -/
theorem powerOn_inv {p : Params} {po : PowerOn} (hp : p.wellFormed = true) (hd : Display.wf p po.disp = true) :
    (State.powerOn p po).Inv := by
  obtain ⟨-, hfont, htick⟩ := Params.wellFormed_iff.mp hp
  have hspc : 0 < Config.defaultSpc := by
    rw [defaultSpc_eq]
    norm_num
  exact {
    params_ok := hp
    mem_wf := (read_powerOn hfont po 0).1
    low_memory := fun a _ => (read_powerOn_eq hfont po a).trans (lowByte_eq hfont a).symm
    disp_wf := hd
    stack_bound := Nat.zero_le _
    stack_addrs := by simp [State.powerOn]
    pc_bound := by simp [State.powerOn, Config.romBase]
    timer_acc := ⟨le_rfl, htick⟩
    cycle_acc := ⟨le_rfl, hspc⟩
    halted_fault := rfl
    fault_kind := by simp [State.powerOn]
    log_kind := by simp [State.powerOn] }

/-- Every construction has the invariant, loaded or halted by a failed load. -/
theorem construct_inv {p : Params} {po : PowerOn} (bytes : List Byte) (cps : Rat) (hp : p.wellFormed = true)
    (hd : Display.wf p po.disp = true) : (State.construct p po bytes cps).Inv := by
  have hon := powerOn_inv hp hd
  rcases loadROM_cases (State.powerOn p po) bytes cps with ⟨hlen, hcps, e⟩ | ⟨-, e⟩
  · rw [construct_of_ok e]
    exact hon.loaded hlen hcps
  · rw [construct_of_error e]
    exact hon.takeFatal (by simp [loadFaultRecord])

/-- The construction with the default parameters, zeroed power-on values and an empty ROM: the default font stands in
memory as the unlisted bytes, so memory is the empty list. -/
theorem construct_default_eq_reset : State.construct Params.default PowerOn.zeroed [] 700 = State.reset := by
  rw [construct_of_ok (loadROM_of_fits (Nat.zero_le _) (by norm_num) _)]
  have hmem : (State.powerOn Params.default PowerOn.zeroed).mem = [] :=
    Memory.ext_read (read_powerOn rfl _ 0).1 rfl fun a => by
      rw [read_powerOn_eq rfl, ← lowByte_eq rfl, ← unlisted_eq_lowByte]
      rfl
  rw [State.loaded, hmem, ← defaultSpc_eq]
  rfl

/-! ### The obligations -/

/-- Settles O9: each case of a cycle, a fault taken or an own effect, keeps the invariant past the fetch. -/
theorem cycleKeepsInvariant : Obligations.CycleKeepsInvariant := by
  unfold Obligations.CycleKeepsInvariant
  exact fun s t => State.Inv.of_step

/-- Settles O10: every transaction is a cycle, a load, one write of the host, or the accounting of `Update` and then
cycles. -/
theorem transactionsKeepInvariant : Obligations.TransactionsKeepInvariant := by
  unfold Obligations.TransactionsKeepInvariant
  exact fun c s t r => State.Inv.of_transact

/-- Settles O12: power-on has the invariant, and a load and a LoadFault keep it. -/
theorem constructionHasInvariant : Obligations.ConstructionHasInvariant := by
  unfold Obligations.ConstructionHasInvariant
  exact fun p po bytes cps => construct_inv bytes cps

/-- Settles O13: no cycle and no host write changes a parameter. -/
theorem parametersNeverChange : Obligations.ParametersNeverChange := by
  unfold Obligations.ParametersNeverChange
  intro c s t r h
  refine transact_induction (P := fun u => u.params = s.params) (fun a b ha hab => ?_) rfl (fun _ _ _ _ => rfl)
    (fun _ _ => rfl) (fun _ => rfl) (fun _ => rfl) h
  exact (step_hostFields hab).1.trans ha

/-- Settles O14: a baseline cycle has no store, MemWrite checks the range first, and a store that passes the check, like
a load of a ROM, starts at 0x200 or above. -/
theorem fontAndReservedRangeNeverChange : Obligations.FontAndReservedRangeNeverChange := by
  unfold Obligations.FontAndReservedRangeNeverChange
  refine ⟨fun s t => step_mem_of_baseline, fun m a bs ha => memWrite_error (.inl ha), fun c s t r hw h => ?_⟩
  have hsame : s.mem.wf = true ∧ ∀ a, a < 0x200 → s.mem.read a = s.mem.read a := ⟨hw, fun _ _ => rfl⟩
  refine (transact_induction (P := fun u => u.mem.wf = true ∧ ∀ a, a < 0x200 → u.mem.read a = s.mem.read a)
    (fun u v hu huv => ?_) hsame (fun bytes cps hlen _ => ?_) (fun _ _ => hsame) (fun _ => hsame) (fun _ => hsame) h).2
  · obtain ⟨hv, hlow⟩ := step_low_memory hu.1 huv
    exact ⟨hv, fun a ha => (hlow a ha).trans (hu.2 a ha)⟩
  · refine ⟨wf_loaded hw hlen cps, fun a ha => ?_⟩
    rw [read_loaded hw hlen, if_neg (by omega)]

/-- Settles O15: a changed display is an instruction's own effect, and of these only a clear and a draw write it; of the
host's calls only `Process` and `Update` run cycles. -/
theorem displayChangesOnlyByClearAndDraw : Obligations.DisplayChangesOnlyByClearAndDraw := by
  unfold Obligations.DisplayChangesOnlyByClearAndDraw
  refine ⟨fun s t h hne => ?_, fun c s t r h hne => ?_⟩
  · obtain ⟨w, i, hw, hi, he⟩ := effect_of_step_changes State.disp (fun _ _ _ _ _ => rfl) h hne
    rcases he.disp with hd | ⟨rfl, -⟩ | ⟨x, y, n, -, -, rfl, -, -⟩
    · exact absurd hd hne
    · exact ⟨w, hw, .inl hi⟩
    · exact ⟨w, hw, .inr ⟨x, y, n, hi⟩⟩
  · rcases transact_next h with ⟨bytes, cps, -, -, -, rfl⟩ | ⟨dt, hc, -⟩ | ⟨hc, -⟩ | ⟨bits, rfl⟩ | ⟨b, rfl⟩ | rfl
    · exact absurd rfl hne
    · exact .inr ⟨dt, hc⟩
    · exact .inl hc
    · exact absurd rfl hne
    · exact absurd rfl hne
    · exact absurd rfl hne

/-- Settles O52: the font's 80 bytes are stored over zeros, and every other item is the one named. -/
theorem powerOnSetsEveryItem : Obligations.PowerOnSetsEveryItem := by
  unfold Obligations.PowerOnSetsEveryItem
  intro p po hp
  obtain ⟨-, hfont, -⟩ := Params.wellFormed_iff.mp hp
  refine ⟨(read_powerOn hfont po 0).1, read_powerOn_eq hfont po, ?_⟩
  rw [← defaultSpc_eq]
  rfl

/-- Settles O57: the first call leaves a state with the invariant whose accumulators are the sums less its own ticks
and cycles, so the counts of the rest add to its counts. -/
theorem pacingIsExactUnderSplitting : Obligations.PacingIsExactUnderSplitting := by
  unfold Obligations.PacingIsExactUnderSplitting
  intro s dts
  induction dts generalizing s with
  | nil =>
    intro hs hp _
    obtain ⟨hta, hta'⟩ := hs.timer_acc
    obtain ⟨hca, hca'⟩ := hs.cycle_acc
    exact ⟨0, 0, s, rfl, ⟨rfl, rfl, rfl⟩, by simpa, by simpa, by simpa, by simpa, by simp, by simp, rfl, rfl, hp⟩
  | cons d ds ih =>
    intro hs hp hds
    obtain ⟨hd, hds'⟩ := List.forall_mem_cons.mp hds
    obtain ⟨k₁, n₁, u, hupd, hrun, hu⟩ := update_runs hs hp hd
    obtain ⟨hparams, hta, hca, hspc, hpaused⟩ := State.updateRuns_hostFields hrun
    obtain ⟨k₂, n₂, t, hall, hruns, htick, htick', hcycle, hcycle', hta', hca', hspc', hparams', hpaused'⟩ :=
      ih u hu (hpaused.trans hp) hds'
    rw [hparams, hta] at htick htick' hta'
    rw [hspc, hca] at hcycle hcycle' hca'
    refine ⟨k₁ + k₂, n₁ + n₂, t, (updateAll_cons hupd ds).trans hall, ⟨k₁, n₁, k₂, n₂, u, hrun, hruns, rfl, rfl⟩,
      ?_, ?_, ?_, ?_, ?_, ?_, hspc'.trans hspc, hparams'.trans hparams, hpaused'⟩ <;>
      rw [List.sum_cons] <;> push_cast <;> linarith

/-- Settles O59: every cycle answers a next state, so an `Update` stops only on its own check of `dt`. -/
theorem onlyNegativeTimeHasNoStep : Obligations.OnlyNegativeTimeHasNoStep := by
  unfold Obligations.OnlyNegativeTimeHasNoStep
  refine fun c s => ⟨fun dt hd hc => ?_, fun hc => ?_⟩
  · rw [hc, transact_update, update_of_neg hd, replyNone]
  · exact transact_total s hc

/-- Settles O60: each write is one field's, and the cell in column x, row y is the display's element `y * W + x`. -/
theorem hostWritesAndReadsAreExact : Obligations.HostWritesAndReadsAreExact := by
  unfold Obligations.HostWritesAndReadsAreExact
  intro s
  refine ⟨fun bits => ⟨s.setKeys bits, rfl, fun k => ?_, rfl⟩, fun b => rfl,
    ⟨s.readDisplay, rfl, State.readDisplay_length s, fun x y => State.readDisplay_getElem? s⟩, rfl⟩
  rw [State.setKeys_keys, Fin.getElem_fin, Vector.getElem_ofFn]

/-- Settles O11: the reset state is a construction with legal parameters. -/
theorem resetHasInvariant : Obligations.ResetHasInvariant := by
  unfold Obligations.ResetHasInvariant
  rw [← construct_default_eq_reset]
  exact construct_inv [] 700 (Params.wellFormed_iff.mpr ⟨by decide, rfl, one_pos⟩) rfl

/-- Settles O54: the two states agree item by item, memory since both are canonical and read alike. -/
theorem resetIsConstructionWithEmptyRom : Obligations.ResetIsConstructionWithEmptyRom := by
  unfold Obligations.ResetIsConstructionWithEmptyRom
  exact construct_default_eq_reset

end Sys2Proof.Machine

/-! ## Draws: DXYN by its cells, its faults, and its inverse (41_display.md R101 to R104) -/

namespace Sys2Proof.Machine

/-- Every word DXYN is the draw (30_encoding.md R79). -/
theorem decodesRow_drw : decodesRow 0xF000 0xD000 (fun w => .drw (fieldX w) (fieldY w) (fieldN w)) :=
  fun _ hw => decodeWord_D000 (decodeKey_of_mask_F000 hw (by decide))

/-! ### When a draw completes (41_display.md R101, R102) -/

/-- The draw completes: its sprite is in memory and, under `FAULT`, no set pixel is off the display. -/
def State.drawFits (s : State) (x y n : Nibble) : Prop :=
  s.spriteInMemory n ∧
  (s.params.drawEdge = .fault → ∀ r c, r < n.val → c < 8 → s.spriteBit r c = true → s.pixelOnDisplay x y r c)

/-- A draw that fits toggles the cells its set pixels land on, each once. -/
theorem exec_drw_of_fits {x y n : Nibble} {s : State} (h : s.drawFits x y n) :
    ∃ ks : List Nat, ks.Nodup ∧ (∀ k ∈ ks, k < s.params.width * s.params.height) ∧
      (∀ cx cy, cx < s.params.width → cy < s.params.height →
        (cellIndex s.params cx cy ∈ ks ↔ s.drawHits x y n cx cy)) ∧
      exec (.drw x y n) s = .next (s.draw ks) := by
  obtain ⟨hmem, hedge⟩ := h
  rcases execDrw_cases x y n s with ⟨hout, -⟩ | ⟨-, hf, r, c, hr, hc, hb, hoff, -, -⟩ | ⟨-, -, hks⟩
  · exact absurd hmem hout
  · exact absurd (hedge hf r c hr hc hb) hoff
  · exact hks

/-- A draw that leaves the machine running fits. -/
theorem drawFits_of_running {x y n : Nibble} {s t : State} (h : exec (.drw x y n) s = .next t)
    (ht : t.halted = false) : s.drawFits x y n := by
  rw [exec_drw] at h
  rcases execDrw_cases x y n s with ⟨-, e⟩ | ⟨-, -, r, c, -, -, -, -, -, e⟩ | ⟨hmem, hedge, -⟩
  · rw [e] at h
    simp [halted_of_raise h] at ht
  · rw [e] at h
    simp [halted_of_raise h] at ht
  · exact ⟨hmem, hedge⟩

/-- What a draw does depends on memory, I, the parameters, V[X] and V[Y] only. -/
theorem draw_congr {s t : State} {x y : Nibble} (hp : t.params = s.params) (hm : t.mem = s.mem) (hI : t.I = s.I)
    (hx : t.readV x = s.readV x) (hy : t.readV y = s.readV y) (n : Nibble) :
    (t.drawFits x y n ↔ s.drawFits x y n) ∧ ∀ cx cy, t.drawHits x y n cx cy ↔ s.drawHits x y n cx cy := by
  simp only [State.drawFits, State.drawHits, State.spriteInMemory, State.spriteBit, State.pixelOnDisplay,
    State.pixelLandsOn, State.originX, State.originY, hp, hm, hI, hx, hy, iff_self, implies_true, and_self]

/-- Lists of element numbers on the display with the same cells have the same elements. -/
theorem mem_iff_of_cells {p : Params} {ks ks' : List Nat} (hk : ∀ k ∈ ks, k < p.width * p.height)
    (hk' : ∀ k ∈ ks', k < p.width * p.height)
    (h : ∀ cx cy, cx < p.width → cy < p.height → (cellIndex p cx cy ∈ ks ↔ cellIndex p cx cy ∈ ks')) (k : Nat) :
    k ∈ ks ↔ k ∈ ks' := by
  constructor
  · intro hm
    obtain ⟨cx, cy, hx, hy, rfl⟩ := exists_cell (hk k hm)
    exact (h cx cy hx hy).mp hm
  · intro hm
    obtain ⟨cx, cy, hx, hy, rfl⟩ := exists_cell (hk' k hm)
    exact (h cx cy hx hy).mpr hm

/-! ### The flag (41_display.md R103) -/

/-- VF after a draw is 0 or 1 (41_display.md R103). -/
theorem State.readV_draw_flag_cases (s : State) (ks : List Nat) :
    (s.draw ks).readV 0xF = 1 ∨ (s.draw ks).readV 0xF = 0 := by
  rw [State.readV_draw_flag]
  cases (Display.drawCells s.disp ks).2
  · exact .inr rfl
  · exact .inl rfl

/-- VF after a draw is 1 exactly when some cell it toggles was on before it. -/
theorem State.readV_draw_eq_one_iff {s : State} (hw : Display.wf s.params s.disp = true) {ks : List Nat} (hn : ks.Nodup)
    (hk : ∀ k ∈ ks, k < s.params.width * s.params.height) :
    (s.draw ks).readV 0xF = 1 ↔ ∃ cx cy, cx < s.params.width ∧ cy < s.params.height ∧
      cellIndex s.params cx cy ∈ ks ∧ s.cell cx cy = true := by
  rw [← State.draw_hit_iff hw hn hk, State.readV_draw_flag]
  cases (Display.drawCells s.disp ks).2 <;> decide

/-! ### The obligations -/

/-- Settles O25: the draw toggles the cells its set pixels land on, and its collision is that of the pixel loop. -/
theorem drawFlipsTheSpriteCells : Obligations.DrawFlipsTheSpriteCells := by
  unfold Obligations.DrawFlipsTheSpriteCells
  refine ⟨decodesRow_drw, fun x y n s hw hmem hedge => ?_⟩
  obtain ⟨ks, hn, hk, hhit, e⟩ := exec_drw_of_fits ⟨hmem, hedge⟩
  refine ⟨s.draw ks, e, fun cx cy hx hy => ?_, ?_, fun r hr => ?_, fun _ => rfl, State.draw_eq s ks⟩
  · rw [State.cell_draw_ne hw hn hk, hhit cx cy hx hy]
  · have hex : (∃ cx cy, cx < s.params.width ∧ cy < s.params.height ∧ s.drawHits x y n cx cy ∧ s.cell cx cy = true) ↔
        ∃ cx cy, cx < s.params.width ∧ cy < s.params.height ∧ cellIndex s.params cx cy ∈ ks ∧ s.cell cx cy = true :=
      exists₂_congr fun cx cy => and_congr_right fun hx => and_congr_right fun hy => by rw [hhit cx cy hx hy]
    rw [hex, ← State.readV_draw_eq_one_iff hw hn hk]
    rcases State.readV_draw_flag_cases s ks with h1 | h0
    · exact .inl ⟨h1, h1⟩
    · exact .inr ⟨h0, by simp [h0]⟩
  · rw [State.readV_draw, if_neg fun h => hr (by simp [← h, regVF])]

/-- Settles O26: the range is checked before the edge, and the first set pixel off the display is one pixel only. -/
theorem drawFaultsBeforeWriting : Obligations.DrawFaultsBeforeWriting := by
  unfold Obligations.DrawFaultsBeforeWriting
  refine fun x y n s => ⟨fun hout => ?_, fun r c hmem hf hr hc hb hoff hfirst => ?_⟩
  · rcases execDrw_cases x y n s with ⟨-, e⟩ | ⟨hmem, -⟩ | ⟨hmem, -⟩
    · exact e
    · exact absurd hmem hout
    · exact absurd hmem hout
  · rcases execDrw_cases x y n s with ⟨hout, -⟩ | ⟨-, -, r', c', hr', hc', hb', hoff', hfirst', e⟩ | ⟨-, hedge, -⟩
    · exact absurd hmem hout
    · have hle : ¬ (r' < r ∨ r' = r ∧ c' < c) := fun hlt => hoff' (hfirst r' c' hc' hlt hb')
      have hge : ¬ (r < r' ∨ r = r' ∧ c < c') := fun hlt => hoff (hfirst' r c hc hlt hb)
      obtain ⟨rfl, rfl⟩ : r = r' ∧ c = c' := by omega
      exact e
    · exact absurd (hedge hf r c hr hc hb) hoff

/-- Settles O28: the second draw toggles the cells of the first, so each is back, and the cells it finds on are those
the first found off. -/
theorem drawTwiceRestoresDisplay : Obligations.DrawTwiceRestoresDisplay := by
  unfold Obligations.DrawTwiceRestoresDisplay
  intro x y n s t hw _ he ht hx hy
  obtain ⟨ks, hn, hk, hhit, rfl⟩ := exec_drw_running he ht
  obtain ⟨hfits, hhits⟩ := draw_congr (s := s) (t := s.draw ks) rfl rfl rfl hx hy n
  obtain ⟨ks', hn', hk', hhit', e⟩ := exec_drw_of_fits (hfits.mpr (drawFits_of_running he ht))
  have hsame := mem_iff_of_cells (p := s.params) hk' hk fun cx cy hcx hcy =>
    (hhit' cx cy hcx hcy).trans ((hhits cx cy).trans (hhit cx cy hcx hcy).symm)
  have hw' : Display.wf s.params (s.draw ks).disp = true := Display.wf_drawCells hw hk
  refine ⟨_, e, ht, Display.ext_mem (p := s.params) (Display.wf_drawCells hw' hk') hw fun k => ?_, ?_⟩
  · rw [State.draw_disp, Display.mem_drawCells hw' hn' hk', State.draw_disp, Display.mem_drawCells hw hn hk, hsame]
    tauto
  · rw [State.readV_draw_eq_one_iff hw' hn' hk']
    refine exists₂_congr fun cx cy => and_congr_right fun _ => and_congr_right fun _ => ?_
    rw [hsame, show cellIndex (s.draw ks).params cx cy = cellIndex s.params cx cy from rfl,
      ← State.cell_draw_ne hw hn hk]
    cases (s.draw ks).cell cx cy <;> cases s.cell cx cy <;> decide

end Sys2Proof.Machine

/-! ## The extensions with `EXT_OPS = true`, and FX1E (00_scope.md R5, log 17) -/

namespace Sys2Proof.Machine

/-! ### The rows (30_encoding.md R79) -/

/-- Every word 3XNN is the skip on equality with its immediate. -/
theorem decodesRow_seImm : decodesRow 0xF000 0x3000 (fun w => .seImm (fieldX w) (fieldNN w)) :=
  fun _ hw => decodeWord_3000 (decodeKey_of_mask_F000 hw (by decide))

/-- Every word 4XNN is the skip on inequality with its immediate. -/
theorem decodesRow_sneImm : decodesRow 0xF000 0x4000 (fun w => .sneImm (fieldX w) (fieldNN w)) :=
  fun _ hw => decodeWord_4000 (decodeKey_of_mask_F000 hw (by decide))

/-- Every word 5XYN is the skip on equal registers. -/
theorem decodesRow_seReg : decodesRow 0xF000 0x5000 (fun w => .seReg (fieldX w) (fieldY w) (fieldN w)) :=
  fun _ hw => decodeWord_5000 (decodeKey_of_mask_F000 hw (by decide))

/-- Every word 9XYN is the skip on differing registers. -/
theorem decodesRow_sneReg : decodesRow 0xF000 0x9000 (fun w => .sneReg (fieldX w) (fieldY w) (fieldN w)) :=
  fun _ hw => decodeWord_9000 (decodeKey_of_mask_F000 hw (by decide))

/-- Every word BNNN is the jump with offset. -/
theorem decodesRow_jpV0 : decodesRow 0xF000 0xB000 (fun w => .jpV0 (fieldNNN w)) :=
  fun _ hw => decodeWord_B000 (decodeKey_of_mask_F000 hw (by decide))

/-- Every word CXNN is the masked draw. -/
theorem decodesRow_rnd : decodesRow 0xF000 0xC000 (fun w => .rnd (fieldX w) (fieldNN w)) :=
  fun _ hw => decodeWord_C000 (decodeKey_of_mask_F000 hw (by decide))

/-- Every word 8XY6 is the shift right. -/
theorem decodesRow_shr : decodesRow 0xF00F 0x8006 (fun w => .shr (fieldX w) (fieldY w)) :=
  fun _ hw => decodeWord_8006 (decodeKey_of_mask_F00F hw (by decide))

/-- Every word 8XYE is the shift left. -/
theorem decodesRow_shl : decodesRow 0xF00F 0x800E (fun w => .shl (fieldX w) (fieldY w)) :=
  fun _ hw => decodeWord_800E (decodeKey_of_mask_F00F hw (by decide))

/-- Every word FX1E is the addition to I. -/
theorem decodesRow_addI : decodesRow 0xF0FF 0xF01E (fun w => .addI (fieldX w)) :=
  fun _ hw => decodeWord_F01E (decodeKey_of_mask_F0FF hw (by decide))

/-- Every word FX29 is the font lookup. -/
theorem decodesRow_ldF : decodesRow 0xF0FF 0xF029 (fun w => .ldF (fieldX w)) :=
  fun _ hw => decodeWord_F029 (decodeKey_of_mask_F0FF hw (by decide))

/-- Every word FX33 is the BCD store. -/
theorem decodesRow_ldB : decodesRow 0xF0FF 0xF033 (fun w => .ldB (fieldX w)) :=
  fun _ hw => decodeWord_F033 (decodeKey_of_mask_F0FF hw (by decide))

/-- Every word FX55 is the block store. -/
theorem decodesRow_ldMemVx : decodesRow 0xF0FF 0xF055 (fun w => .ldMemVx (fieldX w)) :=
  fun _ hw => decodeWord_F055 (decodeKey_of_mask_F0FF hw (by decide))

/-- Every word FX65 is the block load. -/
theorem decodesRow_ldVxMem : decodesRow 0xF0FF 0xF065 (fun w => .ldVxMem (fieldX w)) :=
  fun _ hw => decodeWord_F065 (decodeKey_of_mask_F0FF hw (by decide))

/-! ### What dispatch runs behind the open gate (30_encoding.md R76) -/

section Enabled

variable {s : State} (he : s.params.extOps = true)
include he

theorem exec_seImm (x : Nibble) (nn : Byte) : exec (.seImm x nn) s = .next (s.skipIf (s.readV x == nn)) :=
  extension_on he _ _

theorem exec_sneImm (x : Nibble) (nn : Byte) : exec (.sneImm x nn) s = .next (s.skipIf (!(s.readV x == nn))) :=
  extension_on he _ _

theorem exec_seReg (x y n : Nibble) : exec (.seReg x y n) s = .next (s.skipIf (s.readV x == s.readV y)) :=
  extension_on he _ _

theorem exec_sneReg (x y n : Nibble) : exec (.sneReg x y n) s = .next (s.skipIf (!(s.readV x == s.readV y))) :=
  extension_on he _ _

theorem exec_jpV0 (nnn : Addr12) :
    exec (.jpV0 nnn) s = .next (s.setPc (zext16 nnn + (s.jumpOffsetValue nnn).setWidth 16)) :=
  extension_on he _ _

theorem exec_rnd (x : Nibble) (nn : Byte) :
    exec (.rnd x nn) s = .next ({ s with rngDraws := s.rngDraws + 1 }.writeV x (Config.rng s.rngDraws &&& nn)) :=
  extension_on he _ _

theorem exec_shr (x y : Nibble) :
    exec (.shr x y) s =
      .next (s.writeWithFlag x (s.shiftSource x y >>> 1) (shiftOutRight (s.shiftSource x y))) :=
  extension_on he _ _

theorem exec_shl (x y : Nibble) :
    exec (.shl x y) s = .next (s.writeWithFlag x (s.shiftSource x y <<< 1) (shiftOutLeft (s.shiftSource x y))) :=
  extension_on he _ _

theorem exec_ldF (x : Nibble) : exec (.ldF x) s = .next (s.setI (glyphAddr (s.readV x))) :=
  extension_on he _ _

theorem exec_ldB_of_ok {x : Nibble} {m : Memory} (h : memWrite s.mem s.I.toNat (bcdDigits (s.readV x)) = .ok m) :
    exec (.ldB x) s = .next { s with mem := m } := by
  refine (extension_on he _ _).trans ?_
  rw [h]

theorem exec_ldB_of_error {x : Nibble} {a : Nat} (h : memWrite s.mem s.I.toNat (bcdDigits (s.readV x)) = .error a) :
    exec (.ldB x) s = raise .memory (.address a) (.ldB x) s := by
  refine (extension_on he _ _).trans ?_
  rw [h]

theorem exec_ldMemVx_of_ok {x : Nibble} {m : Memory}
    (h : memWrite s.mem s.I.toNat (s.lowRegs (x.val + 1)) = .ok m) :
    exec (.ldMemVx x) s = .next ({ s with mem := m }.advanceI (x.val + 1)) := by
  refine (extension_on he _ _).trans ?_
  rw [h]

theorem exec_ldMemVx_of_error {x : Nibble} {a : Nat}
    (h : memWrite s.mem s.I.toNat (s.lowRegs (x.val + 1)) = .error a) :
    exec (.ldMemVx x) s = raise .memory (.address a) (.ldMemVx x) s := by
  refine (extension_on he _ _).trans ?_
  rw [h]

theorem exec_ldVxMem_of_ok {x : Nibble} {bytes : List Byte} (h : memRead s.mem s.I.toNat (x.val + 1) = .ok bytes) :
    exec (.ldVxMem x) s = .next ((s.loadRegs bytes).advanceI (x.val + 1)) := by
  refine (extension_on he _ _).trans ?_
  rw [h]

theorem exec_ldVxMem_of_error {x : Nibble} {a : Nat} (h : memRead s.mem s.I.toNat (x.val + 1) = .error a) :
    exec (.ldVxMem x) s = raise .memory (.address a) (.ldVxMem x) s := by
  refine (extension_on he _ _).trans ?_
  rw [h]

end Enabled

/-! ### Skips and the jump with offset (42_control_flow.md R123 to R127) -/

/-- A skip on equality, as a condition on the operands: `pc` only, by 2 more when they are equal. -/
theorem skip_beq (s : State) (a b : Byte) :
    onlyPc s (s.skipIf (a == b)) ∧ (s.skipIf (a == b)).pc = if a = b then s.pc + 2 else s.pc := by
  refine ⟨onlyPc_skipIf s _, ?_⟩
  simp only [State.skipIf_pc, beq_iff_eq]

/-- A skip on inequality: `pc` only, by 2 more when the operands differ. -/
theorem skip_not_beq (s : State) (a b : Byte) :
    onlyPc s (s.skipIf (!(a == b))) ∧ (s.skipIf (!(a == b))).pc = if a = b then s.pc else s.pc + 2 := by
  refine ⟨onlyPc_skipIf s _, ?_⟩
  simp only [State.skipIf_not_pc, beq_iff_eq]

/-- The top nibble of an address field, as a register number (42_control_flow.md R127). -/
theorem topNibble_of_val {nnn : Addr12} {x : Nibble} (h : x.val = nnn.toNat / 256) : (nnn.extractLsb' 8 4).toFin = x := by
  apply Fin.ext
  have hlt := x.isLt
  show (nnn.extractLsb' 8 4).toNat = x.val
  rw [BitVec.extractLsb'_toNat, Nat.shiftRight_eq_div_pow, h, Nat.mod_eq_of_lt (by omega)]

/-! ### Shifts (43_alu.md R150, R151) -/

/-- The shift's source is the register `SHIFT_SRC` selects. -/
theorem State.shiftSource_eq {s : State} {x y z : Nibble}
    (h : s.params.shiftSrc = .vy ∧ z = y ∨ s.params.shiftSrc = .vx ∧ z = x) : s.shiftSource x y = s.readV z := by
  unfold State.shiftSource
  rcases h with ⟨hs, rfl⟩ | ⟨hs, rfl⟩ <;> rw [hs]

theorem toNat_shiftRight_one (b : Byte) : (b >>> 1).toNat = b.toNat / 2 := by
  rw [BitVec.toNat_ushiftRight, Nat.shiftRight_eq_div_pow, Nat.pow_one]

theorem toNat_shiftLeft_one (b : Byte) : (b <<< 1).toNat = 2 * b.toNat % 256 := by
  rw [BitVec.toNat_shiftLeft, Nat.shiftLeft_eq, Nat.mul_comm]

/-- The bit shifted out on the right is the byte modulo 2. -/
theorem toNat_shiftOutRight (b : Byte) : (if shiftOutRight b then 1 else 0 : Byte).toNat = b.toNat % 2 := by
  rw [shiftOutRight, show b.getLsbD 0 = decide (b.toNat % 2 = 1) from Nat.testBit_zero _]
  rcases Nat.mod_two_eq_zero_or_one b.toNat with h | h <;> simp [h]

/-- The bit shifted out on the left is the byte's top bit. -/
theorem toNat_shiftOutLeft (b : Byte) : (if shiftOutLeft b then 1 else 0 : Byte).toNat = b.toNat / 128 := by
  have hlt := b.isLt
  rw [shiftOutLeft, show b.getLsbD 7 = b.msb from (BitVec.msb_eq_getLsbD_last b).symm, BitVec.msb_eq_decide]
  by_cases h : 2 ^ (8 - 1) ≤ b.toNat <;> simp only [h, decide_true, decide_false, if_true, Bool.false_eq_true, if_false]
  · exact (show b.toNat / 128 = 1 by omega).symm
  · exact (show b.toNat / 128 = 0 by omega).symm

/-! ### The index register (44_index_memory.md R171, R172) -/

theorem indexOverflowFlag_iff {i : Word} {b : Byte} : indexOverflowFlag i b = true ↔ i.toNat + b.toNat > 0xFFF :=
  decide_eq_true_iff

/-- The sum of I and a byte is taken modulo 65536. -/
theorem toNat_index_add (i : Word) (b : Byte) : (i + b.setWidth 16).toNat = (i.toNat + b.toNat) % 65536 := by
  have := b.isLt
  rw [BitVec.toNat_add, BitVec.toNat_setWidth, Nat.mod_eq_of_lt (a := b.toNat) (by omega)]

theorem toNat_glyphAddr (b : Byte) : (glyphAddr b).toNat = 0x050 + 5 * (b.toNat % 16) := by
  have hbase : Config.fontBase = 0x050 := rfl
  have hlow : (b &&& 0x0F).toNat = b.toNat % 16 := Nat.and_two_pow_sub_one_eq_mod b.toNat 4
  rw [glyphAddr, BitVec.toNat_ofNat, hlow, hbase, Nat.mod_eq_of_lt (by omega)]

/-- FX1E writes I, and with `FX1E_SETS_VF = true` VF after it (44_index_memory.md R171). -/
theorem exec_addI (x : Nibble) (s : State) :
    exec (.addI x) s =
      .next (if s.params.fx1eSetsVF
        then (s.setI (s.I + (s.readV x).setWidth 16)).writeFlag (indexOverflowFlag s.I (s.readV x))
        else s.setI (s.I + (s.readV x).setWidth 16)) := rfl

/-! ### Blocks of memory and of registers (44_index_memory.md R173 to R175) -/

/-- A stored byte is read back at its address. -/
theorem read_writeBytes_inside {m : Memory} (hw : m.wf = true) {a : Nat} {vs : List Byte}
    (ha : a + vs.length ≤ Config.memSize) {k : Nat} {v : Byte} (hk : vs[k]? = some v) :
    (m.writeBytes a vs).read (a + k) = v := by
  rw [Memory.read_writeBytes hw _ _ _ ha, if_pos (Nat.le_add_right a k), Nat.add_sub_cancel_left, hk, Option.getD_some]

/-- Every byte outside the stored range reads as before. -/
theorem read_writeBytes_outside {m : Memory} (hw : m.wf = true) {a : Nat} {vs : List Byte}
    (ha : a + vs.length ≤ Config.memSize) {b : Nat} (hb : b < a ∨ a + vs.length ≤ b) :
    (m.writeBytes a vs).read b = m.read b := by
  rw [Memory.read_writeBytes hw _ _ _ ha]
  split
  · rw [List.getElem?_eq_none (by omega), Option.getD_none]
  · rfl

theorem length_bcdDigits (b : Byte) : (bcdDigits b).length = 3 := rfl

/-- Advancing I writes I only. -/
theorem State.advanceI_eq (s : State) (k : Nat) : s.advanceI k = { s with I := (s.advanceI k).I } := by
  unfold State.advanceI
  split <;> rfl

/-- I past a block of X + 1 bytes, modulo 2^16, or where it was, per `LDST_INC_I` (44_index_memory.md R174, R175). -/
theorem State.advanceI_I_toNat (s : State) (x : Nibble) :
    (s.advanceI (x.val + 1)).I.toNat =
      if s.params.ldstIncI then (s.I.toNat + x.val + 1) % 65536 else s.I.toNat := by
  have hx := x.isLt
  rw [State.advanceI_I]
  split
  · rw [BitVec.toNat_add, BitVec.toNat_ofNat, Nat.mod_eq_of_lt (a := x.val + 1) (by omega), Nat.add_assoc]
  · rfl

/-- A block load reads the registers' bytes from I up and keeps the registers above V[X] (44_index_memory.md R175). -/
theorem State.readV_loadRegs_range (s : State) (x : Nibble) (f : Nat → Byte) (k : Nibble) :
    (s.loadRegs ((List.range (x.val + 1)).map f)).readV k = if k ≤ x then f k.val else s.readV k := by
  rw [State.readV_loadRegs, List.getElem?_map]
  by_cases hk : k ≤ x
  · rw [if_pos hk, List.getElem?_range (Nat.lt_succ_of_le hk), Option.map_some, Option.getD_some]
  · have hk' : x.val + 1 ≤ k.val := Nat.succ_le_of_lt (Nat.lt_of_not_le hk)
    rw [if_neg hk, List.getElem?_eq_none (by rwa [List.length_range]), Option.map_none, Option.getD_none]

/-! ### The obligations -/

/-- Settles O32: both skips test the same comparison. -/
theorem skipsCompareWithImmediate : Obligations.SkipsCompareWithImmediate := by
  unfold Obligations.SkipsCompareWithImmediate
  exact ⟨decodesRow_seImm, decodesRow_sneImm, fun x nn s he =>
    ⟨⟨_, exec_seImm he x nn, skip_beq s _ _⟩, ⟨_, exec_sneImm he x nn, skip_not_beq s _ _⟩⟩⟩

/-- Settles O33: both skips test the same comparison, and neither handler reads N. -/
theorem skipsCompareRegisters : Obligations.SkipsCompareRegisters := by
  unfold Obligations.SkipsCompareRegisters
  exact ⟨decodesRow_seReg, decodesRow_sneReg, fun x y n s he =>
    ⟨⟨_, exec_seReg he x y n, skip_beq s _ _⟩, ⟨_, exec_sneReg he x y n, skip_not_beq s _ _⟩⟩⟩

/-- Settles O34: an address of 12 bits plus a byte stays below 2^16, so the sum is not reduced. -/
theorem offsetJumpAddsRegister : Obligations.OffsetJumpAddsRegister := by
  unfold Obligations.OffsetJumpAddsRegister
  refine ⟨decodesRow_jpV0, fun nnn s he => ⟨_, exec_jpV0 he nnn, onlyPc_setPc s _, fun hv0 => ?_, fun x hvx hx => ?_⟩⟩
  · rw [State.setPc_pc, jumpTarget_toNat, State.jumpOffsetValue, hv0]
  · rw [State.setPc_pc, jumpTarget_toNat, State.jumpOffsetValue, hvx, topNibble_of_val hx]

/-- Settles O41: each shift is one flagged write of the selected register's value. -/
theorem shiftsMoveOneBitOut : Obligations.ShiftsMoveOneBitOut := by
  unfold Obligations.ShiftsMoveOneBitOut
  refine ⟨decodesRow_shr, decodesRow_shl, fun x y z s he hz => ⟨⟨_, exec_shr he x y, ?_⟩, ⟨_, exec_shl he x y, ?_⟩⟩⟩ <;>
    rw [State.shiftSource_eq hz]
  · refine ⟨onlyRegs_writeWithFlag s x _ _, fun hx => ?_, ?_⟩
    · rw [State.readV_writeWithFlag_result s hx, toNat_shiftRight_one]
    · rw [State.readV_writeWithFlag_flag, toNat_shiftOutRight]
  · refine ⟨onlyRegs_writeWithFlag s x _ _, fun hx => ?_, ?_⟩
    · rw [State.readV_writeWithFlag_result s hx, toNat_shiftLeft_one]
    · rw [State.readV_writeWithFlag_flag, toNat_shiftOutLeft]

/-- Settles O42: the draw is one write of V[X] and one step of the counter. -/
theorem randomIsMaskedDraw : Obligations.RandomIsMaskedDraw := by
  unfold Obligations.RandomIsMaskedDraw
  refine ⟨decodesRow_rnd, fun x nn s he => ⟨_, exec_rnd he x nn, State.readV_writeV_same _ x _, rfl, fun r hr => ?_,
    fun _ => rfl, rfl⟩⟩
  rw [State.readV_writeV_other _ (fun h => hr (by simp [h])), State.readV_mk_rngDraws]

/-- Settles O44: the sum is one write of I, and with `FX1E_SETS_VF = true` one write of VF after it. -/
theorem addIndexWrapsAtSixteenBits : Obligations.AddIndexWrapsAtSixteenBits := by
  unfold Obligations.AddIndexWrapsAtSixteenBits
  refine ⟨decodesRow_addI, fun x s => ⟨_, exec_addI x s, ?_, fun hoff => ?_, fun hon => ?_⟩⟩
  · rw [← toNat_index_add]
    split <;> rfl
  · rw [hoff, if_neg Bool.false_ne_true]
    exact onlyI_setI s _
  · rw [if_pos hon]
    refine ⟨?_, fun r hr => ?_, fun _ => rfl, rfl⟩
    · simp only [State.readV_writeFlag, indexOverflowFlag_iff, if_pos (show regVF = 0xF from rfl)]
    · rw [State.readV_writeFlag, if_neg fun h => hr (by simp [← h, regVF]), State.readV_setI]

/-- Settles O45: the lookup is one write of I, whose value stays below 2^16. -/
theorem fontLookupPointsAtGlyph : Obligations.FontLookupPointsAtGlyph := by
  unfold Obligations.FontLookupPointsAtGlyph
  exact ⟨decodesRow_ldF, fun x s he => ⟨_, exec_ldF he x, toNat_glyphAddr _, onlyI_setI s _⟩⟩

/-- Settles O46: the three digits are one store, whose range decides between it and the fault. -/
theorem bcdStoresDigitsOrFaults : Obligations.BcdStoresDigitsOrFaults := by
  unfold Obligations.BcdStoresDigitsOrFaults
  have hrom : Config.romBase = 0x200 := rfl
  have hsize : Config.memSize = 0x1000 := rfl
  refine ⟨decodesRow_ldB, fun x s he hw => ?_⟩
  have hlen := length_bcdDigits (s.readV x)
  refine ⟨fun hlo hhi => ?_, fun hout => ?_⟩
  · have hfit : s.I.toNat + (bcdDigits (s.readV x)).length ≤ Config.memSize := by omega
    have hdigit {k n : Nat} (hk : (bcdDigits (s.readV x))[k]? = some (BitVec.ofNat 8 n)) (hn : n < 256) :
        ((s.mem.writeBytes s.I.toNat (bcdDigits (s.readV x))).read (s.I.toNat + k)).toNat = n := by
      rw [read_writeBytes_inside hw hfit hk, BitVec.toNat_ofNat, Nat.mod_eq_of_lt hn]
    have hb := (s.readV x).isLt
    exact ⟨_, exec_ldB_of_ok he (memWrite_ok hlo hfit), hdigit (k := 0) rfl (by omega), hdigit rfl (by omega),
      hdigit rfl (by omega), fun b hb => read_writeBytes_outside hw hfit (by omega), fun _ _ => rfl, rfl⟩
  · exact (exec_ldB_of_error he (memWrite_error (by omega))).trans (raise_eq ..)

/-- Settles O47: the registers are one store, whose range decides between it and the fault, and I advances after it. -/
theorem blockStoreWritesRegistersOrFaults : Obligations.BlockStoreWritesRegistersOrFaults := by
  unfold Obligations.BlockStoreWritesRegistersOrFaults
  have hrom : Config.romBase = 0x200 := rfl
  have hsize : Config.memSize = 0x1000 := rfl
  refine ⟨decodesRow_ldMemVx, fun x s he hw => ?_⟩
  have hlen := State.lowRegs_length s x
  refine ⟨fun hlo hhi => ?_, fun hout => ?_⟩
  · have hfit : s.I.toNat + (s.lowRegs (x.val + 1)).length ≤ Config.memSize := by omega
    refine ⟨_, exec_ldMemVx_of_ok he (memWrite_ok hlo hfit), fun k hk => ?_, fun b hb => ?_,
      State.advanceI_I_toNat _ x, fun r _ => ?_, ?_⟩
    · rw [State.advanceI_mem]
      refine read_writeBytes_inside hw hfit ?_
      rw [State.lowRegs_getElem?, if_pos (Nat.lt_succ_of_le hk)]
    · rw [State.advanceI_mem]
      exact read_writeBytes_outside hw hfit (by rwa [hlen])
    · rw [State.readV_advanceI, State.readV_mk_mem]
    · rw [State.advanceI_mem]
      exact State.advanceI_eq _ _
  · exact (exec_ldMemVx_of_error he (memWrite_error (by omega))).trans (raise_eq ..)

/-- Settles O48: the bytes are one read, whose range decides between it and the fault, and I advances after it. -/
theorem blockLoadReadsRegistersOrFaults : Obligations.BlockLoadReadsRegistersOrFaults := by
  unfold Obligations.BlockLoadReadsRegistersOrFaults
  have hsize : Config.memSize = 0x1000 := rfl
  refine ⟨decodesRow_ldVxMem, fun x s he => ⟨fun hhi => ?_, fun hout => ?_⟩⟩
  · refine ⟨_, exec_ldVxMem_of_ok he (memRead_ok (by omega)), fun k => ?_, State.advanceI_I_toNat _ x, fun b => ?_, ?_⟩
    · rw [State.readV_advanceI, State.readV_loadRegs_range s x fun j => s.mem.read (s.I.toNat + j)]
    · rw [State.advanceI_mem, State.loadRegs_mem]
    · rw [State.advanceI_V]
      exact State.advanceI_eq _ _
  · exact (exec_ldVxMem_of_error he (memRead_error (by omega))).trans (raise_eq ..)

end Sys2Proof.Machine
